-- ==== Sys2Proof/Word.lean ====
section
/-! DEFINITION. The value types of the MIDI drum core: the byte, the sample value `Num`, and the
closed index sets of spec/10_state.md (slots, buttons, variant counters, drum types, layers, decoder
phases). Nothing here computes more than an index. -/

namespace Sys2Proof

/-- One byte of the stream; bit 7 is the most significant (R10). -/
abbrev Byte := BitVec 8

/-- The spec's `Num`: an IEEE 754 binary32 value held as its 32 bits (R180). -/
abbrev Num32 := BitVec 32

/-- A whole 3-byte frame as a 24-bit word: status 23:16, note 15:8, velocity 7:0 (R10, R81). -/
abbrev FrameWord := BitVec 24

/-- Index of a voice slot, 0..4 (R21). -/
abbrev SlotIx := Fin 5

/-- Index of a control flag, 0..3: three cycle-variant buttons and panic (R29). -/
abbrev Button := Fin 4

/-- Index of a control variant counter, 0..2 (R31). -/
abbrev VarIx := Fin 3

/-- The five drum types, in the index order of R7 (Kick 0 .. HiHat 4). -/
inductive Drum where
  | kick | snare | midTom | highTom | hiHat
deriving DecidableEq, Repr

/-- The seven DrumVoiceState layers: the five fundamentals, SubKick and SubTom (R33). -/
inductive Layer where
  | kick | snare | midTom | highTom | hiHat | subKick | subTom
deriving DecidableEq, Repr

/-- Position of the next stream byte in its 3-byte frame (R24). The unused encoding 3 of the two-bit
register is not representable, so it is never reached (spec/93 U15, log 26). -/
inductive Phase where
  | expectStatus | expectNote | expectVelocity
deriving DecidableEq, Repr

/-- The drum-index order of R7. -/
def Drum.all : List Drum := [.kick, .snare, .midTom, .highTom, .hiHat]

/-- The layer-index order of R33. -/
def Layer.all : List Layer := [.kick, .snare, .midTom, .highTom, .hiHat, .subKick, .subTom]

/-- Index of a drum type (R7). -/
def Drum.idx : Drum → Fin 5
  | .kick => 0 | .snare => 1 | .midTom => 2 | .highTom => 3 | .hiHat => 4

/-- Index of a layer (R33). -/
def Layer.idx : Layer → Fin 7
  | .kick => 0 | .snare => 1 | .midTom => 2 | .highTom => 3 | .hiHat => 4
  | .subKick => 5 | .subTom => 6

/-- The fundamental layer of a drum type (R14, R33). -/
def Drum.layer : Drum → Layer
  | .kick => .kick | .snare => .snare | .midTom => .midTom | .highTom => .highTom
  | .hiHat => .hiHat

/-- The two-bit encoding of `phase` (R24). -/
def Phase.bits : Phase → BitVec 2
  | .expectStatus => 0 | .expectNote => 1 | .expectVelocity => 2

/-- The strict cycle status, note, velocity, status (R24). -/
def Phase.succ : Phase → Phase
  | .expectStatus => .expectNote
  | .expectNote => .expectVelocity
  | .expectVelocity => .expectStatus

/-- The slot indices in ascending order, 0 first (R11, "for s in 0..4"). -/
def slotIndices : List SlotIx := [0, 1, 2, 3, 4]

end Sys2Proof
end

