-- ==== Sys2Proof/Machine/Binary32.lean ====
section
/-! DEFINITION. IEEE 754 binary32 without its NaN results: fields and classes of a `Num32`, its exact
value, rounding to nearest even, the conversions of R184, the sign flip of R182 and the comparisons
of R183. Every finite value is an integer multiple of 2^-149; that integer is its magnitude. -/

namespace Sys2Proof.Num32

/-- `+0`. -/
def posZero : Num32 := 0x00000000#32

/-- `-0`. -/
def negZero : Num32 := 0x80000000#32

/-- The bits of `+infinity`. -/
def infBits : Nat := 0x7F800000

/-- The binary32 value nearest 2π (R187). -/
def twoPi : Num32 := 0x40C90FDB#32

/-- The sign bit (R180). -/
def sign (x : Num32) : Bool := decide (2 ^ 31 ≤ x.toNat)

/-- The 8-bit exponent field (R180). -/
def expField (x : Num32) : Nat := x.toNat / 2 ^ 23 % 2 ^ 8

/-- The 23-bit fraction field (R180). -/
def fracField (x : Num32) : Nat := x.toNat % 2 ^ 23

def isFinite (x : Num32) : Bool := expField x != 255

def isNaN (x : Num32) : Bool := expField x == 255 && fracField x != 0

def isInf (x : Num32) : Bool := expField x == 255 && fracField x == 0

/-- A zero of either sign. -/
def isZero (x : Num32) : Bool := expField x == 0 && fracField x == 0

/-- `|x|` in units of 2^-149; on an infinity, more than on any finite value. -/
def mag (x : Num32) : Nat :=
  if expField x = 0 then fracField x else (2 ^ 23 + fracField x) * 2 ^ (expField x - 1)

/-- The signed value in units of 2^-149. -/
def scaled (x : Num32) : Int := if sign x then -(mag x : Int) else mag x

/-- The exact value of a finite `x`. -/
def toRat (x : Num32) : ℚ := (scaled x : ℚ) / 2 ^ 149

/-- `n / d` to the nearest integer, ties to the even one. -/
def roundEven (n d : Nat) : Nat :=
  if 2 * (n % d) < d then n / d
  else if d < 2 * (n % d) then n / d + 1
  else n / d + n / d % 2

/-- The sign-free bits of the binary32 value nearest `n / d` (ties to even), infinity on overflow
(R182, R184). The quantum is 2^(q-149), the least that leaves at most 24 significant bits. -/
def roundMag (n d : Nat) : Nat :=
  let q := (n * 2 ^ 149 / d).log2 - 23
  min infBits (q * 2 ^ 23 + roundEven (n * 2 ^ 149) (d * 2 ^ q))

/-- Sign bit and sign-free bits put together. -/
def pack (neg : Bool) (bits : Nat) : Num32 := BitVec.ofNat 32 (bits + if neg then 2 ^ 31 else 0)

/-- The value nearest a natural number (R184). -/
def ofNat (n : Nat) : Num32 := pack false (roundMag n 1)

/-- The value nearest a rational (R184). -/
def ofRat (q : ℚ) : Num32 := pack (decide (q < 0)) (roundMag q.num.natAbs q.den)

/-- Flips the sign bit; exact (R182). -/
def fneg (x : Num32) : Num32 := x ^^^ 0x80000000#32

/-- IEEE `a <= b`: false on a NaN, `+0` and `-0` equal (R183). -/
def fle (a b : Num32) : Bool := !isNaN a && !isNaN b && decide (scaled a ≤ scaled b)

/-- IEEE `a < b` (R183). -/
def flt (a b : Num32) : Bool := !isNaN a && !isNaN b && decide (scaled a < scaled b)

/-- `x` with its exponent all ones and its quiet bit set: a quiet NaN that keeps the sign and the other
payload bits of `x`. -/
def quiet (x : Num32) : Num32 := x ||| 0x7FC00000#32

end Sys2Proof.Num32
end

