-- ==== Sys2Proof/Config.lean ====
section
/-! DEFINITION. The configuration the spec leaves open (R8): the record `Params` of rational and
integer constants with its constraints (R8, R34, R272), the sine and exponential cores with the
properties R185 and R186 commit them to, the noise draws (R168) and the bits of a NaN result. Each
open value is an opaque constant of a type that carries its constraints, so a theorem about it holds
for every value the spec admits. A default value inside such a type shows only that the type is not
empty: nothing can be proved of an opaque constant from it. -/

namespace Sys2Proof

/-- The modulation-index envelope of a layer: one of three shapes (R150). -/
inductive IdxShape where
  /-- `Linear(TI)` -/
  | linear (ti : ℚ)
  /-- `Expo(TAUI)` -/
  | expo (taui : ℚ)
  /-- `Thump(K, EPS, TAUF)` -/
  | thump (k eps tauf : ℚ)
deriving DecidableEq, Repr

/-- The constants of a layer that no rule fixes for any layer (R8). -/
structure VoiceConsts where
  /-- `TAU[L]`, seconds -/
  tau : ℚ
  /-- `AMP[L]` -/
  amp : ℚ
  /-- `FC[L]`, Hz -/
  fc : ℚ
  /-- `FM[L]`, Hz -/
  fm : ℚ
  /-- `I0[L]` -/
  i0 : ℚ
  /-- `IDXENV[L]` -/
  idxEnv : IdxShape
deriving DecidableEq, Repr

/-- All constants of a layer: `PEAK[L]` and `REND[L]` beside the others (R8). -/
structure LayerConsts extends VoiceConsts where
  /-- `PEAK[L]`, seconds -/
  peak : ℚ
  /-- `REND[L]`, seconds -/
  rend : ℚ
deriving DecidableEq, Repr

/-- The open parameters of R8. Kick has no `peak` and no `rend`, and Kick and Snare no note, here: R7
fixes them. `NTHR` is no field: R164 determines it. -/
structure Params where
  /-- `SAMPLE_RATE`, Hz -/
  sampleRate : ℚ
  /-- `BLOCK_SIZE` -/
  blockSize : Nat
  /-- `NOTE[MidTom]` -/
  noteMidTom : Byte
  /-- `NOTE[HighTom]` -/
  noteHighTom : Byte
  /-- `NOTE[HiHat]` -/
  noteHiHat : Byte
  kick : VoiceConsts
  snare : LayerConsts
  midTom : LayerConsts
  highTom : LayerConsts
  hiHat : LayerConsts
  subKick : LayerConsts
  subTom : LayerConsts
  /-- `SUBWIN[SubKick]`, seconds -/
  subWinKick : ℚ
  /-- `SUBWIN[SubTom]`, seconds -/
  subWinTom : ℚ
  /-- `IDXOFS[c][v]` -/
  idxOfs : Vector (Vector ℚ 4) 3
  /-- `NOISEGAIN[Snare]` -/
  noiseGainSnare : ℚ
  /-- `NOISEGAIN[HiHat]` -/
  noiseGainHiHat : ℚ
deriving DecidableEq, Repr

namespace Params

/-- The constants of layer `L`; Kick's `PEAK` is 0.005 s and its `REND` 0.3 s (R7, log 25). -/
def layer (p : Params) : Layer → LayerConsts
  | .kick => { p.kick with peak := 1 / 200, rend := 3 / 10 }
  | .snare => p.snare
  | .midTom => p.midTom
  | .highTom => p.highTom
  | .hiHat => p.hiHat
  | .subKick => p.subKick
  | .subTom => p.subTom

/-- `NOTE[d]`; Kick is 60 and Snare 61 (R7). -/
def note (p : Params) : Drum → Byte
  | .kick => 60
  | .snare => 61
  | .midTom => p.noteMidTom
  | .highTom => p.noteHighTom
  | .hiHat => p.noteHiHat

/-- `NTHR[d] = ceil(REND[d] * SAMPLE_RATE)` in exact rational arithmetic (R164). -/
def nthr (p : Params) (d : Drum) : Nat := ((p.layer d.layer).rend * p.sampleRate).ceil.toNat

end Params

/-- The constants of an index envelope that enter `Num` arithmetic. -/
def IdxShape.constants : IdxShape → List ℚ
  | .linear ti => [ti]
  | .expo taui => [taui]
  | .thump k eps tauf => [k, eps, tauf]

/-- The constants of a layer that enter `Num` arithmetic, `SLOPE` of R144 among them. -/
def LayerConsts.constants (k : LayerConsts) : List ℚ :=
  [k.peak, k.rend, k.tau, k.amp, k.amp / k.peak, k.fc, k.fm, k.i0] ++ k.idxEnv.constants

/-- The constraints of R8 and R272 on one layer. -/
def LayerConsts.valid (k : LayerConsts) : Bool :=
  decide (0 < k.peak) && decide (k.peak ≤ k.rend) && decide (0 < k.tau) && decide (0 ≤ k.amp)
    && k.constants.all fun q => (Num32.ofRat q).isFinite

/-- The constraints on the configuration: R8, the counter bound of R34, and R272
(`SAMPLE_RATE` at least 1: log 8). -/
def Params.valid (p : Params) : Bool :=
  decide (1 ≤ p.sampleRate) && decide (1 ≤ p.blockSize)
    && decide ((Drum.all.map p.note).Nodup)
    && (Layer.all.all fun L => (p.layer L).valid)
    && decide (0 < p.subWinKick) && decide (0 < p.subWinTom)
    && (Drum.all.all fun d => decide (2 * p.nthr d + 2 < 2 ^ 32))
    && ([p.sampleRate, p.subWinKick, p.subWinTom, p.noiseGainSnare, p.noiseGainHiHat]
        ++ p.idxOfs.toList.flatMap Vector.toList).all fun q => (Num32.ofRat q).isFinite

/-- Some constants of a layer that meet the constraints: used only to show that valid parameters
exist. -/
def VoiceConsts.someValid : VoiceConsts :=
  { tau := 1, amp := 1, fc := 1, fm := 1, i0 := 1, idxEnv := .linear 1 }

/-- See `VoiceConsts.someValid`. -/
def LayerConsts.someValid : LayerConsts := { VoiceConsts.someValid with peak := 1, rend := 1 }

/-- See `VoiceConsts.someValid`. -/
def Params.someValid : Params :=
  { sampleRate := 1, blockSize := 1, noteMidTom := 0, noteHighTom := 1, noteHiHat := 2
    kick := .someValid, snare := .someValid, midTom := .someValid, highTom := .someValid
    hiHat := .someValid, subKick := .someValid, subTom := .someValid
    subWinKick := 1, subWinTom := 1, idxOfs := Vector.replicate 3 (Vector.replicate 4 0)
    noiseGainSnare := 1, noiseGainHiHat := 1 }

/-- Parameters with the proof that they meet the spec's constraints (spec/93 U9: others are refused
at configuration time). -/
structure ValidParams where
  params : Params := Params.someValid
  valid : params.valid = true := by decide +kernel
deriving Inhabited

/-- A sine core: a function of its operand alone with the properties `SIN_zero`, `SIN_bound`,
`SIN_nan` and `SIN_err` of R185; `eps` is `SIN_EPS`. -/
structure SineCore where
  fn : Num32 → Num32 := fun x => if x.isFinite then Num32.posZero else 0x7FC00000#32
  eps : ℚ := 1
  zero : fn Num32.posZero = Num32.posZero := by decide +kernel
  bound : ∀ x, x.isFinite = true →
      (fn x).isFinite = true ∧ -1 ≤ (fn x).toRat ∧ (fn x).toRat ≤ 1 := by
    intro x hx
    have h : (Num32.posZero).isFinite = true ∧ Num32.posZero.toRat = 0 := by decide +kernel
    simp [hx, h.1, h.2]
  nan : ∀ x, x.isFinite = false → (fn x).isNaN = true := by
    intro x hx
    simp only [hx]
    decide +kernel
  err : ∀ x, x.isFinite = true →
      |((fn x).toRat : ℝ) - Real.sin (x.toRat : ℝ)| ≤ (eps : ℝ) := by
    intro x hx
    have h : Num32.posZero.toRat = 0 := by decide +kernel
    simpa [hx, h] using Real.abs_sin_le_one (x.toRat : ℝ)
deriving Inhabited

/-- An exponential core with the properties `EXP_zero`, `EXP_range`, `EXP_pos` and `EXP_err` of R186;
`eps` is `EXP_EPS`. -/
structure ExpCore where
  fn : Num32 → Num32 := fun _ => Num32.ofNat 1
  eps : ℚ := 1
  zero : fn Num32.posZero = Num32.ofNat 1 ∧ fn Num32.negZero = Num32.ofNat 1 := by decide +kernel
  range : ∀ x, x.isFinite = true → x.toRat ≤ 0 →
      (fn x).isFinite = true ∧ 0 ≤ (fn x).toRat ∧ (fn x).toRat ≤ 1 := by
    intro x _ _
    decide +kernel
  pos : ∀ x, x.isFinite = true →
      Num32.fle Num32.posZero (fn x) = true ∧ (fn x).isNaN = false := by
    intro x _
    decide +kernel
  err : ∀ x, x.isFinite = true → x.toRat ≤ 0 →
      |((fn x).toRat : ℝ) - Real.exp (x.toRat : ℝ)| ≤ (eps : ℝ) := by
    intro x _ hx
    have h : (Num32.ofNat 1).toRat = 1 := by decide +kernel
    have hx' : (x.toRat : ℝ) ≤ 0 := by exact_mod_cast hx
    have h0 := Real.exp_pos (x.toRat : ℝ)
    have h1 := Real.exp_le_one_iff.mpr hx'
    rw [h, abs_le]
    constructor <;> push_cast <;> linarith
deriving Inhabited

/-- A member of `NoiseSet = (v : Num with -1 <= v <= 1)` (R168). -/
structure NoiseValue where
  val : Num32 := Num32.posZero
  inSet : Num32.fle (Num32.fneg (Num32.ofNat 1)) val = true
    ∧ Num32.fle val (Num32.ofNat 1) = true := by decide +kernel
deriving Inhabited

/-- The operations of R182 whose invalid cases give a quiet NaN. -/
inductive NumOp where
  | add | sub | mul | div
deriving DecidableEq, Repr

/-- DESIGN CHOICE (log 5): the open parameters of R8, any that meet the constraints. -/
opaque Config.params : ValidParams

/-- DESIGN CHOICE (log 6): the sine core (R185). -/
opaque Config.sine : SineCore

/-- DESIGN CHOICE (log 6): the exponential core (R186). -/
opaque Config.expo : ExpCore

/-- DESIGN CHOICE (log 3): the noise draws (R168); draw number `n` is free in `NoiseSet`. -/
opaque Config.noise : Nat → NoiseValue

/-- DESIGN CHOICE (log 9): sign and payload bits of the NaN an operation gives on two operands
(R182 says only "a quiet NaN"). -/
opaque Config.nanBits : NumOp → Num32 → Num32 → Num32

end Sys2Proof
end

