-- ==== Sys2Proof/Machine/Numerics.lean ====
section
/-! DEFINITION. The numerics record of R181, its binary32 instance (R180 to R187), and `Cfg`, the
parameters of a step: the configuration constants, the numerics record and the noise draws (R13). -/

namespace Sys2Proof

namespace Num32

/-- The quiet NaN of an invalid operation or of a NaN operand (R182); its sign and payload are open. -/
def nan (op : NumOp) (a b : Num32) : Num32 := quiet (Config.nanBits op a b)

/-- The sum of two values, `n` standing for the NaN result. An exact zero sum is `-0` only when both
operands are negative (R195). -/
def addCore (n a b : Num32) : Num32 :=
  if a.isNaN || b.isNaN then n
  else if a.isInf then (if b.isInf && (a.sign != b.sign) then n else a)
  else if b.isInf then b
  else if a.scaled + b.scaled = 0 then (if a.sign && b.sign then negZero else posZero)
  else pack (decide (a.scaled + b.scaled < 0)) (roundMag (a.scaled + b.scaled).natAbs (2 ^ 149))

/-- Addition (R182). -/
def fadd (a b : Num32) : Num32 := addCore (nan .add a b) a b

/-- Subtraction (R182). -/
def fsub (a b : Num32) : Num32 := addCore (nan .sub a b) a (fneg b)

/-- Multiplication (R182). -/
def fmul (a b : Num32) : Num32 :=
  if a.isNaN || b.isNaN then nan .mul a b
  else if a.isInf || b.isInf then
    (if a.isZero || b.isZero then nan .mul a b else pack (a.sign != b.sign) infBits)
  else pack (a.sign != b.sign) (roundMag (a.mag * b.mag) (2 ^ 298))

/-- Division (R182); a non-zero value over a zero is an infinity (PRESUMED, log 19). -/
def fdiv (a b : Num32) : Num32 :=
  if a.isNaN || b.isNaN then nan .div a b
  else if a.isInf then (if b.isInf then nan .div a b else pack (a.sign != b.sign) infBits)
  else if b.isInf then pack (a.sign != b.sign) 0
  else if b.isZero then
    (if a.isZero then nan .div a b else pack (a.sign != b.sign) infBits)
  else pack (a.sign != b.sign) (roundMag a.mag b.mag)

end Num32

/-- The numerics record of R181: every rule of the sample path uses only these fields. -/
structure Numerics (α : Type) where
  ofNat : Nat → α
  ofRat : ℚ → α
  fadd : α → α → α
  fsub : α → α → α
  fmul : α → α → α
  fdiv : α → α → α
  fneg : α → α
  fle : α → α → Bool
  flt : α → α → Bool
  SIN : α → α
  EXP : α → α
  TWO_PI : α

/-- The binary32 instance (R180 to R184, R187) with the given sine and exponential cores. -/
def binary32 (sin exp : Num32 → Num32) : Numerics Num32 :=
  { ofNat := Num32.ofNat, ofRat := Num32.ofRat
    fadd := Num32.fadd, fsub := Num32.fsub, fmul := Num32.fmul, fdiv := Num32.fdiv
    fneg := Num32.fneg, fle := Num32.fle, flt := Num32.flt
    SIN := sin, EXP := exp, TWO_PI := Num32.twoPi }

/-- The parameters of the step relation that are not state (R13): the constants of R8, the numerics
record, and the noise draws, the `n`-th invocation of a noise layer taking `draw n`. -/
structure Cfg where
  params : Params
  num : Numerics Num32
  draw : Nat → Num32

/-- The configuration of the machine: every open value opaque (log 3, 5, 6). -/
def Config.cfg : Cfg :=
  { params := Config.params.params
    num := binary32 Config.sine.fn Config.expo.fn
    draw := fun n => (Config.noise n).val }

end Sys2Proof
end

