-- ==== Sys2Proof/Syntax.lean ====
section
/-! DEFINITION. The instruction syntax: one constructor of `Instr` per row of
spec/opcode_table.json; `Raw`, the encoded forms in which the spec writes an instruction (formats M3,
B1, N8, EV and PSEUDO of R83, the ports of R92, the trace lines of R93 and R94); and `Input`, those of
them that an agent applies. -/

namespace Sys2Proof

/-- The instructions, events and internal operations of spec/opcode_table.json. -/
inductive Instr where
  /-- `NOTE_ON n, v` (R104). -/
  | noteOn (n v : Byte)
  /-- `NOTE_OFF n, v` (R105). -/
  | noteOff (n v : Byte)
  /-- `IGNORE s, n, v`, status `s` neither 0x90 nor 0x80 (R106). -/
  | ignore (s n v : Byte)
  /-- `FEED.STATUS b` (R101). -/
  | feedStatus (b : Byte)
  /-- `FEED.NOTE b` (R102). -/
  | feedNote (b : Byte)
  /-- `FEED.VELOCITY b` (R103). -/
  | feedVelocity (b : Byte)
  /-- `KICK.STEP` for slot `k` (R172). -/
  | kickStep (k : SlotIx)
  /-- `SNARE.STEP` for slot `k` (R173). -/
  | snareStep (k : SlotIx)
  /-- `MIDTOM.STEP` for slot `k` (R174). -/
  | midTomStep (k : SlotIx)
  /-- `HIGHTOM.STEP` for slot `k` (R175). -/
  | highTomStep (k : SlotIx)
  /-- `HIHAT.STEP` for slot `k` (R176). -/
  | hiHatStep (k : SlotIx)
  /-- `NOSTEP`: slot `k` holds the note `n`, which is no drum note (R89). -/
  | noStep (k : SlotIx) (n : Byte)
  /-- `ALLOCATE n` (R121). -/
  | allocate (n : Byte)
  /-- `RELEASE n` (R123). -/
  | release (n : Byte)
  /-- `RESET_ALL` (R125). -/
  | resetAll
  /-- `POLL` (R223). -/
  | poll
  /-- `PRESS k` (R221). -/
  | press (k : Button)
  /-- `BLOCK_START f` (R202). -/
  | blockStart (f : Num32)
  /-- `SAMPLE` (R204). -/
  | sample
  /-- `OVERRUN` (R252). -/
  | overrun
  /-- `RESET` (R270). -/
  | reset
  /-- `FEED b` (R100). -/
  | feed (b : Byte)
  /-- Pseudo-instruction `MSG s, n, v` (R94). -/
  | msg (s n v : Byte)
  /-- Pseudo-instruction `NOTEON n, v` (R94). -/
  | noteonMsg (n v : Byte)
  /-- Pseudo-instruction `NOTEOFF n, v` (R94). -/
  | noteoffMsg (n v : Byte)
  /-- Pseudo-instruction `BLOCK f` (R94, R211). -/
  | block (f : Num32)
  /-- Pseudo-instruction `PANIC` (R94). -/
  | panic
  /-- Pseudo-instruction `KICK` (R94). -/
  | kickMsg
  /-- Pseudo-instruction `SNARE` (R94). -/
  | snareMsg
deriving DecidableEq, Repr

/-- The formats of R83. -/
inductive Format where
  | m3 | b1 | n8 | int | ev | pseudo
deriving DecidableEq, Repr

/-- The format column of spec/opcode_table.json. -/
def Instr.format : Instr → Format
  | .noteOn _ _ | .noteOff _ _ | .ignore _ _ _ => .m3
  | .feedStatus _ | .feedNote _ | .feedVelocity _ => .b1
  | .kickStep _ | .snareStep _ | .midTomStep _ | .highTomStep _ | .hiHatStep _ | .noStep _ _ => .n8
  | .allocate _ | .release _ | .resetAll | .poll => .int
  | .press _ | .blockStart _ | .sample | .overrun | .reset | .feed _ => .ev
  | .msg _ _ _ | .noteonMsg _ _ | .noteoffMsg _ _ | .block _ | .panic | .kickMsg | .snareMsg =>
    .pseudo

/-- One clock of the input ports of R92. -/
structure Ports where
  /-- `rst` -/
  rst : Bool
  /-- `overrun_hook` -/
  overrunHook : Bool
  /-- `rx_valid` -/
  rxValid : Bool
  /-- `rx_byte[7:0]` -/
  rxByte : Byte
  /-- `btn_set[3:0]`, bit `k` presses button `k` -/
  btnSet : BitVec 4
  /-- `blk_start` -/
  blkStart : Bool
  /-- `fshift_in`, one `Num` -/
  fshiftIn : Num32
deriving DecidableEq, Repr

/-- The first word of a trace line: the events of R93 and the pseudo-instructions of R94. -/
inductive TraceName where
  | reset | feed | blockStart | sample | press | overrun
  | msg | noteon | noteoff | block | panic | kick | snare
deriving DecidableEq, Repr

/-- An operand of a trace line: an integer, or a `<num>` (R93). -/
inductive Operand where
  | nat (n : Nat)
  | num (v : Num32)
deriving DecidableEq, Repr

/-- One line of an event trace, already cut into its words (R93, R94). -/
structure TraceLine where
  name : TraceName
  args : List Operand
deriving DecidableEq, Repr

/-- An input that an agent applies to the core: it carries events of R12, or the decoder's dispatch of
one (format B1). A note selector is none: `STEP` is never applied from outside (R12, R140). -/
inductive Input where
  /-- a whole frame, three `FEED`s (format M3) -/
  | m3 (w : FrameWord)
  /-- one byte of the stream (format B1) -/
  | b1 (b : Byte)
  /-- one clock of the ports (format EV) -/
  | ports (p : Ports)
  /-- a trace line (R93, R94) -/
  | line (l : TraceLine)
deriving DecidableEq, Repr

/-- An encoding, in the formats of R83. Format INT has no encoding (R83). -/
inductive Raw where
  /-- Format M3: a whole frame, status byte in bits 23:16 (R81). -/
  | m3 (w : FrameWord)
  /-- Format B1: one byte of the stream, dispatched on `phase` (R83). -/
  | b1 (b : Byte)
  /-- Format N8: the note field of active slot `k`, the second-level selector (R88). -/
  | n8 (k : SlotIx) (n : Byte)
  /-- Format EV: one clock of the ports (R92). -/
  | ports (p : Ports)
  /-- A trace line: events (R93) and format PSEUDO (R94). -/
  | line (l : TraceLine)
deriving DecidableEq, Repr

/-- The encoding an input is. -/
def Input.raw : Input → Raw
  | .m3 w => .m3 w
  | .b1 b => .b1 b
  | .ports q => .ports q
  | .line l => .line l

/-- Why an encoded input is no instruction. -/
inductive DecodeError where
  /-- A clock in which no port signals an event (R92); the machine holds its state. Safe. -/
  | noEvent
  /-- A trace line whose operands are not those R93 and R94 give its first word. Safe: the line is
  rejected by name. -/
  | badOperands (m : TraceName)
deriving DecidableEq, Repr

end Sys2Proof
end

