-- ==== Sys2Proof/Machine/State.lean ====
section
/-! DEFINITION. The state of the core as plain data (spec/10_state.md, opening tuple), the reasons a
step can stop, and the state right after RESET (R42, R270). -/

namespace Sys2Proof.Machine

/-- A voice slot (R20). -/
structure Voice where
  note : Byte
  active : Bool
deriving DecidableEq, Repr

/-- A DrumVoiceState layer (R33). -/
structure LayerState where
  /-- elapsed-sample counter (R34) -/
  cnt : BitVec 32
  /-- last computed amplitude (R35) -/
  amp : Num32
  /-- last computed modulation index (R35) -/
  idx : Num32
  /-- cached frequency-shift scalar (R36) -/
  fshift : Num32
deriving DecidableEq, Repr

/-- An output buffer as the list of its elements that are not `+0`, by rising index (R38, log 15). -/
abbrev Buffer := List (Nat × Num32)

/-- What the last internal operation applied by itself returned (log 4). -/
inductive OpResult where
  /-- nothing yet -/
  | none
  /-- the `bool` of ALLOCATE or RELEASE (R121, R123) -/
  | flag (ok : Bool)
  /-- the `Num` of a STEP (R160) -/
  | value (y : Num32)
deriving DecidableEq, Repr

/-- The state. The last three fields are the model's own (logs 1, 3, 4). -/
structure State where
  /-- the Voice Pool (R21) -/
  slots : Vector Voice 5
  /-- the decoder's sequencer (R24) -/
  phase : Phase
  /-- pending note-on (R26) -/
  noteStartFlag : Bool
  /-- pending note-off (R26) -/
  noteStopFlag : Bool
  /-- the byte received in the note position (R28) -/
  pendingNote : Byte
  /-- the Control Variant Counters (R31) -/
  var : Vector (BitVec 2) 3
  /-- the control flags `BTN` (R29) -/
  btn : Vector Bool 4
  /-- the DrumVoiceState file (R33) -/
  layers : Vector LayerState 7
  /-- the mix accumulators (R37) -/
  acc : Vector Num32 5
  /-- a block is in progress (R25) -/
  busy : Bool
  /-- index of the next sample of the block (R25) -/
  i : Nat
  /-- left output buffer (R38) -/
  outL : Buffer
  /-- right output buffer (R38) -/
  outR : Buffer
  /-- the sticky flag `OVERRUN` (R30) -/
  overrun : Bool
  /-- the inputs of all agents still to come, in order; the model's own (log 1) -/
  inbox : List Input
  /-- number of the next noise draw; the model's own (log 3) -/
  noiseIx : Nat
  /-- return value of the last internal operation applied by itself; the model's own (log 4) -/
  result : OpResult
deriving DecidableEq, Repr

/-- Why the machine stops. -/
inductive Fault where
  /-- Raised by SAMPLE when the sample index is not an element of the output buffers (R11, R64): `busy`
  with `i >= BLOCK_SIZE`, which no run reaches (R204, log 13). Safe. -/
  | outputIndexOutOfRange
deriving DecidableEq, Repr

/-- Why a step has no meaning. -/
inductive Refusal where
  /-- Raised by the dispatch for an instruction without a meaning; no arm of this model does. Safe. -/
  | notModelled (mnemonic : String)
  /-- Raised by BLOCK_START, and by BLOCK which begins with it, while a block is in progress: the
  event is refused (R202, R275, log 16). Safe. -/
  | blockStartWhileBusy
  /-- Raised by SAMPLE while no block is in progress: the event is not enabled (R204, spec/93 U5,
  log 16). Safe. -/
  | sampleWhileIdle
  /-- Raised by the fetch for an input that is no instruction: a trace line with the wrong operands
  (log 12). Safe. -/
  | undecodable (e : DecodeError)
deriving DecidableEq, Repr

/-- A layer after RESET (R42). -/
def LayerState.reset : LayerState :=
  { cnt := 0, amp := Num32.posZero, idx := Num32.posZero, fshift := Num32.ofNat 1 }

/-- The machine right after RESET (R42, R270). The inbox is empty: the spec gives the core no program
(log 1). -/
def State.reset : State :=
  { slots := Vector.replicate 5 ⟨0, false⟩
    phase := .expectStatus
    noteStartFlag := false
    noteStopFlag := false
    pendingNote := 0
    var := Vector.replicate 3 0
    btn := Vector.replicate 4 false
    layers := Vector.replicate 7 .reset
    acc := Vector.replicate 5 Num32.posZero
    busy := false
    i := 0
    outL := []
    outR := []
    overrun := false
    inbox := []
    noiseIx := 0
    result := .none }

end Sys2Proof.Machine
end

