-- ==== Sys2Proof/Machine/Buffer.lean ====
section
/-! DEFINITION. The output buffers as memory: one element per index, the element the unit of access
(R38, R64). A buffer lists its elements that are not `+0`, by strictly rising index; an unlisted
element reads as `+0`, its reset contents (R42). -/

namespace Sys2Proof.Machine

/-- What an element that no write has reached reads as (R42). -/
def Buffer.unlisted : Num32 := Num32.posZero

/-- The value of element `j`. -/
def Buffer.read : Buffer → Nat → Num32
  | [], _ => Buffer.unlisted
  | (k, w) :: rest, j => if k = j then w else Buffer.read rest j

/-- The buffer with element `j` set to `v`, in canonical form. -/
def Buffer.write : Buffer → Nat → Num32 → Buffer
  | [], j, v => if v = Buffer.unlisted then [] else [(j, v)]
  | (k, w) :: rest, j, v =>
    if j < k then (if v = Buffer.unlisted then (k, w) :: rest else (j, v) :: (k, w) :: rest)
    else if j = k then (if v = Buffer.unlisted then rest else (j, v) :: rest)
    else (k, w) :: Buffer.write rest j v

/-- The form above index `lo`: indices rise strictly from `lo` on and no entry is what an unlisted
element reads as. -/
def Buffer.wfFrom : Nat → Buffer → Bool
  | _, [] => true
  | lo, (k, w) :: rest =>
    decide (lo ≤ k) && decide (w ≠ Buffer.unlisted) && Buffer.wfFrom (k + 1) rest

/-- The canonical form of a buffer. -/
def Buffer.wf (b : Buffer) : Bool := Buffer.wfFrom 0 b

/-- Every listed element has an index below `n`. -/
def Buffer.within (n : Nat) (b : Buffer) : Bool := b.all fun e => decide (e.1 < n)

/-- Both channels in canonical form. -/
def Memory.wf (s : State) : Bool := Buffer.wf s.outL && Buffer.wf s.outR

/-- The output channels of R11. -/
inductive Channel where
  | left | right
deriving DecidableEq, Repr

/-- The buffer of a channel. -/
def State.buffer (s : State) : Channel → Buffer
  | .left => s.outL
  | .right => s.outR

/-- `OutRead(ch, j)`, what the audio collaborator reads at any time (R11, R276); none for an index
that does not exist (log 24). -/
def outRead (c : Cfg) (s : State) (ch : Channel) (j : Nat) : Option Num32 :=
  if j < c.params.blockSize then some (Buffer.read (s.buffer ch) j) else none

/-- `OutWrite(L, j, v); OutWrite(R, j, v)`: the mono mix on both channels (R207). -/
def outWriteBoth (s : State) (j : Nat) (v : Num32) : State :=
  { s with outL := Buffer.write s.outL j v, outR := Buffer.write s.outR j v }

end Sys2Proof.Machine
end

