-- ==== Sys2Proof/Machine/Operands.lean ====
section
/-! DEFINITION. The selectors of the second-level opcode map and the per-drum tables: `DRUMOF` (R88,
R203), the extras of each drum type (R141), the mix weights (R205), the transient windows and noise
gains (R8). -/

namespace Sys2Proof.Machine

/-- `DRUMOF`: the drum type of a note number, none for a note that is no drum (R88, R203). -/
def drumOf (p : Params) (n : Byte) : Option Drum :=
  if n = p.note .kick then some .kick
  else if n = p.note .snare then some .snare
  else if n = p.note .midTom then some .midTom
  else if n = p.note .highTom then some .highTom
  else if n = p.note .hiHat then some .hiHat
  else none

/-- `TRANS(d)`: the transient layer of a drum (R141). -/
def transLayer : Drum → Option Layer
  | .kick => some .subKick
  | .snare => none
  | .midTom => some .subTom
  | .highTom => some .subTom
  | .hiHat => none

/-- The `SUBWIN` of a drum's transient layer, if it has one (R8, R166). -/
def subWin (p : Params) : Drum → ℚ
  | .kick => p.subWinKick
  | .snare => 0
  | .midTom => p.subWinTom
  | .highTom => p.subWinTom
  | .hiHat => 0

/-- `NOISEGAIN[d]` of the drums that have a noise layer (R8, R141). -/
def noiseGain (p : Params) : Drum → Option ℚ
  | .kick => none
  | .snare => some p.noiseGainSnare
  | .midTom => none
  | .highTom => none
  | .hiHat => some p.noiseGainHiHat

/-- `VAROF(L)`: the variant counter that serves a layer (R141). -/
def varOf : Layer → Option VarIx
  | .kick => some 0
  | .snare => some 1
  | .midTom => some 2
  | .highTom => some 2
  | .hiHat => none
  | .subKick => some 0
  | .subTom => some 2

/-- Whether the frequencies of a layer are scaled by `fshift` (R141, R154): HiHat alone is not. -/
def shifted : Layer → Bool
  | .hiHat => false
  | _ => true

/-- `MIXW[d]`: 2, 2, 1, 1, 1 (R7, R205). -/
def mixWeight : Drum → Nat
  | .kick => 2
  | .snare => 2
  | .midTom => 1
  | .highTom => 1
  | .hiHat => 1

/-- `IDXOFS[c][v]` (R8, R152). -/
def idxOffset (p : Params) (c : VarIx) (v : BitVec 2) : ℚ := (p.idxOfs.get c).get v.toFin

end Sys2Proof.Machine
end

