-- ==== Sys2Proof/Machine/Envelope.lean ====
section
/-! DEFINITION. The layer waveform as arithmetic over a numerics record: time (R142), amplitude
envelope (R144), index envelope (R150), effective index (R152) and FM waveform (R154). Every
definition is generic in the value type, so it reads the same over binary32 and over the real numbers
(R190). -/

namespace Sys2Proof.Machine

variable {α : Type}

/-- Elapsed time of a layer whose counter holds `cnt` (R142). -/
def elapsed (N : Numerics α) (p : Params) (cnt : Nat) : α :=
  N.fdiv (N.ofNat cnt) (N.ofRat p.sampleRate)

/-- `AMPENV(L, t)` (R144). -/
def ampEnv (N : Numerics α) (k : LayerConsts) (t : α) : α :=
  if N.fle t (N.ofRat k.peak) then N.fmul (N.ofRat (k.amp / k.peak)) t
  else if N.fle t (N.ofRat k.rend) then
    N.fmul (N.ofRat k.amp) (N.EXP (N.fneg (N.fdiv (N.fsub t (N.ofRat k.peak)) (N.ofRat k.tau))))
  else N.ofNat 0

/-- `IDXENV(L, t)` for one of the three shapes (R150). -/
def idxEnv (N : Numerics α) (shape : IdxShape) (t : α) : α :=
  match shape with
  | .linear ti =>
    if N.flt t (N.ofRat ti) then N.fsub (N.ofNat 1) (N.fdiv t (N.ofRat ti)) else N.ofNat 0
  | .expo taui => N.EXP (N.fneg (N.fdiv t (N.ofRat taui)))
  | .thump k eps tauf =>
    let u := N.fadd t (N.ofRat eps)
    N.fmul (N.fmul (N.ofRat k) (N.fmul u u)) (N.EXP (N.fneg (N.fmul (N.ofRat tauf) u)))

/-- The variant offset of a layer: `IDXOFS` at its counter's value, zero without a counter (R152). -/
def layerOffset (N : Numerics α) (p : Params) (L : Layer) (var : Vector (BitVec 2) 3) : α :=
  match varOf L with
  | none => N.ofNat 0
  | some c => N.ofRat (idxOffset p c (var.get c))

/-- `IDXEFF(L, t)` (R152). -/
def idxEff (N : Numerics α) (p : Params) (L : Layer) (var : Vector (BitVec 2) 3) (t : α) : α :=
  N.fmul (N.fadd (N.ofRat (p.layer L).i0) (layerOffset N p L var)) (idxEnv N (p.layer L).idxEnv t)

/-- The frequency scale `k` of a layer: `fshift`, or 1 for HiHat (R154). -/
def freqScale (N : Numerics α) (L : Layer) (fshift : α) : α :=
  if shifted L then fshift else N.ofNat 1

/-- The phase `2π · (freq · k) · t` of one oscillator, in the association of R154. -/
def oscPhase (N : Numerics α) (freq : ℚ) (k t : α) : α :=
  N.fmul (N.fmul N.TWO_PI (N.fmul (N.ofRat freq) k)) t

/-- What `LAYERWAVE` computes: the `amp` and `idx` it writes and the value it returns (R154). -/
structure LayerOut (α : Type) where
  amp : α
  idx : α
  out : α

/-- `LAYERWAVE(L)` as a function of what it reads: the variant counters, the layer's `fshift` and
`cnt` (R154). -/
def layerOut (N : Numerics α) (p : Params) (L : Layer) (var : Vector (BitVec 2) 3) (fshift : α)
    (cnt : Nat) : LayerOut α :=
  let t := elapsed N p cnt
  let a := ampEnv N (p.layer L) t
  let x := idxEff N p L var t
  let k := freqScale N L fshift
  let wm := oscPhase N (p.layer L).fm k t
  let wc := oscPhase N (p.layer L).fc k t
  { amp := a, idx := x, out := N.fmul a (N.SIN (N.fadd wc (N.fmul x (N.SIN wm)))) }

end Sys2Proof.Machine
end

