-- ==== Sys2Proof/Machine/Ops.lean ====
section
/-! DEFINITION. The operations the meanings share: accessors of the register files (R21, R29, R31,
R33, R37), the voice pool (R121, R123, R125), the decoder phases (R101 to R103), the synthesis step
(R154, R160 to R163), the controls (R221, R223), the block processor (R202, R204) and reset (R270).
The core has no trap entry and no return from one (R250, R253), so none stands here. -/

namespace Sys2Proof.Machine

/-! Register files -/

/-- Slot `k` of the Voice Pool (R21). -/
def State.slot (s : State) (k : SlotIx) : Voice := s.slots.get k

/-- `slot[k] <- (n, a)`: both fields in one action (R11, R65). -/
def State.setSlot (s : State) (k : SlotIx) (n : Byte) (a : Bool) : State :=
  { s with slots := s.slots.set k.val ⟨n, a⟩ k.isLt }

/-- Layer `L` of the DrumVoiceState file (R33). -/
def State.layer (s : State) (L : Layer) : LayerState := s.layers.get L.idx

/-- Replaces layer `L`. -/
def State.setLayer (s : State) (L : Layer) (v : LayerState) : State :=
  { s with layers := s.layers.set L.idx.val v L.idx.isLt }

/-- `cnt[L] <- v` (R34). -/
def State.setCnt (s : State) (L : Layer) (v : BitVec 32) : State :=
  s.setLayer L { s.layer L with cnt := v }

/-- Accumulator of drum `d` (R37). -/
def State.accOf (s : State) (d : Drum) : Num32 := s.acc.get d.idx

/-- `acc[d] <- v`. -/
def State.setAcc (s : State) (d : Drum) (v : Num32) : State :=
  { s with acc := s.acc.set d.idx.val v d.idx.isLt }

/-- `acc[d] <- ofNat(0)` for every drum (R125, R204). -/
def zeroAcc (c : Cfg) (s : State) : State :=
  { s with acc := Vector.replicate 5 (c.num.ofNat 0) }

/-! Voice pool -/

/-- The scan of `ALLOCATE` over the given slots: the first inactive one (R121). -/
def firstFree (s : State) : List SlotIx → Option SlotIx
  | [] => none
  | k :: ks => if !(s.slot k).active then some k else firstFree s ks

/-- The scan of `RELEASE` over the given slots: the first active one that holds `n` (R123). -/
def firstHolding (s : State) (n : Byte) : List SlotIx → Option SlotIx
  | [] => none
  | k :: ks => if (s.slot k).active && (s.slot k).note == n then some k else firstHolding s n ks

/-- `ALLOCATE(n)`: the new state and the result (R121). -/
def allocate (n : Byte) (s : State) : State × Bool :=
  match firstFree s slotIndices with
  | some k => (s.setSlot k n true, true)
  | none => (s, false)

/-- `RELEASE(n)`: the new state and the result; the note field keeps its value (R123). -/
def release (n : Byte) (s : State) : State × Bool :=
  match firstHolding s n slotIndices with
  | some k => (s.setSlot k n false, true)
  | none => (s, false)

/-- Every slot inactive, the notes kept (R125). -/
def silenceAll (s : State) : State :=
  { s with slots := s.slots.map fun v => { v with active := false } }

/-- `RESET_ALL` (R125). -/
def resetAll (c : Cfg) (s : State) : State := zeroAcc c (silenceAll s)

/-! Decoder -/

/-- `FEED.STATUS(b)`: both flags are assigned (R101). -/
def feedStatus (b : Byte) (s : State) : State :=
  { s with noteStartFlag := b == 0x90, noteStopFlag := b == 0x80, phase := .expectNote }

/-- `FEED.NOTE(b)` (R102). -/
def feedNote (b : Byte) (s : State) : State :=
  { s with pendingNote := b, phase := .expectVelocity }

/-- `FEED.VELOCITY`: the byte is discarded, the start flag has priority (R103, R248). -/
def feedVelocity (s : State) : State :=
  let s1 := { s with phase := .expectStatus }
  if s1.noteStartFlag then { (allocate s1.pendingNote s1).1 with noteStartFlag := false }
  else if s1.noteStopFlag then { (release s1.pendingNote s1).1 with noteStopFlag := false }
  else s1

/-- `FEED(b)`: the phase selects the rule (R100). -/
def feedByte (b : Byte) (s : State) : State :=
  match s.phase with
  | .expectStatus => feedStatus b s
  | .expectNote => feedNote b s
  | .expectVelocity => feedVelocity s

/-- `MSG st, n, v`: three `FEED`s in stream order (R61, R94). -/
def feedFrame (st n v : Byte) (s : State) : State := feedByte v (feedByte n (feedByte st s))

/-! Synthesis step -/

/-- `LAYERWAVE(L)`: writes `amp[L]` and `idx[L]`, returns the waveform value (R154). -/
def layerWave (c : Cfg) (L : Layer) (s : State) : State × Num32 :=
  let o := layerOut c.num c.params L s.var (s.layer L).fshift (s.layer L).cnt.toNat
  (s.setLayer L { s.layer L with amp := o.amp, idx := o.idx }, o.out)

/-- The transient layer of a step: added while its own time is inside the window, its counter
advancing in any case (R160, R166). -/
def transientPart (c : Cfg) (d : Drum) (s : State) (y : Num32) : State × Num32 :=
  match transLayer d with
  | none => (s, y)
  | some T =>
    let ts := elapsed c.num c.params (s.layer T).cnt.toNat
    let w := layerWave c T s
    (w.1.setCnt T ((w.1.layer T).cnt + 1),
      if c.num.flt ts (c.num.ofRat (subWin c.params d)) then c.num.fadd y w.2 else y)

/-- The noise layer of a step: one fresh draw, scaled by the amplitude just written (R160, R168). -/
def noisePart (c : Cfg) (d : Drum) (s : State) (y : Num32) : State × Num32 :=
  match noiseGain c.params d with
  | none => (s, y)
  | some g =>
    ({ s with noiseIx := s.noiseIx + 1 },
      c.num.fadd y
        (c.num.fmul (c.num.fmul (c.num.ofRat g) (s.layer d.layer).amp) (c.draw s.noiseIx)))

/-- The held branch: the counters of the drum and of its transient layer start again (R162). -/
def restartEpisode (d : Drum) (s : State) : State :=
  match transLayer d with
  | none => s.setCnt d.layer 0
  | some T => (s.setCnt d.layer 0).setCnt T 0

/-- The counter's increment and the boundary decision for slot `k` (R160 to R163). An inactive
slot takes the released branch, which no run reaches (R165, log 18). -/
def boundaryPart (c : Cfg) (d : Drum) (k : SlotIx) (s : State) (y : Num32) : State × Num32 :=
  let s1 := s.setCnt d.layer ((s.layer d.layer).cnt + 1)
  if c.params.nthr d < (s1.layer d.layer).cnt.toNat then
    if (s1.slot k).active then (restartEpisode d s1, y)
    else (s1.setSlot k (s1.slot k).note false, c.num.ofNat 0)
  else (s1, y)

/-! Episode state machine, a view that no register holds (R171) -/

/-- The named states of an episode (R171). -/
inductive Episode where
  /-- no active slot holds a note of the drum, so no step runs -/
  | idle
  /-- a step runs with `t <= PEAK[d]` -/
  | sounding
  /-- a step runs with `t > PEAK[d]` -/
  | decaying
  /-- past the boundary, the slot still active (R162) -/
  | held
  /-- past the boundary, the slot inactive (R163) -/
  | released
deriving DecidableEq, Repr

/-- The guard `slot[s].active` and `DRUMOF` for some slot: a SAMPLE runs a step of drum `d` (R171). -/
def drumPlaying (c : Cfg) (d : Drum) (s : State) : Bool :=
  slotIndices.any fun k => (s.slot k).active && drumOf c.params (s.slot k).note == some d

/-- The stage of a step of drum `d` at its count: Sounding up to `PEAK[d]`, Decaying past it (R171). -/
def stageAt (c : Cfg) (d : Drum) (s : State) : Episode :=
  if c.num.fle (elapsed c.num c.params (s.layer d.layer).cnt.toNat)
      (c.num.ofRat (c.params.layer d.layer).peak) then .sounding
  else .decaying

/-- The episode of drum `d` at a SAMPLE, `s` being the state before it (R171, log 28). -/
def episodeOf (c : Cfg) (d : Drum) (s : State) : Episode :=
  if drumPlaying c d s then stageAt c d s else .idle

/-- The outcome of the boundary test of a step of drum `d` for slot `k`: Held or Released past the
guard `cnt[d] > NTHR[d]`, none before it. `s` is the state before the step's increment (R161, R171). -/
def boundaryOf (c : Cfg) (d : Drum) (k : SlotIx) (s : State) : Option Episode :=
  if c.params.nthr d < ((s.layer d.layer).cnt + 1).toNat then
    some (if (s.slot k).active then .held else .released)
  else none

/-- `STEP(d, k)`: the new state and the value returned (R160). -/
def drumStep (c : Cfg) (d : Drum) (k : SlotIx) (s : State) : State × Num32 :=
  let w := layerWave c d.layer s
  let t := transientPart c d w.1 w.2
  let n := noisePart c d t.1 t.2
  boundaryPart c d k n.1 n.2

/-! Controls -/

/-- `BTN[k] <- v` (R29). -/
def State.setBtn (s : State) (k : Button) (v : Bool) : State :=
  { s with btn := s.btn.set k.val v k.isLt }

/-- The cycle-variant branch of `POLL` for counter `v` (R223). -/
def pollVariant (v : VarIx) (s : State) : State :=
  if s.btn.get (v.castLE (by decide)) then
    { s with
      var := s.var.set v.val (s.var.get v + 1) v.isLt
      btn := s.btn.set v.val false (Nat.lt_trans v.isLt (by decide)) }
  else s

/-- The panic branch of `POLL` (R223, R224). -/
def pollPanic (c : Cfg) (s : State) : State :=
  if s.btn.get 3 then (resetAll c s).setBtn 3 false else s

/-- `POLL` (R223). -/
def poll (c : Cfg) (s : State) : State :=
  pollPanic c (pollVariant 2 (pollVariant 1 (pollVariant 0 s)))

/-! Block processor -/

/-- The snapshot copied into all seven layers (R202). -/
def latchShift (f : Num32) (s : State) : State :=
  { s with layers := s.layers.map fun l => { l with fshift := f } }

/-- `BLOCK_START(f)` (R202): refused while a block is in progress. -/
def blockStart (c : Cfg) (f : Num32) (s : State) : Host.Outcome State Fault Refusal :=
  if s.busy then .refused .blockStartWhileBusy
  else .next { poll c (latchShift f s) with busy := true, i := 0 }

/-- The mixer's turn for slot `k`: the step of the drum its note maps to, weighted into that drum's
accumulator (R204, R205). -/
def mixSlot (c : Cfg) (s : State) (k : SlotIx) : State :=
  if (s.slot k).active then
    match drumOf c.params (s.slot k).note with
    | none => s
    | some d =>
      let r := drumStep c d k s
      r.1.setAcc d (c.num.fadd (r.1.accOf d) (c.num.fmul (c.num.ofNat (mixWeight d)) r.2))
  else s

/-- The sum of the accumulators, Kick first, left to right (R206). -/
def mixSum (c : Cfg) (s : State) : Num32 :=
  c.num.fadd (c.num.fadd (c.num.fadd (c.num.fadd (s.accOf .kick) (s.accOf .snare)) (s.accOf .midTom))
    (s.accOf .highTom)) (s.accOf .hiHat)

/-- The scan of the five slots of one sample, from zeroed accumulators (R204). -/
def mixAll (c : Cfg) (s : State) : State := slotIndices.foldl (mixSlot c) (zeroAcc c s)

/-- `SAMPLE` (R204): not enabled while no block is in progress; an index outside the buffers does not
exist. -/
def sample (c : Cfg) (s : State) : Host.Outcome State Fault Refusal :=
  if !s.busy then .refused .sampleWhileIdle
  else if c.params.blockSize ≤ s.i then .fault .outputIndexOutOfRange
  else
    let t := mixAll c s
    .next { outWriteBoth t t.i (mixSum c t) with
      i := t.i + 1, busy := decide (t.i + 1 ≠ c.params.blockSize) }

/-- `n` times `SAMPLE`. -/
def samples (c : Cfg) : Nat → State → Host.Outcome State Fault Refusal
  | 0, s => .next s
  | n + 1, s =>
    match sample c s with
    | .next t => samples c n t
    | .fault r => .fault r
    | .refused r => .refused r

/-- `BLOCK f`: `BLOCK_START f` and then `BLOCK_SIZE` times `SAMPLE` (R94, R211). -/
def runBlock (c : Cfg) (f : Num32) (s : State) : Host.Outcome State Fault Refusal :=
  match blockStart c f s with
  | .next t => samples c c.params.blockSize t
  | .fault r => .fault r
  | .refused r => .refused r

/-! Reset -/

/-- `RESET`: every element of the table of R42; the model's own fields keep their values (log 1, 3,
4). -/
def resetCore (s : State) : State :=
  { State.reset with inbox := s.inbox, noiseIx := s.noiseIx, result := s.result }

end Sys2Proof.Machine
end

