-- ==== Sys2Proof/Machine/Control.lean ====
section
/-! DEFINITION. Meanings of the control surface family (spec/45_control_surface.md). -/

namespace Sys2Proof.Machine

/-- `PRESS k` (R221). -/
def execPress (k : Button) (s : State) : Host.Outcome State Fault Refusal :=
  .next (s.setBtn k true)

/-- `POLL` (R223). -/
def execPoll (s : State) : Host.Outcome State Fault Refusal :=
  .next (poll Config.cfg s)

end Sys2Proof.Machine
end

