-- ==== Sys2Proof/Machine/Engine.lean ====
section
/-! DEFINITION. Meanings of the synthesis steps (spec/42_envelope_engine.md R172 to R176, and R89),
each step applied by itself for a slot, the value it returns left in `result` (log 4). -/

namespace Sys2Proof.Machine

/-- One `STEP(d, k)` applied by itself (R160). -/
def stepAlone (c : Cfg) (d : Drum) (k : SlotIx) (s : State) : State :=
  { (drumStep c d k s).1 with result := .value (drumStep c d k s).2 }

/-- `KICK.STEP` (R172). -/
def execKickStep (k : SlotIx) (s : State) : Host.Outcome State Fault Refusal :=
  .next (stepAlone Config.cfg .kick k s)

/-- `SNARE.STEP` (R173). -/
def execSnareStep (k : SlotIx) (s : State) : Host.Outcome State Fault Refusal :=
  .next (stepAlone Config.cfg .snare k s)

/-- `MIDTOM.STEP` (R174). -/
def execMidTomStep (k : SlotIx) (s : State) : Host.Outcome State Fault Refusal :=
  .next (stepAlone Config.cfg .midTom k s)

/-- `HIGHTOM.STEP` (R175). -/
def execHighTomStep (k : SlotIx) (s : State) : Host.Outcome State Fault Refusal :=
  .next (stepAlone Config.cfg .highTom k s)

/-- `HIHAT.STEP` (R176). -/
def execHiHatStep (k : SlotIx) (s : State) : Host.Outcome State Fault Refusal :=
  .next (stepAlone Config.cfg .hiHat k s)

/-- `NOSTEP`: nothing is dispatched for the slot and no state is written (R89, R209). -/
def execNoStep (_k : SlotIx) (_n : Byte) (s : State) : Host.Outcome State Fault Refusal :=
  .next s

end Sys2Proof.Machine
end

