-- ==== Sys2Proof/Machine/Framer.lean ====
section
/-! DEFINITION. Meanings of the MIDI decoder family (spec/40_midi_decoder.md): `FEED`, its three
phases, and the three messages. -/

namespace Sys2Proof.Machine

/-- `NOTE_ON n, v`: the frame 0x90, n, v fed byte by byte (R104). -/
def execNoteOn (n v : Byte) (s : State) : Host.Outcome State Fault Refusal :=
  .next (feedFrame 0x90 n v s)

/-- `NOTE_OFF n, v`: the frame 0x80, n, v fed byte by byte (R105). -/
def execNoteOff (n v : Byte) (s : State) : Host.Outcome State Fault Refusal :=
  .next (feedFrame 0x80 n v s)

/-- `IGNORE st, n, v`: the frame fed byte by byte (R106). -/
def execIgnore (st n v : Byte) (s : State) : Host.Outcome State Fault Refusal :=
  .next (feedFrame st n v s)

/-- `FEED.STATUS b` (R101). -/
def execFeedStatus (b : Byte) (s : State) : Host.Outcome State Fault Refusal :=
  .next (feedStatus b s)

/-- `FEED.NOTE b` (R102). -/
def execFeedNote (b : Byte) (s : State) : Host.Outcome State Fault Refusal :=
  .next (feedNote b s)

/-- `FEED.VELOCITY b`: the byte has no effect (R103). -/
def execFeedVelocity (_b : Byte) (s : State) : Host.Outcome State Fault Refusal :=
  .next (feedVelocity s)

/-- `FEED b` (R100). -/
def execFeed (b : Byte) (s : State) : Host.Outcome State Fault Refusal :=
  .next (feedByte b s)

end Sys2Proof.Machine
end

