-- ==== Sys2Proof/Machine/Mixer.lean ====
section
/-! DEFINITION. Meanings of the block processor's events (spec/44_mixer.md). -/

namespace Sys2Proof.Machine

/-- `BLOCK_START f` (R202). -/
def execBlockStart (f : Num32) (s : State) : Host.Outcome State Fault Refusal :=
  blockStart Config.cfg f s

/-- `SAMPLE` (R204). -/
def execSample (s : State) : Host.Outcome State Fault Refusal :=
  sample Config.cfg s

end Sys2Proof.Machine
end

