-- ==== Sys2Proof/Machine/Platform.lean ====
section
/-! DEFINITION. Meanings of the overrun hook (spec/60_exceptions.md) and of reset
(spec/70_reset_and_hazards.md). -/

namespace Sys2Proof.Machine

/-- `OVERRUN`: the sticky flag and nothing else (R252). -/
def execOverrun (s : State) : Host.Outcome State Fault Refusal :=
  .next { s with overrun := true }

/-- `RESET` (R270). -/
def execReset (s : State) : Host.Outcome State Fault Refusal :=
  .next (resetCore s)

end Sys2Proof.Machine
end

