-- ==== Sys2Proof/Machine/Pool.lean ====
section
/-! DEFINITION. Meanings of the voice pool family (spec/41_voice_pool.md), each operation applied by
itself, its return value left in `result` (log 4). -/

namespace Sys2Proof.Machine

/-- `ALLOCATE n` (R121). -/
def execAllocate (n : Byte) (s : State) : Host.Outcome State Fault Refusal :=
  .next { (allocate n s).1 with result := .flag (allocate n s).2 }

/-- `RELEASE n` (R123). -/
def execRelease (n : Byte) (s : State) : Host.Outcome State Fault Refusal :=
  .next { (release n s).1 with result := .flag (release n s).2 }

/-- `RESET_ALL` (R125). -/
def execResetAll (s : State) : Host.Outcome State Fault Refusal :=
  .next (resetAll Config.cfg s)

end Sys2Proof.Machine
end

