-- ==== Sys2Proof/Machine/Pseudo.lean ====
section
/-! DEFINITION. Meanings of the pseudo-instructions, each its expansion of R94 run without an event of
another agent in between (log 11). -/

namespace Sys2Proof.Machine

/-- `MSG st, n, v` (R94). -/
def execMsg (st n v : Byte) (s : State) : Host.Outcome State Fault Refusal :=
  .next (feedFrame st n v s)

/-- `NOTEON n, v` (R94). -/
def execNoteonMsg (n v : Byte) (s : State) : Host.Outcome State Fault Refusal :=
  .next (feedFrame 0x90 n v s)

/-- `NOTEOFF n, v` (R94). -/
def execNoteoffMsg (n v : Byte) (s : State) : Host.Outcome State Fault Refusal :=
  .next (feedFrame 0x80 n v s)

/-- `BLOCK f` (R94, R211). -/
def execBlock (f : Num32) (s : State) : Host.Outcome State Fault Refusal :=
  runBlock Config.cfg f s

/-- `PANIC` is `PRESS 3` (R94). -/
def execPanic (s : State) : Host.Outcome State Fault Refusal :=
  .next (s.setBtn 3 true)

/-- `KICK` is `NOTEON 60, 100` (R94). -/
def execKickMsg (s : State) : Host.Outcome State Fault Refusal :=
  .next (feedFrame 0x90 60 100 s)

/-- `SNARE` is `NOTEON 61, 100` (R94). -/
def execSnareMsg (s : State) : Host.Outcome State Fault Refusal :=
  .next (feedFrame 0x90 61 100 s)

end Sys2Proof.Machine
end

