-- ==== Sys2Proof/Machine/Dispatch.lean ====
section
/-! DEFINITION. The dispatch: one arm per constructor of `Instr`, each one call of its meaning. -/

namespace Sys2Proof.Machine

def exec (i : Instr) (s : State) : Host.Outcome State Fault Refusal :=
  match i with
  | .noteOn n v => Sys2Proof.Machine.execNoteOn n v s
  | .noteOff n v => Sys2Proof.Machine.execNoteOff n v s
  | .ignore st n v => Sys2Proof.Machine.execIgnore st n v s
  | .feedStatus b => Sys2Proof.Machine.execFeedStatus b s
  | .feedNote b => Sys2Proof.Machine.execFeedNote b s
  | .feedVelocity b => Sys2Proof.Machine.execFeedVelocity b s
  | .kickStep k => Sys2Proof.Machine.execKickStep k s
  | .snareStep k => Sys2Proof.Machine.execSnareStep k s
  | .midTomStep k => Sys2Proof.Machine.execMidTomStep k s
  | .highTomStep k => Sys2Proof.Machine.execHighTomStep k s
  | .hiHatStep k => Sys2Proof.Machine.execHiHatStep k s
  | .noStep k n => Sys2Proof.Machine.execNoStep k n s
  | .allocate n => Sys2Proof.Machine.execAllocate n s
  | .release n => Sys2Proof.Machine.execRelease n s
  | .resetAll => Sys2Proof.Machine.execResetAll s
  | .poll => Sys2Proof.Machine.execPoll s
  | .press k => Sys2Proof.Machine.execPress k s
  | .blockStart f => Sys2Proof.Machine.execBlockStart f s
  | .sample => Sys2Proof.Machine.execSample s
  | .overrun => Sys2Proof.Machine.execOverrun s
  | .reset => Sys2Proof.Machine.execReset s
  | .feed b => Sys2Proof.Machine.execFeed b s
  | .msg st n v => Sys2Proof.Machine.execMsg st n v s
  | .noteonMsg n v => Sys2Proof.Machine.execNoteonMsg n v s
  | .noteoffMsg n v => Sys2Proof.Machine.execNoteoffMsg n v s
  | .block f => Sys2Proof.Machine.execBlock f s
  | .panic => Sys2Proof.Machine.execPanic s
  | .kickMsg => Sys2Proof.Machine.execKickMsg s
  | .snareMsg => Sys2Proof.Machine.execSnareMsg s

end Sys2Proof.Machine
end

