-- ==== Sys2Proof/WellFormed.lean ====
section
/-! DEFINITION. Well-formed instructions: the operand constraints the opcode table and R87 to R89 put
on a row beyond the types of its operands. -/

namespace Sys2Proof

/-- `IGNORE` has a status that is neither note-on nor note-off (R87, R106), and `NOSTEP` a note that
is no drum note (R88, R89); every other row admits all values of its operands. -/
def Instr.wf (p : Params) : Instr → Bool
  | .ignore s _ _ => s != 0x90 && s != 0x80
  | .noStep _ n => (Machine.drumOf p n).isNone
  | .noteOn _ _ | .noteOff _ _ | .feedStatus _ | .feedNote _ | .feedVelocity _
  | .kickStep _ | .snareStep _ | .midTomStep _ | .highTomStep _ | .hiHatStep _
  | .allocate _ | .release _ | .resetAll | .poll | .press _ | .blockStart _ | .sample | .overrun
  | .reset | .feed _ | .msg _ _ _ | .noteonMsg _ _ | .noteoffMsg _ _ | .block _ | .panic
  | .kickMsg | .snareMsg => true

end Sys2Proof
end

