-- ==== Sys2Proof/Decode.lean ====
section
/-! DEFINITION. The decoder, total on every encoded input and every decoder phase, and after it the
encoder, both from the encodings of spec/30_encoding.md: frames (R81, R87), single bytes (R83), note
selectors (R88), ports (R92, R248) and trace lines (R93, R94). -/

namespace Sys2Proof

/-- Status byte of a frame word, bits 23:16 (R81). -/
def frameStatus (w : FrameWord) : Byte := w.extractLsb' 16 8

/-- Note byte of a frame word, bits 15:8 (R81). -/
def frameNote (w : FrameWord) : Byte := w.extractLsb' 8 8

/-- Velocity byte of a frame word, bits 7:0 (R81). -/
def frameVelocity (w : FrameWord) : Byte := w.extractLsb' 0 8

/-- The three rows of the first-level opcode map, tried in the order of R83 (R87). -/
def decodeFrame (w : FrameWord) : Instr :=
  if frameStatus w = 0x90 then .noteOn (frameNote w) (frameVelocity w)
  else if frameStatus w = 0x80 then .noteOff (frameNote w) (frameVelocity w)
  else .ignore (frameStatus w) (frameNote w) (frameVelocity w)

/-- One byte, dispatched on the phase and not on its value (R83, R100). -/
def decodeByte (ph : Phase) (b : Byte) : Instr :=
  match ph with
  | .expectStatus => .feedStatus b
  | .expectNote => .feedNote b
  | .expectVelocity => .feedVelocity b

/-- The step of a drum type for slot `k` (second-level map, R88). -/
def stepInstr (k : SlotIx) : Drum → Instr
  | .kick => .kickStep k
  | .snare => .snareStep k
  | .midTom => .midTomStep k
  | .highTom => .highTomStep k
  | .hiHat => .hiHatStep k

/-- The second-level opcode map: the note field of slot `k` (R88, R89). -/
def decodeNote (p : Params) (k : SlotIx) (n : Byte) : Instr :=
  match Machine.drumOf p n with
  | some d => stepInstr k d
  | none => .noStep k n

/-- The lowest pressed button of `btn_set` (R92; the order among buttons is immaterial, R248). -/
def firstButton (b : BitVec 4) : Option Button :=
  if b.getLsbD 0 then some 0
  else if b.getLsbD 1 then some 1
  else if b.getLsbD 2 then some 2
  else if b.getLsbD 3 then some 3
  else none

/-- Whether a clock signals any event (R92). -/
def Ports.active (q : Ports) : Bool :=
  q.rst || q.overrunHook || q.rxValid || q.btnSet != 0 || q.blkStart

/-- What is left of a clock once an event of it is taken: nothing when no port signals any more. -/
def Ports.left (q : Ports) : Option Ports := if q.active then some q else none

/-- The first event of a clock in the order of R248, and the rest of the clock. `RESET` overrides
everything: what else the clock signals is dropped (log 7). -/
def decodePorts (q : Ports) : Except DecodeError (Instr × Option Ports) :=
  if q.rst then .ok (.reset, none)
  else if q.overrunHook then .ok (.overrun, Ports.left { q with overrunHook := false })
  else if q.rxValid then .ok (.feed q.rxByte, Ports.left { q with rxValid := false })
  else match firstButton q.btnSet with
    | some k =>
      .ok (.press k, Ports.left { q with btnSet := q.btnSet &&& ~~~(BitVec.twoPow 4 k.val) })
    | none =>
      if q.blkStart then .ok (.blockStart q.fshiftIn, none) else .error .noEvent

/-- An integer operand that fits a byte. -/
def byteOperand (n : Nat) : Option Byte := if n < 256 then some (BitVec.ofNat 8 n) else none

/-- A trace line (R93, R94). -/
def decodeLine (l : TraceLine) : Option Instr :=
  match l.name, l.args with
  | .reset, [] => some .reset
  | .feed, [.nat b] => (byteOperand b).map .feed
  | .blockStart, [.num f] => some (.blockStart f)
  | .sample, [] => some .sample
  | .press, [.nat k] => if h : k < 4 then some (.press ⟨k, h⟩) else none
  | .overrun, [] => some .overrun
  | .msg, [.nat s, .nat n, .nat v] => do
    return .msg (← byteOperand s) (← byteOperand n) (← byteOperand v)
  | .noteon, [.nat n, .nat v] => do return .noteonMsg (← byteOperand n) (← byteOperand v)
  | .noteoff, [.nat n, .nat v] => do return .noteoffMsg (← byteOperand n) (← byteOperand v)
  | .block, [.num f] => some (.block f)
  | .panic, [] => some .panic
  | .kick, [] => some .kickMsg
  | .snare, [] => some .snareMsg
  | _, _ => none

/-- The decoder: the instruction an encoding holds and what is left of its clock, or the reason it
holds none. The phase matters to format B1 alone (R83). -/
def decode (p : Params) (ph : Phase) (r : Raw) : Except DecodeError (Instr × Option Ports) :=
  match r with
  | .m3 w => .ok (decodeFrame w, none)
  | .b1 b => .ok (decodeByte ph b, none)
  | .n8 k n => .ok (decodeNote p k n, none)
  | .ports q => decodePorts q
  | .line l =>
    match decodeLine l with
    | some i => .ok (i, none)
    | none => .error (.badOperands l.name)

/-- The encoding an instruction-table word of `nbits` bits stands for: 24 bits are a frame (format M3),
8 bits the note field of slot 0 (format N8; the slot index is not encoded, R88). The 8-bit rows of
format B1 are chosen by the phase and not by a word (log 2). -/
def tableWord (nbits w : Nat) : Option Raw :=
  if nbits = 24 then some (.m3 (BitVec.ofNat 24 w))
  else if nbits = 8 then some (.n8 0 (BitVec.ofNat 8 w))
  else none

/-- The instruction the decoder reads from a word of spec/opcode_table.json. -/
def decodeTableWord (nbits w : Nat) : Option Instr :=
  match tableWord nbits w with
  | none => none
  | some r =>
    match decode Config.params.params .expectStatus r with
    | .ok (i, _) => some i
    | .error _ => none

/-- A clock in which no port signals an event. -/
def Ports.quiet : Ports :=
  { rst := false, overrunHook := false, rxValid := false, rxByte := 0, btnSet := 0
    blkStart := false, fshiftIn := 0 }

/-- The 24-bit word of a frame (R10, R81). -/
def frameWord (s n v : Byte) : FrameWord := s ++ n ++ v

/-- The encoder. Format INT has no encoding (R83). `SAMPLE` has no port (R92) and is written as a
trace line (R93), as the pseudo-instructions are (R94). -/
def encode (p : Params) : Instr → Option Raw
  | .noteOn n v => some (.m3 (frameWord 0x90 n v))
  | .noteOff n v => some (.m3 (frameWord 0x80 n v))
  | .ignore s n v => some (.m3 (frameWord s n v))
  | .feedStatus b => some (.b1 b)
  | .feedNote b => some (.b1 b)
  | .feedVelocity b => some (.b1 b)
  | .kickStep k => some (.n8 k (p.note .kick))
  | .snareStep k => some (.n8 k (p.note .snare))
  | .midTomStep k => some (.n8 k (p.note .midTom))
  | .highTomStep k => some (.n8 k (p.note .highTom))
  | .hiHatStep k => some (.n8 k (p.note .hiHat))
  | .noStep k n => some (.n8 k n)
  | .allocate _ => none
  | .release _ => none
  | .resetAll => none
  | .poll => none
  | .press k => some (.ports { Ports.quiet with btnSet := BitVec.twoPow 4 k.val })
  | .blockStart f => some (.ports { Ports.quiet with blkStart := true, fshiftIn := f })
  | .sample => some (.line ⟨.sample, []⟩)
  | .overrun => some (.ports { Ports.quiet with overrunHook := true })
  | .reset => some (.ports { Ports.quiet with rst := true })
  | .feed b => some (.ports { Ports.quiet with rxValid := true, rxByte := b })
  | .msg s n v => some (.line ⟨.msg, [.nat s.toNat, .nat n.toNat, .nat v.toNat]⟩)
  | .noteonMsg n v => some (.line ⟨.noteon, [.nat n.toNat, .nat v.toNat]⟩)
  | .noteoffMsg n v => some (.line ⟨.noteoff, [.nat n.toNat, .nat v.toNat]⟩)
  | .block f => some (.line ⟨.block, [.num f]⟩)
  | .panic => some (.line ⟨.panic, []⟩)
  | .kickMsg => some (.line ⟨.kick, []⟩)
  | .snareMsg => some (.line ⟨.snare, []⟩)

/-- The phase in which an instruction's encoding reads as that instruction: format B1 is dispatched on
the phase (R100), every other format reads the same in every phase. -/
def Instr.readIn (i : Instr) (ph : Phase) : Bool :=
  match i with
  | .feedStatus _ => ph == .expectStatus
  | .feedNote _ => ph == .expectNote
  | .feedVelocity _ => ph == .expectVelocity
  | _ => true

end Sys2Proof
end

