-- ==== Sys2Proof/Machine/Fetch.lean ====
section
/-! DEFINITION. Where the next event comes from. The core fetches nothing (R24); events come from the
agents of R13 in the order of `inbox` (log 1), and the block processor takes its own turn when no
input is left and a block is in progress (R12, R284). -/

namespace Sys2Proof.Machine

/-- What the next step does. -/
inductive Fetched where
  /-- run `i`, with `rest` as the inbox after it -/
  | run (i : Instr) (rest : List Input)
  /-- no event: the core holds its state (R258) -/
  | hold (rest : List Input)
  /-- the next input is no instruction -/
  | reject (e : DecodeError)
deriving DecidableEq, Repr

/-- The decoded input, what is left of its clock put back in front. -/
def fetchRaw (p : Params) (ph : Phase) (r : Raw) (rest : List Input) : Fetched :=
  match decode p ph r with
  | .ok (i, left) => .run i (left.toList.map .ports ++ rest)
  | .error .noEvent => .hold rest
  | .error e => .reject e

/-- What the core sees of an input: the block-start port is an event only while no block is in progress
(R92), every other input is seen as it is. -/
def seen (s : State) (x : Input) : Raw :=
  match x with
  | .ports q => .ports { q with blkStart := q.blkStart && !s.busy }
  | .m3 w => .m3 w
  | .b1 b => .b1 b
  | .line l => .line l

/-- The next event: the head of the inbox, or the block processor's own (R12, R284). -/
def fetch (p : Params) (s : State) : Fetched :=
  match s.inbox with
  | [] => if s.busy then .run .sample [] else .hold []
  | x :: rest => fetchRaw p s.phase (seen s x) rest

/-- `s` arranged so that the next step runs the instruction of one encoding and nothing waits after it.
A note selector is the note field of an active slot, which the mixer decodes inside SAMPLE (R88,
R140): slot `k` holds the note, no other slot is active, and a block is at its first sample
(log 2). -/
def placeRaw (r : Raw) (s : State) : State :=
  match r with
  | .n8 k n => { (silenceAll s).setSlot k n true with busy := true, i := 0, inbox := [] }
  | .m3 w => { s with inbox := [.m3 w] }
  | .b1 b => { s with inbox := [.b1 b] }
  | .ports q => { s with inbox := [.ports q] }
  | .line l => { s with inbox := [.line l] }

end Sys2Proof.Machine
end

