-- ==== Sys2Proof/Machine/Step.lean ====
section
/-! DEFINITION. One step: the next event is fetched and its instruction run; and the placing of an
instruction-table word where the next step fetches. -/

namespace Sys2Proof.Machine

/-- One step. -/
def step (s : State) : Host.Outcome State Fault Refusal :=
  match fetch Config.params.params s with
  | .run i rest => exec i { s with inbox := rest }
  | .hold rest => .next { s with inbox := rest }
  | .reject e => .refused (.undecodable e)

/-- `s` arranged so that the next step runs the instruction-table word `w` of `nbits` bits (log 2). -/
def State.withFetchWord (s : State) (nbits w : Nat) : State :=
  match tableWord nbits w with
  | some r => placeRaw r s
  | none => { s with inbox := [] }

end Sys2Proof.Machine
end

