-- ==== Sys2Proof/Machine/Conditions.lean ====
section
/-! DEFINITION. The four conditions of spec/60_exceptions.md as an observation: which an instruction
signals, as a function of the state before it. They are stored nowhere (R240, log 20). -/

namespace Sys2Proof.Machine

/-- A condition with its info (R241 to R244). -/
inductive Condition where
  /-- `PoolExhausted(n)` (R241) -/
  | poolExhausted (n : Byte)
  /-- `UnmatchedNoteOff(n)` (R242) -/
  | unmatchedNoteOff (n : Byte)
  /-- `UnsupportedStatus(b)` (R243) -/
  | unsupportedStatus (b : Byte)
  /-- `BlockOverrun` (R244) -/
  | blockOverrun
deriving DecidableEq, Repr

/-- The cause code, the source's own numbering (R240). -/
def Condition.code : Condition → Nat
  | .poolExhausted _ => 1
  | .unmatchedNoteOff _ => 2
  | .unsupportedStatus _ => 3
  | .blockOverrun => 4

/-- `ALLOCATE(n)` signals `PoolExhausted(n)` when it returns false (R121, R241). -/
def allocateSignals (n : Byte) (s : State) : List Condition :=
  if (allocate n s).2 then [] else [.poolExhausted n]

/-- `RELEASE(n)` signals `UnmatchedNoteOff(n)` when it returns false (R123, R242). -/
def releaseSignals (n : Byte) (s : State) : List Condition :=
  if (release n s).2 then [] else [.unmatchedNoteOff n]

/-- `FEED.STATUS(b)` signals `UnsupportedStatus(b)` for every other value (R101, R243). -/
def statusSignals (b : Byte) : List Condition :=
  if b = 0x90 ∨ b = 0x80 then [] else [.unsupportedStatus b]

/-- `FEED.VELOCITY` signals what the pool operation it invokes signals (R103). -/
def velocitySignals (s : State) : List Condition :=
  if s.noteStartFlag then allocateSignals s.pendingNote s
  else if s.noteStopFlag then releaseSignals s.pendingNote s
  else []

/-- `FEED(b)`. -/
def feedSignals (b : Byte) (s : State) : List Condition :=
  match s.phase with
  | .expectStatus => statusSignals b
  | .expectNote => []
  | .expectVelocity => velocitySignals s

/-- The three `FEED`s of a frame. -/
def frameSignals (st n v : Byte) (s : State) : List Condition :=
  feedSignals st s ++ feedSignals n (feedByte st s) ++ feedSignals v (feedByte n (feedByte st s))

/-- The conditions an instruction signals, in order. No other instruction signals any (R245). -/
def signals (i : Instr) (s : State) : List Condition :=
  match i with
  | .noteOn n v => frameSignals 0x90 n v s
  | .noteOff n v => frameSignals 0x80 n v s
  | .ignore st n v => frameSignals st n v s
  | .feedStatus b => statusSignals b
  | .feedNote _ => []
  | .feedVelocity _ => velocitySignals s
  | .kickStep _ | .snareStep _ | .midTomStep _ | .highTomStep _ | .hiHatStep _ | .noStep _ _ => []
  | .allocate n => allocateSignals n s
  | .release n => releaseSignals n s
  | .resetAll | .poll | .press _ | .blockStart _ | .sample => []
  | .overrun => [.blockOverrun]
  | .reset => []
  | .feed b => feedSignals b s
  | .msg st n v => frameSignals st n v s
  | .noteonMsg n v => frameSignals 0x90 n v s
  | .noteoffMsg n v => frameSignals 0x80 n v s
  | .block _ | .panic => []
  | .kickMsg => frameSignals 0x90 60 100 s
  | .snareMsg => frameSignals 0x90 61 100 s

end Sys2Proof.Machine
end

