-- ==== Sys2Proof/Machine/Reference.lean ====
section
/-! DEFINITION. The real-number instance of the numerics record (R190) and the reference functions of
the source: the amplitude envelope (R143) and the waveform (R153). No step of the machine uses them. -/

namespace Sys2Proof.Machine

/-- The numerics record over the real numbers: exact field operations, the real sine and exponential
(R190). DESIGN CHOICE: R190 leaves division by zero open, and here it is Lean's, `x / 0 = 0`; under valid
parameters only `Expo(0)` divides by zero (log 29). -/
noncomputable def realNum : Numerics ℝ :=
  { ofNat := fun n => (n : ℝ), ofRat := fun q => (q : ℝ)
    fadd := fun a b => a + b, fsub := fun a b => a - b
    fmul := fun a b => a * b, fdiv := fun a b => a / b
    fneg := fun a => -a
    fle := fun a b => decide (a ≤ b), flt := fun a b => decide (a < b)
    SIN := Real.sin, EXP := Real.exp, TWO_PI := 2 * Real.pi }

/-- The amplitude envelope `A_L(t)` of a layer as a real function (R143). -/
noncomputable def refAmp (k : LayerConsts) (t : ℝ) : ℝ :=
  if t ≤ (k.peak : ℝ) then ((k.amp : ℝ) / (k.peak : ℝ)) * t
  else if t ≤ (k.rend : ℝ) then
    (k.amp : ℝ) * Real.exp (-((t - (k.peak : ℝ)) / (k.tau : ℝ)))
  else 0

/-- The index envelope `I_L(t)` of a layer as a real function (R150). DESIGN CHOICE: `Expo(0)`, for which
the formula has no value, is 1 by Lean's `x / 0 = 0` (log 29). -/
noncomputable def refIdx (shape : IdxShape) (t : ℝ) : ℝ :=
  match shape with
  | .linear ti => if t < (ti : ℝ) then 1 - t / (ti : ℝ) else 0
  | .expo taui => Real.exp (-(t / (taui : ℝ)))
  | .thump k eps tauf =>
    (k : ℝ) * (t + (eps : ℝ)) ^ 2 * Real.exp (-((tauf : ℝ) * (t + (eps : ℝ))))

/-- The waveform `y_L(t)` as a real function: carrier `kf·FC`, modulator `kf·FM`, index
`(I0 + ofs)·I(t)` (R153). -/
noncomputable def refWave (k : LayerConsts) (ofs kf t : ℝ) : ℝ :=
  refAmp k t * Real.sin (2 * Real.pi * (kf * (k.fc : ℝ)) * t
    + ((k.i0 : ℝ) + ofs) * refIdx k.idxEnv t * Real.sin (2 * Real.pi * (kf * (k.fm : ℝ)) * t))

end Sys2Proof.Machine
end

