-- ==== Sys2Proof/Machine/Run.lean ====
section
/-! DEFINITION. Runs (R285): sequences of the events of R12 that begin with RESET, finite or infinite,
the audible result of a run, and what an unending host makes of the step (log 1). -/

namespace Sys2Proof.Machine

/-- The instructions run one after another, stopping at the first that does not answer a next state. -/
def execAll : List Instr → State → Host.Outcome State Fault Refusal
  | [], s => .next s
  | i :: rest, s =>
    match exec i s with
    | .next t => execAll rest t
    | .fault r => .fault r
    | .refused r => .refused r

/-- The six events of R12; everything else is a dispatch of one, an abbreviation, or an internal
operation never applied from outside. -/
def isEvent : Instr → Bool
  | .reset | .feed _ | .blockStart _ | .sample | .press _ | .overrun => true
  | .noteOn _ _ | .noteOff _ _ | .ignore _ _ _ | .feedStatus _ | .feedNote _ | .feedVelocity _
  | .kickStep _ | .snareStep _ | .midTomStep _ | .highTomStep _ | .hiHatStep _ | .noStep _ _
  | .allocate _ | .release _ | .resetAll | .poll
  | .msg _ _ _ | .noteonMsg _ _ | .noteoffMsg _ _ | .block _ | .panic | .kickMsg | .snareMsg => false

/-- The events an instruction stands for: a message is its three `FEED`s (R61, R87), a byte one `FEED`
(R100), a pseudo-instruction its expansion (R94). An internal operation stands for none (R12). -/
def expand (c : Cfg) : Instr → List Instr
  | .noteOn n v | .noteonMsg n v => [.feed 0x90, .feed n, .feed v]
  | .noteOff n v | .noteoffMsg n v => [.feed 0x80, .feed n, .feed v]
  | .ignore st n v | .msg st n v => [.feed st, .feed n, .feed v]
  | .feedStatus b | .feedNote b | .feedVelocity b | .feed b => [.feed b]
  | .kickStep _ | .snareStep _ | .midTomStep _ | .highTomStep _ | .hiHatStep _ | .noStep _ _
  | .allocate _ | .release _ | .resetAll | .poll => []
  | .press k => [.press k]
  | .blockStart f => [.blockStart f]
  | .sample => [.sample]
  | .overrun => [.overrun]
  | .reset => [.reset]
  | .block f => .blockStart f :: List.replicate c.params.blockSize .sample
  | .panic => [.press 3]
  | .kickMsg => [.feed 0x90, .feed 60, .feed 100]
  | .snareMsg => [.feed 0x90, .feed 61, .feed 100]

/-- A finite run: `RESET`, from a state of which nothing is known, and then events, each enabled where
it is applied (R272, R285). -/
def IsRun (es : List Instr) (s t : State) : Prop :=
  es.head? = some .reset ∧ (∀ i ∈ es, isEvent i = true) ∧ execAll es s = .next t

/-- An infinite run: event `ev n` takes state `st n` to the next; the core never halts (R285). -/
def IsInfiniteRun (ev : Nat → Instr) (st : Nat → State) : Prop :=
  ev 0 = .reset ∧ ∀ n, isEvent (ev n) = true ∧ exec (ev n) (st n) = .next (st (n + 1))

/-- The block processor is never starved for ever: while a block is in progress a SAMPLE comes, unless
a RESET ends the block (R284). -/
def IsFair (ev : Nat → Instr) (st : Nat → State) : Prop :=
  ∀ n, (st n).busy = true → ∃ m, n ≤ m ∧ (ev m = .sample ∨ ev m = .reset)

/-- A run of the step in which inputs keep arriving: those of `arrive n` join the inbox before step `n`
(log 1). -/
def IsDriven (arrive : Nat → List Input) (st : Nat → State) : Prop :=
  ∀ n, step { st n with inbox := (st n).inbox ++ arrive n } = .next (st (n + 1))

/-- The two output buffers as the collaborator reads them, element by element (R276). -/
def blockOutput (c : Cfg) (s : State) : List (Num32 × Num32) :=
  (List.range c.params.blockSize).map fun j => (Buffer.read s.outL j, Buffer.read s.outR j)

/-- What one event adds to the audible result: the buffers as read when `busy` fell to false (R285,
log 27). DESIGN CHOICE: the first RESET of a run counts as such a fall when the undefined state before it
has `busy` set (log 30). -/
def audible (c : Cfg) (s t : State) : List (Num32 × Num32) :=
  if s.busy && !t.busy then blockOutput c t else []

/-- The audible result of a list of events: the concatenation of the buffers at each fall of `busy`
(R285). Where a first RESET takes a busy state, it begins with a block of `+0` (log 30). -/
def audibleResult : List Instr → State → List (Num32 × Num32)
  | [], _ => []
  | i :: rest, s =>
    match exec i s with
    | .next t => audible Config.cfg s t ++ audibleResult rest t
    | .fault _ => []
    | .refused _ => []

/-- The audible result of a trace, its abbreviations expanded to events first (R94, R285). -/
def traceAudible (is : List Instr) (s : State) : List (Num32 × Num32) :=
  audibleResult (is.flatMap (expand Config.cfg)) s

/-- The audible result of the first `n` events of an infinite run, the first RESET counted as in
`audible` (log 30). -/
def audibleUpTo (st : Nat → State) (n : Nat) : List (Num32 × Num32) :=
  (List.range n).flatMap fun k => audible Config.cfg (st k) (st (k + 1))

end Sys2Proof.Machine
end

