-- ==== Sys2Proof/Safety.lean ====
section
/-! DEFINITION. What a good state is, in the terms statements use: the fault predicate of R252, the
read window of R276, and the invariants the spec derives (R25, R27, R34, R38, R204, R207). -/

namespace Sys2Proof.Safety

open Sys2Proof.Machine

/-- A state with `OVERRUN = true` is faulted: what the core outputs from there on is defined, but the
host does not rely on it (R252, log 17). -/
def faulted (s : State) : Bool := s.overrun

/-- The collaborator may read the buffers: all elements belong to one block (R69, R276). -/
def readable (s : State) : Bool := !s.busy

/-- The decoder's flags (R27): none pending at a status byte, never both. -/
def FlagsOk (s : State) : Prop :=
  (s.phase = .expectStatus → s.noteStartFlag = false ∧ s.noteStopFlag = false)
    ∧ ¬(s.noteStartFlag = true ∧ s.noteStopFlag = true)

/-- The block sequencer (R25, R204): `i` within the block, and short of its end while it runs. -/
def SequencerOk (c : Cfg) (s : State) : Prop :=
  s.i ≤ c.params.blockSize ∧ (s.busy = true → s.i < c.params.blockSize)

/-- The output buffers (R38, R207): canonical, equal, and only elements that exist. -/
def BuffersOk (c : Cfg) (s : State) : Prop :=
  Memory.wf s = true ∧ s.outL = s.outR ∧ Buffer.within c.params.blockSize s.outL = true

/-- The counters (R34, R165, R166): a fundamental is within its threshold, SubKick goes with Kick, and
SubTom has counted no more than the two toms together. -/
def CountersOk (c : Cfg) (s : State) : Prop :=
  (∀ d, (s.layer (Drum.layer d)).cnt.toNat ≤ c.params.nthr d)
    ∧ (s.layer .subKick).cnt = (s.layer .kick).cnt
    ∧ (s.layer .subTom).cnt.toNat ≤ (s.layer .midTom).cnt.toNat + (s.layer .highTom).cnt.toNat

/-- The number of active slots (R127). -/
def activeCount (s : State) : Nat := (slotIndices.filter fun k => (s.slot k).active).length

/-- A slot that the mixer dispatches no step for: inactive, or holding no drum note (R209). -/
def Silent (p : Params) (v : Voice) : Prop := v.active = true → ∀ d, v.note ≠ p.note d

/-- The instructions an encoded input holds, one after another (at most `n`). -/
def drain (p : Params) (ph : Phase) : Nat → Raw → List Instr
  | 0, _ => []
  | n + 1, r =>
    match decode p ph r with
    | .ok (i, some q) => i :: drain p ph n (.ports q)
    | .ok (i, none) => [i]
    | .error _ => []

/-- `r` is a finite value nearest `q`, and one with an even fraction where another is as near (R182,
R184). -/
def NearestEven (q : ℚ) (r : Num32) : Prop :=
  r.isFinite = true ∧ ∀ y : Num32, y.isFinite = true →
    |r.toRat - q| ≤ |y.toRat - q|
      ∧ (|r.toRat - q| = |y.toRat - q| → y.toRat = r.toRat ∨ r.fracField % 2 = 0)

/-- Where rounding to nearest gives an infinity: half a unit in the last place above the greatest
finite value. -/
def overflowBound : ℚ := 2 ^ 128 - 2 ^ 103

/-- A quiet NaN: exponent all ones and the leading fraction bit set. -/
def QuietNaN (x : Num32) : Prop := x.isNaN = true ∧ x.getLsbD 22 = true

end Sys2Proof.Safety
end

