-- ==== Sys2Proof/Certificates/Slice0/Obligations.lean ====
section
/-! DEFINITION. The statements for the provers. Statements about the machine are about
`Config.cfg`, whose open values are opaque; statements that need a hypothesis on parameters or cores
quantify over them instead. -/

open Sys2Proof Sys2Proof.Machine Sys2Proof.Safety

/-! Encodings -/

/-- Decoding the encoding of a well-formed instruction gives the instruction back, with nothing left,
in every phase its encoding is read in (R83, R87, R88, R92 to R94). -/
def Obligations.DecodeEncodeRoundTrip : Prop :=
  ∀ (p : Params) (i : Instr) (ph : Phase) (r : Raw), p.valid = true → i.wf p = true →
    i.readIn ph = true → encode p i = some r → decode p ph r = .ok (i, none)

/-- Every 24-bit frame word is one of the three rows of R87, chosen by its bits 23:16, with the note
in bits 15:8 and the velocity in bits 7:0 (R81); the instruction is well formed and encodes to the
word. -/
def Obligations.FrameWordFieldsDecoded : Prop :=
  ∀ (p : Params) (ph : Phase) (w : FrameWord),
    let st := BitVec.ofNat 8 (w.toNat / 65536)
    let n := BitVec.ofNat 8 (w.toNat / 256)
    let v := BitVec.ofNat 8 w.toNat
    let i : Instr :=
      if w.toNat / 65536 = 0x90 then .noteOn n v
      else if w.toNat / 65536 = 0x80 then .noteOff n v
      else .ignore st n v
    decode p ph (.m3 w) = .ok (i, none) ∧ i.wf p = true ∧ encode p i = some (.m3 w)

/-- The note field of a slot decodes to the step of the drum it is assigned to, and to NOSTEP when it
is none of the five (R88, R89). -/
def Obligations.NoteSelectorDecoded : Prop :=
  ∀ (p : Params) (ph : Phase) (k : SlotIx), p.valid = true →
    (∀ d, decode p ph (.n8 k (p.note d)) = .ok (stepInstr k d, none))
    ∧ ∀ n, (∀ d, n ≠ p.note d) → decode p ph (.n8 k n) = .ok (.noStep k n, none)

/-- Words written out from the encodings of spec/30_encoding.md decode to the instructions they
stand for. -/
def Obligations.WrittenWordsDecode : Prop :=
  ∀ (p : Params) (ph : Phase),
    decode p ph (.m3 0x903D64#24) = .ok (.noteOn 61 100, none)
    ∧ decode p ph (.m3 0x803D00#24) = .ok (.noteOff 61 0, none)
    ∧ decode p ph (.m3 0xF00A14#24) = .ok (.ignore 0xF0 10 20, none)
    ∧ decode p ph (.n8 2 0x3C#8) = .ok (.kickStep 2, none)
    ∧ decode p ph (.n8 4 0x3D#8) = .ok (.snareStep 4, none)
    ∧ decode p .expectStatus (.b1 0x90#8) = .ok (.feedStatus 0x90, none)
    ∧ decode p .expectNote (.b1 0x90#8) = .ok (.feedNote 0x90, none)
    ∧ decode p .expectVelocity (.b1 0x90#8) = .ok (.feedVelocity 0x90, none)
    ∧ decode p ph (.ports ⟨false, false, true, 0x3C#8, 0#4, false, 0#32⟩) = .ok (.feed 60, none)
    ∧ decode p ph (.ports ⟨false, false, false, 0#8, 0b1000#4, false, 0#32⟩) = .ok (.press 3, none)
    ∧ decode p ph (.line ⟨.msg, [.nat 0xF0, .nat 10, .nat 20]⟩) = .ok (.msg 0xF0 10 20, none)
    ∧ decode p ph (.line ⟨.press, [.nat 2]⟩) = .ok (.press 2, none)

/-- The events of one clock of the ports come out in the order OVERRUN, FEED, PRESS, BLOCK_START
(R248), each of the set bits of `btn_set` one PRESS (R92). A clock with `rst` gives RESET alone: that
it drops the clock's other events is the model's reading of "overrides everything" (log 7). -/
def Obligations.ClockDrainedInOrder : Prop :=
  ∀ (p : Params) (ph : Phase) (q : Ports),
    drain p ph 7 (.ports q) =
      if q.rst then [.reset]
      else (if q.overrunHook then [.overrun] else [])
        ++ (if q.rxValid then [.feed q.rxByte] else [])
        ++ ([0, 1, 2, 3].filter fun k : Button => q.btnSet.getLsbD k.val).map .press
        ++ (if q.blkStart then [.blockStart q.fshiftIn] else [])

/-- A FEED or PRESS trace line with its operand out of range is rejected by the name of its first word (R93:
the operand of FEED is a byte, of PRESS 0 to 3); the rejection is the model's (log 12). -/
def Obligations.BadTraceLineRejected : Prop :=
  ∀ (p : Params) (ph : Phase) (n : Nat),
    (256 ≤ n → decode p ph (.line ⟨.feed, [.nat n]⟩) = .error (.badOperands .feed))
    ∧ (4 ≤ n → decode p ph (.line ⟨.press, [.nat n]⟩) = .error (.badOperands .press))

/-! The step -/

/-- When the head of the inbox, as the core sees it, decodes to an instruction, the step is that
instruction on the state whose inbox is what the input leaves, followed by the inputs after it; the
core sees the block-start port only while no block is in progress (R92). That the next event is the
head of the inbox is the model's schedule (log 1). -/
def Obligations.StepRunsDecodedInput : Prop :=
  ∀ (s : State) (x : Input) (rest : List Input) (i : Instr) (left : Option Ports),
    s.inbox = x :: rest → decode Config.params.params s.phase (seen s x) = .ok (i, left) →
    step s = exec i { s with inbox := left.toList.map .ports ++ rest }

/-- Without an instruction to run: an empty inbox gives the block processor its turn while a block is
in progress and otherwise leaves the state as it is (R12, R258, R284), which as a schedule is the
model's (log 1); a clock with no event is passed over, and a block start on the ports while busy is
none (R92); a line that is no instruction is refused, which is the model's (log 12). -/
def Obligations.StepWithoutInstruction : Prop :=
  (∀ s : State, s.inbox = [] → s.busy = true → step s = exec .sample s)
  ∧ (∀ s : State, s.inbox = [] → s.busy = false → step s = .next s)
  ∧ (∀ (s : State) (x : Input) (rest : List Input), s.inbox = x :: rest →
      decode Config.params.params s.phase (seen s x) = .error .noEvent →
      step s = .next { s with inbox := rest })
  ∧ (∀ (s : State) (f : Num32) (rest : List Input), s.busy = true →
      s.inbox = .ports { Ports.quiet with blkStart := true, fshiftIn := f } :: rest →
      step s = .next { s with inbox := rest })
  ∧ (∀ (s : State) (x : Input) (rest : List Input) (m : TraceName), s.inbox = x :: rest →
      decode Config.params.params s.phase (seen s x) = .error (.badOperands m) →
      step s = .refused (.undecodable (.badOperands m)))

/-- A placed table word is what the next step runs (log 2). A 24-bit frame word runs as an input. A
note selector of Kick or Snare runs as the one STEP of the next SAMPLE, for slot 0 (R140): the layers
and the draws end as that STEP leaves them, and its value goes weighted into the drum's
accumulator. -/
def Obligations.PlacedWordRuns : Prop :=
  ∀ s : State,
    (∀ w < 2 ^ 24, ∃ i, decodeTableWord 24 w = some i
      ∧ step (s.withFetchWord 24 w) = exec i { s with inbox := [] })
    ∧ ∀ d w, (d = .kick ∧ w = 60 ∨ d = .snare ∧ w = 61) →
      decodeTableWord 8 w = some (stepInstr 0 d)
      ∧ ∃ u t y, exec (stepInstr 0 d) (s.withFetchWord 8 w) = .next u ∧ u.result = .value y
        ∧ step (s.withFetchWord 8 w) = exec .sample (s.withFetchWord 8 w)
        ∧ exec .sample (s.withFetchWord 8 w) = .next t
        ∧ t.layers = u.layers ∧ t.noiseIx = u.noiseIx
        ∧ t.accOf d = Num32.fadd Num32.posZero (Num32.fmul (Num32.ofNat 2) y)

/-! The decoder -/

/-- FEED.STATUS assigns both flags and advances the phase, signals UnsupportedStatus for any other
value, and changes nothing else (R101). -/
def Obligations.StatusByteAssignsFlags : Prop :=
  ∀ (b : Byte) (s : State),
    exec (.feedStatus b) s = .next { s with
      noteStartFlag := decide (b = 0x90), noteStopFlag := decide (b = 0x80), phase := .expectNote }
    ∧ signals (.feedStatus b) s =
        if b = 0x90 ∨ b = 0x80 then [] else [.unsupportedStatus b]

/-- FEED.NOTE stores the byte whatever its value, advances the phase, signals nothing and changes
nothing else (R102). -/
def Obligations.NoteByteStored : Prop :=
  ∀ (b : Byte) (s : State),
    exec (.feedNote b) s = .next { s with pendingNote := b, phase := .expectVelocity }
    ∧ signals (.feedNote b) s = []

/-- FEED.VELOCITY, whatever its byte: with the start flag it runs ALLOCATE on the pending note and
clears the flag, else with the stop flag RELEASE likewise, else only the phase changes; the condition
signalled is that of the pool operation (R103). -/
def Obligations.VelocityByteActs : Prop :=
  ∀ (b : Byte) (s : State),
    exec (.feedVelocity b) s = .next
      (if s.noteStartFlag then { s with
          phase := .expectStatus, noteStartFlag := false
          slots := (allocate s.pendingNote s).1.slots }
        else if s.noteStopFlag then { s with
          phase := .expectStatus, noteStopFlag := false
          slots := (release s.pendingNote s).1.slots }
        else { s with phase := .expectStatus })
    ∧ signals (.feedVelocity b) s =
      if s.noteStartFlag then
        (if (allocate s.pendingNote s).2 then [] else [.poolExhausted s.pendingNote])
      else if s.noteStopFlag then
        (if (release s.pendingNote s).2 then [] else [.unmatchedNoteOff s.pendingNote])
      else []

/-- FEED completes in every state for every byte, as the phase's rule (R100), advances the phase by
one position (R24), touches the decoder and at most one slot (R107), and signals what the phase's rule
signals, at most one condition (R248). -/
def Obligations.FeedCompletesAndFrames : Prop :=
  ∀ (b : Byte) (s : State), ∃ t,
    let i : Instr := match s.phase with
      | .expectStatus => .feedStatus b
      | .expectNote => .feedNote b
      | .expectVelocity => .feedVelocity b
    exec (.feed b) s = .next t
    ∧ exec i s = .next t
    ∧ t.phase = s.phase.succ
    ∧ t = { s with
        phase := t.phase, noteStartFlag := t.noteStartFlag, noteStopFlag := t.noteStopFlag
        pendingNote := t.pendingNote, slots := t.slots }
    ∧ (∃ k, ∀ q, q ≠ k → t.slot q = s.slot q)
    ∧ signals (.feed b) s = signals i s ∧ (signals (.feed b) s).length ≤ 1

/-- NOTE_ON fed at a frame boundary stores the note and allocates; the decoder ends as it began, and
PoolExhausted is signalled exactly when no slot is free (R104). -/
def Obligations.NoteOnMessage : Prop :=
  ∀ (n v : Byte) (s : State), s.phase = .expectStatus → FlagsOk s →
    exec (.noteOn n v) s = .next { s with
      pendingNote := n, slots := (allocate n s).1.slots }
    ∧ signals (.noteOn n v) s = if (allocate n s).2 then [] else [.poolExhausted n]

/-- NOTE_OFF fed at a frame boundary stores the note and releases; UnmatchedNoteOff is signalled
exactly when no active slot holds it (R105). -/
def Obligations.NoteOffMessage : Prop :=
  ∀ (n v : Byte) (s : State), s.phase = .expectStatus → FlagsOk s →
    exec (.noteOff n v) s = .next { s with
      pendingNote := n, slots := (release n s).1.slots }
    ∧ signals (.noteOff n v) s = if (release n s).2 then [] else [.unmatchedNoteOff n]

/-- IGNORE fed at a frame boundary stores the note and changes nothing else; UnsupportedStatus is
signalled (R106). -/
def Obligations.IgnoredMessage : Prop :=
  ∀ (st n v : Byte) (s : State), st ≠ 0x90 → st ≠ 0x80 → s.phase = .expectStatus → FlagsOk s →
    exec (.ignore st n v) s = .next { s with pendingNote := n }
    ∧ signals (.ignore st n v) s = [.unsupportedStatus st]

/-- In every phase a message of any form completes, and is its three FEEDs in stream order (R61, R94,
R104 to R106): the M3 rows, MSG, NOTEON, NOTEOFF, KICK and SNARE. It signals what the three FEEDs
signal, in order. -/
def Obligations.MessagesAreThreeFeeds : Prop :=
  ∀ (st n v : Byte) (s : State), ∃ a b t,
    exec (.feed st) s = .next a ∧ exec (.feed n) a = .next b ∧ exec (.feed v) b = .next t
    ∧ (let is : Instr → Prop := fun i => exec i s = .next t
          ∧ signals i s = signals (.feed st) s ++ signals (.feed n) a ++ signals (.feed v) b
       is (.msg st n v) ∧ is (.ignore st n v)
       ∧ (st = 0x90 → is (.noteOn n v) ∧ is (.noteonMsg n v))
       ∧ (st = 0x80 → is (.noteOff n v) ∧ is (.noteoffMsg n v))
       ∧ (st = 0x90 → n = 60 → v = 100 → is .kickMsg)
       ∧ (st = 0x90 → n = 61 → v = 100 → is .snareMsg))

/-- Any byte string completes, and the phase after it is the phase before it moved on by one position
a byte, whatever the bytes are: framing is by counting to three alone (R24, R62, R108). -/
def Obligations.PhaseCountsBytes : Prop :=
  ∀ (bs : List Byte) (s : State), ∃ t,
    execAll (bs.map .feed) s = .next t ∧ t.phase = Phase.succ^[bs.length] s.phase
    ∧ (bs.length % 3 = 0 → t.phase = s.phase)

/-! The voice pool -/

/-- ALLOCATE claims the first inactive slot and answers true; with every slot active it changes
nothing, answers false and signals PoolExhausted (R121). The answer stands in `result` (log 4). -/
def Obligations.AllocateClaimsFirstFree : Prop :=
  ∀ (n : Byte) (s : State),
    (∀ k, (s.slot k).active = false → (∀ q < k, (s.slot q).active = true) →
      exec (.allocate n) s = .next { s.setSlot k n true with result := .flag true }
      ∧ signals (.allocate n) s = [])
    ∧ ((∀ q, (s.slot q).active = true) →
      exec (.allocate n) s = .next { s with result := .flag false }
      ∧ signals (.allocate n) s = [.poolExhausted n])

/-- RELEASE makes the first active slot that holds the note inactive, its note kept, and answers true;
with no such slot it changes nothing, answers false and signals UnmatchedNoteOff (R123). The answer
stands in `result` (log 4). -/
def Obligations.ReleaseFreesFirstHolding : Prop :=
  ∀ (n : Byte) (s : State),
    (∀ k, s.slot k = ⟨n, true⟩ → (∀ q < k, s.slot q ≠ ⟨n, true⟩) →
      exec (.release n) s = .next { s.setSlot k n false with result := .flag true }
      ∧ signals (.release n) s = [])
    ∧ ((∀ q, s.slot q ≠ ⟨n, true⟩) →
      exec (.release n) s = .next { s with result := .flag false }
      ∧ signals (.release n) s = [.unmatchedNoteOff n])

/-- ALLOCATE then RELEASE of a note that no active slot held: the first inactive slot ends inactive
with that note, every other slot is as before, so the active bits are what they were; on a full pool
the pair changes no slot (R126). -/
def Obligations.AllocateReleasePair : Prop :=
  ∀ (n : Byte) (s : State), (∀ q, s.slot q ≠ ⟨n, true⟩) → ∃ t,
    execAll [.allocate n, .release n] s = .next t
    ∧ (∀ q, (t.slot q).active = (s.slot q).active)
    ∧ (∀ k, (s.slot k).active = false → (∀ q < k, (s.slot q).active = true) →
      t.slot k = ⟨n, false⟩ ∧ ∀ q, q ≠ k → t.slot q = s.slot q)
    ∧ ((∀ q, (s.slot q).active = true) → t.slots = s.slots)

/-- At most five voices are active, and a NOTE_ON that finds all five active changes no slot: only
`pendingNote` moves and PoolExhausted is signalled (R127, R241). -/
def Obligations.PoolCapacity : Prop :=
  ∀ (n v : Byte) (s : State), activeCount s ≤ 5
    ∧ (activeCount s = 5 → s.phase = .expectStatus → FlagsOk s →
      exec (.noteOn n v) s = .next { s with pendingNote := n }
      ∧ signals (.noteOn n v) s = [.poolExhausted n])

/-- RESET_ALL makes every slot inactive with its note kept, zeroes the five accumulators and writes
nothing else (R125). -/
def Obligations.ResetAllSilences : Prop :=
  ∀ s : State, ∃ t, exec .resetAll s = .next t
    ∧ (∀ k, t.slot k = ⟨(s.slot k).note, false⟩)
    ∧ (∀ d, t.accOf d = Num32.posZero)
    ∧ t = { s with slots := t.slots, acc := t.acc }

/-! The synthesis steps -/

/-- KICK.STEP, MIDTOM.STEP and HIGHTOM.STEP: the drum's layer and its transient layer take the `amp`
and `idx` of their waveforms, the burst is added while its own time is below the window, both counters
advance; past the threshold a held drum starts both counters again and keeps the value, and a released
one gives zero and leaves its slot inactive. Nothing else changes; the value returned stands in
`result` (R160 to R163, R166, R172, R174, R175, log 4). -/
def Obligations.TransientDrumStep : Prop :=
  ∀ (d : Drum) (T : Layer) (win : ℚ) (k : SlotIx) (s : State),
    (d = .kick ∧ T = .subKick ∧ win = Config.cfg.params.subWinKick
      ∨ d = .midTom ∧ T = .subTom ∧ win = Config.cfg.params.subWinTom
      ∨ d = .highTom ∧ T = .subTom ∧ win = Config.cfg.params.subWinTom) →
    let N := Config.cfg.num
    let P := Config.cfg.params
    let l := s.layer d.layer
    let lT := s.layer T
    let o := layerOut N P d.layer s.var l.fshift l.cnt.toNat
    let oT := layerOut N P T s.var lT.fshift lT.cnt.toNat
    let y := if N.flt (elapsed N P lT.cnt.toNat) (N.ofRat win) then N.fadd o.out oT.out else o.out
    let after := fun (a b : BitVec 32) (r : Num32) =>
      { (s.setLayer d.layer ⟨a, o.amp, o.idx, l.fshift⟩).setLayer T ⟨b, oT.amp, oT.idx, lT.fshift⟩ with
        result := .value r }
    exec (stepInstr k d) s = .next
      (if (l.cnt + 1).toNat ≤ P.nthr d then after (l.cnt + 1) (lT.cnt + 1) y
        else if (s.slot k).active then after 0 0 y
        else after (l.cnt + 1) (lT.cnt + 1) Num32.posZero)

/-- SNARE.STEP and HIHAT.STEP: the drum's layer takes the `amp` and `idx` of its waveform, one fresh
draw within -1 to 1 times gain times the amplitude just written is added, the counter advances; past
the threshold a held drum starts it again and keeps the value, and a released one gives zero. Nothing
else changes; the value returned stands in `result` (R160 to R163, R168, R173, R176, logs 3 and 4). -/
def Obligations.NoiseDrumStep : Prop :=
  ∀ (d : Drum) (gain : ℚ) (k : SlotIx) (s : State),
    (d = .snare ∧ gain = Config.cfg.params.noiseGainSnare
      ∨ d = .hiHat ∧ gain = Config.cfg.params.noiseGainHiHat) →
    let N := Config.cfg.num
    let P := Config.cfg.params
    let l := s.layer d.layer
    let o := layerOut N P d.layer s.var l.fshift l.cnt.toNat
    let nz := Config.cfg.draw s.noiseIx
    let y := N.fadd o.out (N.fmul (N.fmul (N.ofRat gain) o.amp) nz)
    let after := fun (a : BitVec 32) (r : Num32) =>
      { s.setLayer d.layer ⟨a, o.amp, o.idx, l.fshift⟩ with
        noiseIx := s.noiseIx + 1, result := .value r }
    (N.fle (N.fneg (N.ofNat 1)) nz = true ∧ N.fle nz (N.ofNat 1) = true)
    ∧ exec (stepInstr k d) s = .next
      (if (l.cnt + 1).toNat ≤ P.nthr d then after (l.cnt + 1) y
        else if (s.slot k).active then after 0 y
        else after (l.cnt + 1) Num32.posZero)

/-- NOSTEP writes nothing (R89, R209). -/
def Obligations.NoStepWritesNothing : Prop :=
  ∀ (k : SlotIx) (n : Byte) (s : State),
    exec (.noStep k n) s = .next s ∧ signals (.noStep k n) s = []

/-- Both toms step the one SubTom layer: a MidTom step and then a HighTom step, neither at its
boundary, advance its counter by two, and the second evaluates the burst one count on (R167). -/
def Obligations.SharedSubTom : Prop :=
  ∀ (j k : SlotIx) (s : State),
    ((s.layer .midTom).cnt + 1).toNat ≤ Config.cfg.params.nthr .midTom →
    ((s.layer .highTom).cnt + 1).toNat ≤ Config.cfg.params.nthr .highTom →
    ∃ u t, exec (.midTomStep j) s = .next u ∧ exec (.highTomStep k) u = .next t
      ∧ (t.layer .subTom).cnt = (s.layer .subTom).cnt + 2
      ∧ (t.layer .subTom).amp = (layerOut Config.cfg.num Config.cfg.params .subTom s.var
          (s.layer .subTom).fshift ((s.layer .subTom).cnt + 1).toNat).amp
      ∧ (t.layer .midTom).cnt = (s.layer .midTom).cnt + 1
      ∧ (t.layer .highTom).cnt = (s.layer .highTom).cnt + 1

/-- Counters are moved by synthesis and RESET alone: no message, pool operation, control, hook or
block start touches one, so a released drum's counter stays where it stopped (R34, R170, R226). -/
def Obligations.CountersMovedOnlyBySynthesis : Prop :=
  ∀ (i : Instr) (s t : State), (∀ k d, i ≠ stepInstr k d) → i ≠ .sample → i ≠ .reset →
    (∀ f, i ≠ .block f) → exec i s = .next t → ∀ L, (t.layer L).cnt = (s.layer L).cnt

/-- At count zero a layer's amplitude is `+0`, and the value it returns is a zero whenever the
argument of its carrier's sine is finite (R154, log 14). -/
def Obligations.LayerSilentAtCountZero : Prop :=
  ∀ (p : Params) (sin : SineCore) (exp : ExpCore) (L : Layer) (var : Vector (BitVec 2) 3)
    (fshift : Num32), p.valid = true →
    let N := binary32 sin.fn exp.fn
    let o := layerOut N p L var fshift 0
    let k := freqScale N L fshift
    let t := elapsed N p 0
    o.amp = Num32.posZero
    ∧ ((N.fadd (oscPhase N (p.layer L).fc k t)
          (N.fmul o.idx (N.SIN (oscPhase N (p.layer L).fm k t)))).isFinite = true →
        o.out.isZero = true)

/-- An infinite or NaN frequency shift makes every value of a shifted layer a NaN, at every count
(R189, R288). -/
def Obligations.NonFiniteShiftGivesNaN : Prop :=
  ∀ (p : Params) (sin : SineCore) (exp : ExpCore) (L : Layer) (var : Vector (BitVec 2) 3)
    (fshift : Num32) (n : Nat), L ≠ .hiHat → fshift.isFinite = false →
    (layerOut (binary32 sin.fn exp.fn) p L var fshift n).out.isNaN = true

/-! The block processor -/

/-- BLOCK_START with no block in progress copies the shift into all seven layers, runs POLL, sets
`busy` and zeroes `i`; while a block is in progress it is refused (R202). -/
def Obligations.BlockStartLatchesAndPolls : Prop :=
  ∀ (f : Num32) (s : State),
    (s.busy = true → exec (.blockStart f) s = .refused .blockStartWhileBusy)
    ∧ (s.busy = false → ∃ a t,
      (∀ L, a.layer L = { s.layer L with fshift := f })
      ∧ a = { s with layers := a.layers }
      ∧ exec .poll a = .next t
      ∧ exec (.blockStart f) s = .next { t with busy := true, i := 0 })

/-- SAMPLE with a block in progress writes the left-to-right sum of the accumulators to element `i` of
both channels and to no other element, advances `i`, ends the block at its last element, and leaves
the pool, the decoder, the controls, the shifts and the overrun flag alone; with no block in progress
it is refused (R204, R206, R207, R210). -/
def Obligations.SampleWritesOneElement : Prop :=
  (∀ s : State, s.busy = false → exec .sample s = .refused .sampleWhileIdle)
  ∧ ∀ s : State, s.busy = true → s.i < Config.cfg.params.blockSize → Memory.wf s = true →
    ∃ t, exec .sample s = .next t
      ∧ (let N := Config.cfg.num
         let m := N.fadd (N.fadd (N.fadd (N.fadd (t.accOf .kick) (t.accOf .snare))
            (t.accOf .midTom)) (t.accOf .highTom)) (t.accOf .hiHat)
         Buffer.read t.outL s.i = m ∧ Buffer.read t.outR s.i = m)
      ∧ (∀ j, j ≠ s.i → Buffer.read t.outL j = Buffer.read s.outL j
          ∧ Buffer.read t.outR j = Buffer.read s.outR j)
      ∧ t.i = s.i + 1 ∧ t.busy = decide (s.i + 1 ≠ Config.cfg.params.blockSize)
      ∧ (∀ L, (t.layer L).fshift = (s.layer L).fshift)
      ∧ t = { s with
          layers := t.layers, acc := t.acc, noiseIx := t.noiseIx, outL := t.outL, outR := t.outR
          i := t.i, busy := t.busy }

/-- A SAMPLE in which no slot dispatches a step gives `+0` accumulators and `+0` on both channels, and
touches no layer and takes no draw (R209). -/
def Obligations.SilentSampleWritesZero : Prop :=
  ∀ s : State, s.busy = true → s.i < Config.cfg.params.blockSize → Memory.wf s = true →
    (∀ k, Silent Config.cfg.params (s.slot k)) →
    ∃ t, exec .sample s = .next t
      ∧ (∀ d, t.accOf d = Num32.posZero)
      ∧ Buffer.read t.outL s.i = Num32.posZero ∧ Buffer.read t.outR s.i = Num32.posZero
      ∧ t.layers = s.layers ∧ t.noiseIx = s.noiseIx

/-- A SAMPLE scans the slots in ascending order from `+0` accumulators (R204): a silent slot leaves all
as it is, and a slot that holds a drum's note runs that drum's STEP on what the slots before it left
and adds the value, times 2 for Kick and Snare and 1 for the others, to that drum's accumulator
(R205). Any slots may sound, of one drum or of several. -/
def Obligations.SampleScansSlots : Prop :=
  ∀ s : State, s.busy = true → s.i < Config.cfg.params.blockSize →
    ∃ (u : Nat → State) (t : State), exec .sample s = .next t
      ∧ u 0 = { s with acc := (u 0).acc } ∧ (∀ d, (u 0).accOf d = Num32.posZero)
      ∧ (∀ k : SlotIx, Silent Config.cfg.params (s.slot k) → u (k.val + 1) = u k.val)
      ∧ (∀ (k : SlotIx) (d : Drum), s.slot k = ⟨Config.cfg.params.note d, true⟩ →
        ∃ v y, exec (stepInstr k d) (u k.val) = .next v ∧ v.result = .value y
          ∧ u (k.val + 1) = { u k.val with
              layers := v.layers, noiseIx := v.noiseIx, acc := (u (k.val + 1)).acc }
          ∧ ∀ e, (u (k.val + 1)).accOf e =
              if e = d then Num32.fadd ((u k.val).accOf d)
                (Num32.fmul (Num32.ofNat (if d = .kick ∨ d = .snare then 2 else 1)) y)
              else (u k.val).accOf e)
      ∧ t.layers = (u 5).layers ∧ t.acc = (u 5).acc ∧ t.noiseIx = (u 5).noiseIx

/-- A SAMPLE in which one slot alone dispatches: the layers end as that drum's STEP leaves them, and
its accumulator holds the step's value times 2 for Kick and Snare and 1 for the others, added to `+0`;
the other accumulators are `+0` (R204, R205). A SAMPLE in which two slots dispatch, of drums `d` and
`e`, runs the STEP of the lower slot and then that of the higher. For one drum both weighted values go
into its one accumulator (R169, R208, R278); for two drums each goes into its own (R204). The other
accumulators are `+0`. -/
def Obligations.OneOrTwoSlotsSound : Prop :=
  (∀ (d : Drum) (k : SlotIx) (s : State), s.busy = true → s.i < Config.cfg.params.blockSize →
    s.slot k = ⟨Config.cfg.params.note d, true⟩ →
    (∀ q, q ≠ k → Silent Config.cfg.params (s.slot q)) →
    ∃ u t y, exec (stepInstr k d) s = .next u ∧ u.result = .value y
      ∧ exec .sample s = .next t
      ∧ t.layers = u.layers ∧ t.noiseIx = u.noiseIx
      ∧ (let w := if d = .kick ∨ d = .snare then 2 else 1
         t.accOf d = Num32.fadd Num32.posZero (Num32.fmul (Num32.ofNat w) y))
      ∧ ∀ e, e ≠ d → t.accOf e = Num32.posZero)
  ∧ ∀ (d e : Drum) (j k : SlotIx) (s : State), j < k → s.busy = true →
    s.i < Config.cfg.params.blockSize →
    s.slot j = ⟨Config.cfg.params.note d, true⟩ → s.slot k = ⟨Config.cfg.params.note e, true⟩ →
    (∀ q, q ≠ j → q ≠ k → Silent Config.cfg.params (s.slot q)) →
    ∃ u v t y z, exec (stepInstr j d) s = .next u ∧ u.result = .value y
      ∧ exec (stepInstr k e) u = .next v ∧ v.result = .value z
      ∧ exec .sample s = .next t ∧ t.layers = v.layers ∧ t.noiseIx = v.noiseIx
      ∧ (let w := fun d : Drum => Num32.ofNat (if d = .kick ∨ d = .snare then 2 else 1)
         let a := Num32.fadd Num32.posZero (Num32.fmul (w d) y)
         if d = e then t.accOf d = Num32.fadd a (Num32.fmul (w e) z)
         else t.accOf d = a ∧ t.accOf e = Num32.fadd Num32.posZero (Num32.fmul (w e) z))
      ∧ ∀ g, g ≠ d → g ≠ e → t.accOf g = Num32.posZero

/-- BLOCK with no block in progress completes: it is BLOCK_START and then BLOCK_SIZE times SAMPLE, it
ends with the block done, and leaves the decoder, the latched shift and the overrun flag as
BLOCK_START leaves them (R94, R210, R211); while a block is in progress it is refused, as the
BLOCK_START it begins with is (R202, log 16). -/
def Obligations.BlockRunsToItsEnd : Prop :=
  ∀ (f : Num32) (s : State),
    (s.busy = true → exec (.block f) s = .refused .blockStartWhileBusy)
    ∧ (s.busy = false → ∃ t,
      exec (.block f) s = .next t
      ∧ execAll (.blockStart f :: List.replicate Config.cfg.params.blockSize .sample) s = .next t
      ∧ t.busy = false ∧ t.i = Config.cfg.params.blockSize
      ∧ (∀ L, (t.layer L).fshift = f)
      ∧ t.phase = s.phase ∧ t.noteStartFlag = s.noteStartFlag
      ∧ t.noteStopFlag = s.noteStopFlag ∧ t.pendingNote = s.pendingNote
      ∧ t.overrun = s.overrun ∧ (∀ b, t.btn.get b = false)
      ∧ (∀ k, (t.slot k).note = (s.slot k).note))

/-! The controls -/

/-- PRESS sets its flag and nothing else, in every state; a second press changes nothing; PANIC is
PRESS 3 (R221, R222, R94). -/
def Obligations.PressSetsFlag : Prop :=
  ∀ (k : Button) (s : State), ∃ t, exec (.press k) s = .next t
    ∧ (∀ q, t.btn.get q = if q = k then true else s.btn.get q)
    ∧ t = { s with btn := t.btn }
    ∧ exec (.press k) t = .next t
    ∧ (k = 3 → exec .panic s = .next t)

/-- POLL moves each variant counter whose button was pressed one on, modulo four, on panic makes every
slot inactive and zeroes the accumulators, leaves no flag set, and writes nothing else (R223,
R226). -/
def Obligations.PollConsumesFlags : Prop :=
  ∀ s : State, ∃ t, exec .poll s = .next t
    ∧ (∀ v : VarIx, (t.var.get v).toNat =
        if s.btn.get (v.castLE (by decide)) then ((s.var.get v).toNat + 1) % 4
        else (s.var.get v).toNat)
    ∧ (∀ b, t.btn.get b = false)
    ∧ (∀ k, t.slot k = ⟨(s.slot k).note, (s.slot k).active && !s.btn.get 3⟩)
    ∧ (∀ d, t.accOf d = if s.btn.get 3 then Num32.posZero else s.accOf d)
    ∧ t = { s with var := t.var, btn := t.btn, slots := t.slots, acc := t.acc }

/-- After a panic the next BLOCK_START leaves every slot inactive, and the first SAMPLE after it zeroes
the accumulators and writes `+0` to both channels, whatever the state before (R224). -/
def Obligations.PanicSilencesNextBlock : Prop :=
  ∀ (f : Num32) (s : State), s.busy = false → Memory.wf s = true →
    ∃ a b t, exec .panic s = .next a ∧ exec (.blockStart f) a = .next b
      ∧ (∀ k, (b.slot k).active = false)
      ∧ exec .sample b = .next t
      ∧ (∀ d, t.accOf d = Num32.posZero)
      ∧ Buffer.read t.outL 0 = Num32.posZero ∧ Buffer.read t.outR 0 = Num32.posZero
      ∧ ∀ L, (t.layer L).cnt = (s.layer L).cnt

/-! The hook and reset -/

/-- OVERRUN sets the sticky flag in every state and touches nothing else; it signals BlockOverrun
(R252, R244). -/
def Obligations.OverrunSetsFlag : Prop :=
  ∀ s : State, ∃ t, exec .overrun s = .next t ∧ faulted t = true
    ∧ t = { s with overrun := true } ∧ signals .overrun s = [.blockOverrun]

/-- The overrun flag is set by OVERRUN and cleared by RESET, and by nothing else (R30, R253). -/
def Obligations.OverrunClearedOnlyByReset : Prop :=
  (∀ s, ∃ t, exec .reset s = .next t ∧ t.overrun = false)
  ∧ ∀ (i : Instr) (s t : State), i ≠ .reset → exec i s = .next t →
    (t.overrun = true ↔ s.overrun = true ∨ i = .overrun)

/-- RESET, in every state, gives every element of the state the value of the table of R42 (R270). -/
def Obligations.ResetWritesTable : Prop :=
  ∀ s : State, ∃ t, exec .reset s = .next t
    ∧ (∀ k, t.slot k = ⟨0, false⟩) ∧ t.phase = .expectStatus
    ∧ t.noteStartFlag = false ∧ t.noteStopFlag = false ∧ t.pendingNote = 0
    ∧ (∀ v, t.var.get v = 0) ∧ (∀ b, t.btn.get b = false)
    ∧ (∀ L, t.layer L = ⟨0, Num32.ofNat 0, Num32.ofNat 0, Num32.ofNat 1⟩)
    ∧ (∀ d, t.accOf d = Num32.ofNat 0) ∧ t.busy = false ∧ t.i = 0
    ∧ (∀ j, Buffer.read t.outL j = Num32.ofNat 0 ∧ Buffer.read t.outR j = Num32.ofNat 0)
    ∧ t.overrun = false

/-! Rules about all instructions -/

/-- No synthesis step, internal operation, control, hook or block-processor event writes decoder state:
it is written by FEED (R24, R26, R28, R108) and by RESET (R42), which are not among them. -/
def Obligations.DecoderKeptByOtherEvents : Prop :=
  ∀ (i : Instr) (s t : State),
    (i.format = .n8 ∨ i.format = .int ∨ (∃ k, i = .press k) ∨ (∃ f, i = .blockStart f)
      ∨ i = .sample ∨ i = .overrun ∨ (∃ f, i = .block f) ∨ i = .panic) →
    exec i s = .next t →
    t.phase = s.phase ∧ t.noteStartFlag = s.noteStartFlag ∧ t.noteStopFlag = s.noteStopFlag
      ∧ t.pendingNote = s.pendingNote

/-- No instruction reads or writes the inbox: what an instruction does is the same whatever inputs
wait behind it. The inbox is the model's own field (log 1). -/
def Obligations.InboxNeitherReadNorWritten : Prop :=
  ∀ (i : Instr) (s : State) (q : List Input),
    exec i { s with inbox := q } =
      match exec i s with
      | .next t => .next { t with inbox := q }
      | .fault r => .fault r
      | .refused r => .refused r

/-- In a state whose sequencer is within its block every instruction completes but two kinds, which stop
only where the spec refuses them: BLOCK_START and BLOCK while a block is in progress, SAMPLE while none is
(R202, R204, R254); and no step faults. -/
def Obligations.OnlyBlockEventsStop : Prop :=
  ∀ s : State, SequencerOk Config.cfg s →
    (∀ i : Instr, (∃ t, exec i s = .next t)
      ∨ (s.busy = true ∧ ((∃ f, i = .blockStart f) ∨ ∃ f, i = .block f)
          ∧ exec i s = .refused .blockStartWhileBusy)
      ∨ (s.busy = false ∧ i = .sample ∧ exec i s = .refused .sampleWhileIdle))
    ∧ ∀ r, step s ≠ .fault r

/-- No condition but the four (R245): an instruction that is no FEED, message, pool operation or OVERRUN
signals none, ALLOCATE, RELEASE and OVERRUN none but their own, and every event of R12 at most one
(R248). -/
def Obligations.OtherInstructionsSignalNothing : Prop :=
  ∀ (i : Instr) (s : State),
    (i.format = .n8 ∨ i = .resetAll ∨ i = .poll ∨ (∃ k, i = .press k) ∨ (∃ f, i = .blockStart f)
      ∨ i = .sample ∨ i = .reset ∨ (∃ f, i = .block f) ∨ i = .panic → signals i s = [])
    ∧ (∀ n, i = .allocate n → signals i s = [] ∨ signals i s = [.poolExhausted n])
    ∧ (∀ n, i = .release n → signals i s = [] ∨ signals i s = [.unmatchedNoteOff n])
    ∧ (i = .overrun → signals i s = [.blockOverrun])
    ∧ (isEvent i = true → (signals i s).length ≤ 1)

/-! Invariants of the step -/

/-- Every step keeps the decoder's flags as R27 has them. -/
def Obligations.StepKeepsFlags : Prop :=
  ∀ s t : State, FlagsOk s → step s = .next t → FlagsOk t

/-- Every step keeps the block sequencer within its block (R25, R204). -/
def Obligations.StepKeepsSequencer : Prop :=
  ∀ s t : State, SequencerOk Config.cfg s → step s = .next t → SequencerOk Config.cfg t

/-- Every step that starts from an in-range sequencer keeps the output buffers canonical, equal to one
another and within the block (R38, R64, R207). -/
def Obligations.StepKeepsBuffers : Prop :=
  ∀ s t : State, SequencerOk Config.cfg s → BuffersOk Config.cfg s → step s = .next t →
    BuffersOk Config.cfg t

/-- Every step keeps every fundamental's counter within its threshold, SubKick's equal to Kick's, and
SubTom's no more than the two toms' together, hence within the bound of R34 (R34, R165, R166). -/
def Obligations.StepKeepsCounters : Prop :=
  ∀ s t : State, CountersOk Config.cfg s → step s = .next t →
    CountersOk Config.cfg t
    ∧ (t.layer .subTom).cnt.toNat ≤
        Config.cfg.params.nthr .midTom + Config.cfg.params.nthr .highTom + 2

/-- The state after reset meets every invariant. -/
def Obligations.ResetMeetsInvariants : Prop :=
  FlagsOk State.reset ∧ SequencerOk Config.cfg State.reset ∧ BuffersOk Config.cfg State.reset
    ∧ CountersOk Config.cfg State.reset

/-! Numerics -/

/-- `ofRat` rounds to the nearest value, ties to even, and gives an infinity of the right sign from
the overflow bound on (R182, R184). -/
def Obligations.RationalRoundedToNearestEven : Prop :=
  ∀ q : ℚ,
    (|q| < overflowBound → NearestEven q (Num32.ofRat q))
    ∧ (overflowBound ≤ |q| →
      (Num32.ofRat q).isInf = true ∧ (Num32.ofRat q).sign = decide (q < 0))

/-- The four operations on finite operands give the value nearest the exact result, ties to even, as
long as that result is below the overflow bound, and from there on an infinity of its sign (R182). -/
def Obligations.ArithmeticRoundedToNearestEven : Prop :=
  ∀ a b : Num32, a.isFinite = true → b.isFinite = true →
    let rounds := fun (q : ℚ) (r : Num32) =>
      (|q| < overflowBound → NearestEven q r)
      ∧ (overflowBound ≤ |q| → r.isInf = true ∧ r.sign = decide (q < 0))
    rounds (a.toRat + b.toRat) (Num32.fadd a b)
    ∧ rounds (a.toRat - b.toRat) (Num32.fsub a b)
    ∧ rounds (a.toRat * b.toRat) (Num32.fmul a b)
    ∧ (b.toRat ≠ 0 → rounds (a.toRat / b.toRat) (Num32.fdiv a b))

/-- An operation with a NaN operand, and each invalid operation (opposite infinities added, zero times
infinity, zero over zero, infinity over infinity), gives a quiet NaN, whatever its open bits (R182,
log 9). -/
def Obligations.InvalidOperationsGiveQuietNaN : Prop :=
  ∀ a b : Num32,
    (a.isNaN = true ∨ b.isNaN = true →
      QuietNaN (Num32.fadd a b) ∧ QuietNaN (Num32.fsub a b) ∧ QuietNaN (Num32.fmul a b)
        ∧ QuietNaN (Num32.fdiv a b))
    ∧ (a.isInf = true → b.isInf = true → a.sign ≠ b.sign → QuietNaN (Num32.fadd a b))
    ∧ (a.isInf = true → b.isInf = true → a.sign = b.sign → QuietNaN (Num32.fsub a b))
    ∧ (a.isZero = true → b.isInf = true → QuietNaN (Num32.fmul a b) ∧ QuietNaN (Num32.fmul b a))
    ∧ (a.isZero = true → b.isZero = true → QuietNaN (Num32.fdiv a b))
    ∧ (a.isInf = true → b.isInf = true → QuietNaN (Num32.fdiv a b))

/-- `ofNat` is exact below 2^24 (R184). -/
def Obligations.CounterConversionExact : Prop :=
  ∀ n < 2 ^ 24, (Num32.ofNat n).isFinite = true ∧ (Num32.ofNat n).toRat = n

/-- The elapsed time of any 32-bit count under valid parameters is finite, has its sign bit clear, and
is `+0` exactly at count zero (R193). -/
def Obligations.ElapsedTimeOrdinary : Prop :=
  ∀ (p : Params) (sin exp : Num32 → Num32) (n : Nat), p.valid = true → n < 2 ^ 32 →
    let t := elapsed (binary32 sin exp) p n
    t.isFinite = true ∧ t.sign = false ∧ (t = Num32.posZero ↔ n = 0)

/-- The comparisons are false on a NaN, compare finite values by their exact values (so `+0` and `-0`
are equal), and place every finite value between the infinities (R183). -/
def Obligations.ComparisonsFollowValues : Prop :=
  ∀ a b : Num32,
    (a.isNaN = true ∨ b.isNaN = true → Num32.fle a b = false ∧ Num32.flt a b = false)
    ∧ (a.isFinite = true → b.isFinite = true →
      (Num32.fle a b = true ↔ a.toRat ≤ b.toRat) ∧ (Num32.flt a b = true ↔ a.toRat < b.toRat))
    ∧ (a.isFinite = true → Num32.flt a 0x7F800000#32 = true ∧ Num32.flt 0xFF800000#32 a = true)

/-- `+0` times a finite value is a zero with that value's sign; the sums of zeros are `+0` but for two
negative ones; `fneg` flips the sign bit alone and is its own inverse (R182, R195). -/
def Obligations.SignedZeroAndNegation : Prop :=
  (∀ x : Num32, x.isFinite = true →
    Num32.fmul Num32.posZero x = if x.sign then Num32.negZero else Num32.posZero)
  ∧ Num32.fadd Num32.posZero Num32.posZero = Num32.posZero
  ∧ Num32.fadd Num32.posZero Num32.negZero = Num32.posZero
  ∧ Num32.fadd Num32.negZero Num32.posZero = Num32.posZero
  ∧ Num32.fadd Num32.negZero Num32.negZero = Num32.negZero
  ∧ ∀ x : Num32, Num32.fneg (Num32.fneg x) = x ∧ (Num32.fneg x).sign = !x.sign
      ∧ (Num32.fneg x).mag = x.mag

/-! The real-number instance -/

/-- Over the real numbers the machine's layer waveform is the source's formula at
`t = cnt / SAMPLE_RATE`, with the carrier and modulator scaled by `fshift` but for HiHat, and with the
variant offset added to `I0` (R143, R150, R152 to R154, R190). A division by zero on either side is
Lean's, the model's choice (log 29). -/
def Obligations.WaveformIsReference : Prop :=
  ∀ (p : Params) (L : Layer) (var : Vector (BitVec 2) 3) (fshift : ℝ) (n : Nat),
    let t : ℝ := (n : ℝ) / (p.sampleRate : ℝ)
    let ofs : ℝ := match L with
      | .kick | .subKick => ((p.idxOfs.get 0).get (var.get 0).toFin : ℝ)
      | .snare => ((p.idxOfs.get 1).get (var.get 1).toFin : ℝ)
      | .midTom | .highTom | .subTom => ((p.idxOfs.get 2).get (var.get 2).toFin : ℝ)
      | .hiHat => 0
    let kf : ℝ := if L = .hiHat then 1 else fshift
    let o := layerOut realNum p L var fshift n
    o.out = refWave (p.layer L) ofs kf t ∧ o.amp = refAmp (p.layer L) t
      ∧ o.idx = (((p.layer L).i0 : ℝ) + ofs) * refIdx (p.layer L).idxEnv t

/-- The amplitude envelope is continuous on `[0, r]`, never negative from 0 on, 0 at 0, `A` at the
peak, `A * exp(-(r - p) / tau)` at `r`, and 0 beyond `r` (R143, R145). -/
def Obligations.EnvelopeShape : Prop :=
  ∀ k : LayerConsts, k.valid = true →
    ContinuousOn (refAmp k) (Set.Icc 0 (k.rend : ℝ))
    ∧ (∀ t, 0 ≤ t → 0 ≤ refAmp k t)
    ∧ refAmp k 0 = 0 ∧ refAmp k (k.peak : ℝ) = (k.amp : ℝ)
    ∧ refAmp k (k.rend : ℝ) =
        (k.amp : ℝ) * Real.exp (-(((k.rend : ℝ) - (k.peak : ℝ)) / (k.tau : ℝ)))
    ∧ ∀ t, (k.rend : ℝ) < t → refAmp k t = 0
end

