-- ==== Sys2Proof/Laws/Buffer.lean ====
section
/-! SUPPORT. The laws of the output buffers: a write keeps the canonical form, a read after a write
gives the value written, and every other element reads as before. -/

namespace Sys2Proof.Laws

open Sys2Proof.Machine

/-- In a buffer that starts above `j`, element `j` is not listed. -/
theorem Buffer_read_below {b : Buffer} {lo j : Nat} (h : Buffer.wfFrom lo b = true) (hj : j < lo) :
    Buffer.read b j = Buffer.unlisted := by
  induction b generalizing lo with
  | nil => rfl
  | cons e rest ih =>
    obtain ⟨k, w⟩ := e
    simp only [Buffer.wfFrom, Bool.and_eq_true, decide_eq_true_eq] at h
    have hk : ¬ k = j := by omega
    simp only [Buffer.read, hk, if_false]
    exact ih h.2 (by omega)

/-- The form above a lower bound is the form above a lesser one. -/
theorem Buffer_wfFrom_mono {b : Buffer} {lo lo' : Nat} (h : Buffer.wfFrom lo b = true)
    (hl : lo' ≤ lo) : Buffer.wfFrom lo' b = true := by
  cases b with
  | nil => rfl
  | cons e rest =>
    obtain ⟨k, w⟩ := e
    simp only [Buffer.wfFrom, Bool.and_eq_true, decide_eq_true_eq] at h ⊢
    exact ⟨⟨by omega, h.1.2⟩, h.2⟩

/-- A write at or above the lower bound keeps the form. -/
theorem Buffer_wfFrom_write {b : Buffer} {lo : Nat} (j : Nat) (v : Num32)
    (h : Buffer.wfFrom lo b = true) (hj : lo ≤ j) :
    Buffer.wfFrom lo (Buffer.write b j v) = true := by
  induction b generalizing lo with
  | nil =>
    by_cases hv : v = Buffer.unlisted <;> simp [Buffer.write, Buffer.wfFrom, hv, hj]
  | cons e rest ih =>
    obtain ⟨k, w⟩ := e
    simp only [Buffer.wfFrom, Bool.and_eq_true, decide_eq_true_eq] at h
    obtain ⟨⟨hlo, hw⟩, hrest⟩ := h
    simp only [Buffer.write]
    by_cases h1 : j < k
    · by_cases hv : v = Buffer.unlisted
      · simp [h1, hv, Buffer.wfFrom, hlo, hw, hrest]
      · simp [h1, hv, Buffer.wfFrom, hj, hw, hrest]
    · by_cases h2 : j = k
      · by_cases hv : v = Buffer.unlisted
        · simpa [h2, hv] using Buffer_wfFrom_mono hrest (by omega)
        · simp [h2, hv, Buffer.wfFrom, hlo, hrest]
      · simp only [h1, h2, if_false, Buffer.wfFrom, Bool.and_eq_true, decide_eq_true_eq]
        exact ⟨⟨hlo, hw⟩, ih hrest (by omega)⟩

/-- Every write keeps the canonical form. -/
theorem Buffer_wf_write {b : Buffer} (j : Nat) (v : Num32) (h : Buffer.wf b = true) :
    Buffer.wf (Buffer.write b j v) = true :=
  Buffer_wfFrom_write j v h (Nat.zero_le j)

/-- A write leaves every other element as it was, in any list. -/
theorem Buffer_read_write_ne (b : Buffer) {j q : Nat} (v : Num32) (hq : q ≠ j) :
    Buffer.read (Buffer.write b j v) q = Buffer.read b q := by
  induction b with
  | nil =>
    by_cases hv : v = Buffer.unlisted
    · simp [Buffer.write, hv]
    · simp [Buffer.write, hv, Buffer.read, hq.symm]
  | cons e rest ih =>
    obtain ⟨k, w⟩ := e
    simp only [Buffer.write]
    by_cases h1 : j < k
    · by_cases hv : v = Buffer.unlisted <;> simp [h1, hv, Buffer.read, hq.symm]
    · by_cases h2 : j = k
      · have hk : ¬ k = q := by omega
        by_cases hv : v = Buffer.unlisted <;> simp [h2, hv, Buffer.read, hk]
      · simp only [h1, h2, if_false, Buffer.read, ih]

/-- A read after a write gives the value written. -/
theorem Buffer_read_write_same {b : Buffer} (j : Nat) (v : Num32) (h : Buffer.wf b = true) :
    Buffer.read (Buffer.write b j v) j = v := by
  unfold Buffer.wf at h
  generalize hlo : 0 = lo at h
  clear hlo
  induction b generalizing lo with
  | nil => by_cases hv : v = Buffer.unlisted <;> simp [Buffer.write, hv, Buffer.read]
  | cons e rest ih =>
    obtain ⟨k, w⟩ := e
    simp only [Buffer.wfFrom, Bool.and_eq_true, decide_eq_true_eq] at h
    simp only [Buffer.write]
    by_cases h1 : j < k
    · have hk : ¬ k = j := by omega
      by_cases hv : v = Buffer.unlisted
      · simp [h1, hv, Buffer.read, hk, Buffer_read_below h.2 (show j < k + 1 by omega)]
      · simp [h1, hv, Buffer.read]
    · by_cases h2 : j = k
      · by_cases hv : v = Buffer.unlisted
        · simp [h2, hv, Buffer_read_below h.2 (show k < k + 1 by omega)]
        · simp [h2, hv, Buffer.read]
      · have hk : ¬ k = j := fun e => h2 e.symm
        simp only [h1, h2, if_false, Buffer.read, hk]
        exact ih (k + 1) h.2

/-- A write of an element below `n` keeps every listed element below `n`. -/
theorem Buffer_within_write {b : Buffer} {n j : Nat} (v : Num32)
    (h : Buffer.within n b = true) (hj : j < n) :
    Buffer.within n (Buffer.write b j v) = true := by
  induction b with
  | nil => by_cases hv : v = Buffer.unlisted <;> simp [Buffer.write, hv, Buffer.within, hj]
  | cons e rest ih =>
    obtain ⟨k, w⟩ := e
    simp only [Buffer.within, List.all_cons, Bool.and_eq_true, decide_eq_true_eq] at h ih ⊢
    simp only [Buffer.write]
    split
    · split <;> simp [h.1, h.2, hj]
    · split
      · split <;> simp [h.2, hj]
      · simp only [List.all_cons, Bool.and_eq_true, decide_eq_true_eq]
        exact ⟨h.1, ih h.2⟩

/-- Writing both channels keeps the memory's canonical form. -/
theorem memory_wf_outWriteBoth {s : State} (j : Nat) (v : Num32) (h : Memory.wf s = true) :
    Memory.wf (outWriteBoth s j v) = true := by
  simp only [Memory.wf, Bool.and_eq_true] at h ⊢
  exact ⟨Buffer_wf_write j v h.1, Buffer_wf_write j v h.2⟩

/-- The memory after reset is in canonical form. -/
theorem memory_wf_reset : Memory.wf State.reset = true := rfl

end Sys2Proof.Laws
end

