-- ==== Sys2Proof/Laws/Config.lean ====
section
/-! SUPPORT. What valid parameters give (R8, R34, R272), one lemma per constraint, and DRUMOF on them
(R88). -/

namespace Sys2Proof.Laws

open Sys2Proof.Machine

variable {p : Params}

theorem valid_sampleRate (h : p.valid = true) : 1 ≤ p.sampleRate := by
  simp only [Params.valid, Bool.and_eq_true, decide_eq_true_eq] at h
  exact h.1.1.1.1.1.1.1

theorem valid_blockSize (h : p.valid = true) : 1 ≤ p.blockSize := by
  simp only [Params.valid, Bool.and_eq_true, decide_eq_true_eq] at h
  exact h.1.1.1.1.1.1.2

theorem valid_notes (h : p.valid = true) : (Drum.all.map p.note).Nodup := by
  simp only [Params.valid, Bool.and_eq_true, decide_eq_true_eq] at h
  exact h.1.1.1.1.1.2

theorem valid_layer (h : p.valid = true) (L : Layer) : (p.layer L).valid = true := by
  simp only [Params.valid, Bool.and_eq_true, decide_eq_true_eq, List.all_eq_true] at h
  exact h.1.1.1.1.2 L (by cases L <;> simp [Layer.all])

theorem valid_nthr (h : p.valid = true) (d : Drum) : 2 * p.nthr d + 2 < 2 ^ 32 := by
  simp only [Params.valid, Bool.and_eq_true, decide_eq_true_eq, List.all_eq_true] at h
  exact h.1.2 d (by cases d <;> simp [Drum.all])

theorem valid_sampleRate_finite (h : p.valid = true) :
    (Num32.ofRat p.sampleRate).isFinite = true := by
  simp only [Params.valid, Bool.and_eq_true, decide_eq_true_eq, List.all_eq_true] at h
  exact h.2 p.sampleRate (by simp)

/-- The constraints on one layer (R8, R272). -/
theorem valid_layerConsts {k : LayerConsts} (h : k.valid = true) :
    0 < k.peak ∧ k.peak ≤ k.rend ∧ 0 < k.tau ∧ 0 ≤ k.amp
      ∧ ∀ q ∈ k.constants, (Num32.ofRat q).isFinite = true := by
  simp only [LayerConsts.valid, Bool.and_eq_true, decide_eq_true_eq, List.all_eq_true] at h
  exact ⟨h.1.1.1.1, h.1.1.1.2, h.1.1.2, h.1.2, h.2⟩

/-- The five drum notes are distinct (R8). -/
theorem valid_note_inj (h : p.valid = true) {d e : Drum} (he : p.note d = p.note e) : d = e := by
  have := valid_notes h
  simp only [Drum.all, List.map_cons, List.map_nil, List.nodup_cons, List.mem_cons,
    List.not_mem_nil, or_false, not_or] at this
  cases d <;> cases e <;> first | rfl | (exfalso; simp_all)

/-- DRUMOF finds the drum of each drum note (R88). -/
theorem drumOf_note (h : p.valid = true) (d : Drum) : drumOf p (p.note d) = some d := by
  have hn := fun e (he : p.note d = p.note e) => valid_note_inj h he
  cases d <;> simp only [drumOf] <;> repeat' split
  all_goals first | rfl | (rename_i hc; exact absurd (hn _ hc) (by decide)) | simp_all

/-- DRUMOF finds nothing else (R88). -/
theorem drumOf_some {n : Byte} {d : Drum} (h : drumOf p n = some d) : n = p.note d := by
  unfold drumOf at h
  repeat' split at h
  all_goals first | (cases h; assumption) | cases h

/-- Every threshold is positive (R8: NTHR is a positive integer). -/
theorem valid_nthr_pos (h : p.valid = true) (d : Drum) : 1 ≤ p.nthr d := by
  have hl := valid_layerConsts (valid_layer h d.layer)
  have hr : 0 < (p.layer d.layer).rend * p.sampleRate :=
    mul_pos (lt_of_lt_of_le hl.1 hl.2.1) (lt_of_lt_of_le one_pos (valid_sampleRate h))
  have hc : (p.layer d.layer).rend * p.sampleRate
      ≤ (((p.layer d.layer).rend * p.sampleRate).ceil : ℚ) := by
    have := Rat.le_ceil (x := (p.layer d.layer).rend * p.sampleRate)
    exact_mod_cast this
  have : (0 : ℚ) < (((p.layer d.layer).rend * p.sampleRate).ceil : ℚ) := lt_of_lt_of_le hr hc
  have : 0 < ((p.layer d.layer).rend * p.sampleRate).ceil := by exact_mod_cast this
  unfold Params.nthr
  omega

end Sys2Proof.Laws
end

