-- ==== Sys2Proof/Laws/Decode.lean ====
section
/-! SUPPORT. The fields of a frame word (R81), and the byte operands of a trace line (R93). -/

namespace Sys2Proof.Laws

theorem frameWord_toNat (a b c : Byte) :
    (frameWord a b c).toNat = a.toNat * 65536 + b.toNat * 256 + c.toNat := by
  have ha := a.isLt
  have hb := b.isLt
  have hc := c.isLt
  have h2 : (frameWord a b c).toNat = (a.toNat <<< 8 ||| b.toNat) <<< 8 ||| c.toNat := by
    unfold frameWord
    rw [BitVec.toNat_append, BitVec.toNat_append]
  rw [h2, ← Nat.shiftLeft_add_eq_or_of_lt hb, ← Nat.shiftLeft_add_eq_or_of_lt hc]
  simp [Nat.shiftLeft_eq]
  omega

theorem frameStatus_eq (w : FrameWord) : frameStatus w = BitVec.ofNat 8 (w.toNat / 65536) := by
  apply BitVec.eq_of_toNat_eq
  simp [frameStatus, BitVec.extractLsb'_toNat, Nat.shiftRight_eq_div_pow]

theorem frameNote_eq (w : FrameWord) : frameNote w = BitVec.ofNat 8 (w.toNat / 256) := by
  apply BitVec.eq_of_toNat_eq
  simp [frameNote, BitVec.extractLsb'_toNat, Nat.shiftRight_eq_div_pow]

theorem frameVelocity_eq (w : FrameWord) : frameVelocity w = BitVec.ofNat 8 w.toNat := by
  apply BitVec.eq_of_toNat_eq
  simp [frameVelocity, BitVec.extractLsb'_toNat]

theorem frameStatus_frameWord (a b c : Byte) : frameStatus (frameWord a b c) = a := by
  have ha := a.isLt
  have hb := b.isLt
  have hc := c.isLt
  rw [frameStatus_eq, frameWord_toNat]
  apply BitVec.eq_of_toNat_eq
  simp
  omega

theorem frameNote_frameWord (a b c : Byte) : frameNote (frameWord a b c) = b := by
  have hb := b.isLt
  have hc := c.isLt
  rw [frameNote_eq, frameWord_toNat]
  apply BitVec.eq_of_toNat_eq
  simp
  omega

theorem frameVelocity_frameWord (a b c : Byte) : frameVelocity (frameWord a b c) = c := by
  have hc := c.isLt
  rw [frameVelocity_eq, frameWord_toNat]
  apply BitVec.eq_of_toNat_eq
  simp
  omega

/-- A frame word is its three bytes put together. -/
theorem frameWord_fields (w : FrameWord) :
    frameWord (frameStatus w) (frameNote w) (frameVelocity w) = w := by
  have := w.isLt
  apply BitVec.eq_of_toNat_eq
  rw [frameWord_toNat, frameStatus_eq, frameNote_eq, frameVelocity_eq]
  simp
  omega

theorem byteOperand_toNat (b : Byte) : byteOperand b.toNat = some b := by
  simp [byteOperand, b.isLt]

end Sys2Proof.Laws
end

