-- ==== Sys2Proof/Laws/State.lean ====
section
/-! SUPPORT. The small lemmas of the record updates: for each shared update one lemma per field it
leaves alone, and what it puts in the field it writes. -/

namespace Sys2Proof.Laws

open Sys2Proof.Machine

/-! `setSlot` -/

@[simp] theorem setSlot_phase (k : SlotIx) (n : Byte) (a : Bool) (s : State) : (s.setSlot k n a).phase = s.phase := rfl
@[simp] theorem setSlot_noteStartFlag (k : SlotIx) (n : Byte) (a : Bool) (s : State) : (s.setSlot k n a).noteStartFlag = s.noteStartFlag := rfl
@[simp] theorem setSlot_noteStopFlag (k : SlotIx) (n : Byte) (a : Bool) (s : State) : (s.setSlot k n a).noteStopFlag = s.noteStopFlag := rfl
@[simp] theorem setSlot_pendingNote (k : SlotIx) (n : Byte) (a : Bool) (s : State) : (s.setSlot k n a).pendingNote = s.pendingNote := rfl
@[simp] theorem setSlot_var (k : SlotIx) (n : Byte) (a : Bool) (s : State) : (s.setSlot k n a).var = s.var := rfl
@[simp] theorem setSlot_btn (k : SlotIx) (n : Byte) (a : Bool) (s : State) : (s.setSlot k n a).btn = s.btn := rfl
@[simp] theorem setSlot_layers (k : SlotIx) (n : Byte) (a : Bool) (s : State) : (s.setSlot k n a).layers = s.layers := rfl
@[simp] theorem setSlot_acc (k : SlotIx) (n : Byte) (a : Bool) (s : State) : (s.setSlot k n a).acc = s.acc := rfl
@[simp] theorem setSlot_busy (k : SlotIx) (n : Byte) (a : Bool) (s : State) : (s.setSlot k n a).busy = s.busy := rfl
@[simp] theorem setSlot_i (k : SlotIx) (n : Byte) (a : Bool) (s : State) : (s.setSlot k n a).i = s.i := rfl
@[simp] theorem setSlot_outL (k : SlotIx) (n : Byte) (a : Bool) (s : State) : (s.setSlot k n a).outL = s.outL := rfl
@[simp] theorem setSlot_outR (k : SlotIx) (n : Byte) (a : Bool) (s : State) : (s.setSlot k n a).outR = s.outR := rfl
@[simp] theorem setSlot_overrun (k : SlotIx) (n : Byte) (a : Bool) (s : State) : (s.setSlot k n a).overrun = s.overrun := rfl
@[simp] theorem setSlot_inbox (k : SlotIx) (n : Byte) (a : Bool) (s : State) : (s.setSlot k n a).inbox = s.inbox := rfl
@[simp] theorem setSlot_noiseIx (k : SlotIx) (n : Byte) (a : Bool) (s : State) : (s.setSlot k n a).noiseIx = s.noiseIx := rfl
@[simp] theorem setSlot_result (k : SlotIx) (n : Byte) (a : Bool) (s : State) : (s.setSlot k n a).result = s.result := rfl
@[simp] theorem setSlot_layer (k : SlotIx) (n : Byte) (a : Bool) (s : State) (M : Layer) : (s.setSlot k n a).layer M = s.layer M := rfl
@[simp] theorem setSlot_accOf (k : SlotIx) (n : Byte) (a : Bool) (s : State) (e : Drum) : (s.setSlot k n a).accOf e = s.accOf e := rfl

/-! `setLayer` -/

@[simp] theorem setLayer_slots (L : Layer) (v : LayerState) (s : State) : (s.setLayer L v).slots = s.slots := rfl
@[simp] theorem setLayer_phase (L : Layer) (v : LayerState) (s : State) : (s.setLayer L v).phase = s.phase := rfl
@[simp] theorem setLayer_noteStartFlag (L : Layer) (v : LayerState) (s : State) : (s.setLayer L v).noteStartFlag = s.noteStartFlag := rfl
@[simp] theorem setLayer_noteStopFlag (L : Layer) (v : LayerState) (s : State) : (s.setLayer L v).noteStopFlag = s.noteStopFlag := rfl
@[simp] theorem setLayer_pendingNote (L : Layer) (v : LayerState) (s : State) : (s.setLayer L v).pendingNote = s.pendingNote := rfl
@[simp] theorem setLayer_var (L : Layer) (v : LayerState) (s : State) : (s.setLayer L v).var = s.var := rfl
@[simp] theorem setLayer_btn (L : Layer) (v : LayerState) (s : State) : (s.setLayer L v).btn = s.btn := rfl
@[simp] theorem setLayer_acc (L : Layer) (v : LayerState) (s : State) : (s.setLayer L v).acc = s.acc := rfl
@[simp] theorem setLayer_busy (L : Layer) (v : LayerState) (s : State) : (s.setLayer L v).busy = s.busy := rfl
@[simp] theorem setLayer_i (L : Layer) (v : LayerState) (s : State) : (s.setLayer L v).i = s.i := rfl
@[simp] theorem setLayer_outL (L : Layer) (v : LayerState) (s : State) : (s.setLayer L v).outL = s.outL := rfl
@[simp] theorem setLayer_outR (L : Layer) (v : LayerState) (s : State) : (s.setLayer L v).outR = s.outR := rfl
@[simp] theorem setLayer_overrun (L : Layer) (v : LayerState) (s : State) : (s.setLayer L v).overrun = s.overrun := rfl
@[simp] theorem setLayer_inbox (L : Layer) (v : LayerState) (s : State) : (s.setLayer L v).inbox = s.inbox := rfl
@[simp] theorem setLayer_noiseIx (L : Layer) (v : LayerState) (s : State) : (s.setLayer L v).noiseIx = s.noiseIx := rfl
@[simp] theorem setLayer_result (L : Layer) (v : LayerState) (s : State) : (s.setLayer L v).result = s.result := rfl
@[simp] theorem setLayer_slot (L : Layer) (v : LayerState) (s : State) (q : SlotIx) : (s.setLayer L v).slot q = s.slot q := rfl
@[simp] theorem setLayer_accOf (L : Layer) (v : LayerState) (s : State) (e : Drum) : (s.setLayer L v).accOf e = s.accOf e := rfl

/-! `setCnt` -/

@[simp] theorem setCnt_slots (L : Layer) (v : BitVec 32) (s : State) : (s.setCnt L v).slots = s.slots := rfl
@[simp] theorem setCnt_phase (L : Layer) (v : BitVec 32) (s : State) : (s.setCnt L v).phase = s.phase := rfl
@[simp] theorem setCnt_noteStartFlag (L : Layer) (v : BitVec 32) (s : State) : (s.setCnt L v).noteStartFlag = s.noteStartFlag := rfl
@[simp] theorem setCnt_noteStopFlag (L : Layer) (v : BitVec 32) (s : State) : (s.setCnt L v).noteStopFlag = s.noteStopFlag := rfl
@[simp] theorem setCnt_pendingNote (L : Layer) (v : BitVec 32) (s : State) : (s.setCnt L v).pendingNote = s.pendingNote := rfl
@[simp] theorem setCnt_var (L : Layer) (v : BitVec 32) (s : State) : (s.setCnt L v).var = s.var := rfl
@[simp] theorem setCnt_btn (L : Layer) (v : BitVec 32) (s : State) : (s.setCnt L v).btn = s.btn := rfl
@[simp] theorem setCnt_acc (L : Layer) (v : BitVec 32) (s : State) : (s.setCnt L v).acc = s.acc := rfl
@[simp] theorem setCnt_busy (L : Layer) (v : BitVec 32) (s : State) : (s.setCnt L v).busy = s.busy := rfl
@[simp] theorem setCnt_i (L : Layer) (v : BitVec 32) (s : State) : (s.setCnt L v).i = s.i := rfl
@[simp] theorem setCnt_outL (L : Layer) (v : BitVec 32) (s : State) : (s.setCnt L v).outL = s.outL := rfl
@[simp] theorem setCnt_outR (L : Layer) (v : BitVec 32) (s : State) : (s.setCnt L v).outR = s.outR := rfl
@[simp] theorem setCnt_overrun (L : Layer) (v : BitVec 32) (s : State) : (s.setCnt L v).overrun = s.overrun := rfl
@[simp] theorem setCnt_inbox (L : Layer) (v : BitVec 32) (s : State) : (s.setCnt L v).inbox = s.inbox := rfl
@[simp] theorem setCnt_noiseIx (L : Layer) (v : BitVec 32) (s : State) : (s.setCnt L v).noiseIx = s.noiseIx := rfl
@[simp] theorem setCnt_result (L : Layer) (v : BitVec 32) (s : State) : (s.setCnt L v).result = s.result := rfl
@[simp] theorem setCnt_slot (L : Layer) (v : BitVec 32) (s : State) (q : SlotIx) : (s.setCnt L v).slot q = s.slot q := rfl
@[simp] theorem setCnt_accOf (L : Layer) (v : BitVec 32) (s : State) (e : Drum) : (s.setCnt L v).accOf e = s.accOf e := rfl

/-! `setAcc` -/

@[simp] theorem setAcc_slots (d : Drum) (v : Num32) (s : State) : (s.setAcc d v).slots = s.slots := rfl
@[simp] theorem setAcc_phase (d : Drum) (v : Num32) (s : State) : (s.setAcc d v).phase = s.phase := rfl
@[simp] theorem setAcc_noteStartFlag (d : Drum) (v : Num32) (s : State) : (s.setAcc d v).noteStartFlag = s.noteStartFlag := rfl
@[simp] theorem setAcc_noteStopFlag (d : Drum) (v : Num32) (s : State) : (s.setAcc d v).noteStopFlag = s.noteStopFlag := rfl
@[simp] theorem setAcc_pendingNote (d : Drum) (v : Num32) (s : State) : (s.setAcc d v).pendingNote = s.pendingNote := rfl
@[simp] theorem setAcc_var (d : Drum) (v : Num32) (s : State) : (s.setAcc d v).var = s.var := rfl
@[simp] theorem setAcc_btn (d : Drum) (v : Num32) (s : State) : (s.setAcc d v).btn = s.btn := rfl
@[simp] theorem setAcc_layers (d : Drum) (v : Num32) (s : State) : (s.setAcc d v).layers = s.layers := rfl
@[simp] theorem setAcc_busy (d : Drum) (v : Num32) (s : State) : (s.setAcc d v).busy = s.busy := rfl
@[simp] theorem setAcc_i (d : Drum) (v : Num32) (s : State) : (s.setAcc d v).i = s.i := rfl
@[simp] theorem setAcc_outL (d : Drum) (v : Num32) (s : State) : (s.setAcc d v).outL = s.outL := rfl
@[simp] theorem setAcc_outR (d : Drum) (v : Num32) (s : State) : (s.setAcc d v).outR = s.outR := rfl
@[simp] theorem setAcc_overrun (d : Drum) (v : Num32) (s : State) : (s.setAcc d v).overrun = s.overrun := rfl
@[simp] theorem setAcc_inbox (d : Drum) (v : Num32) (s : State) : (s.setAcc d v).inbox = s.inbox := rfl
@[simp] theorem setAcc_noiseIx (d : Drum) (v : Num32) (s : State) : (s.setAcc d v).noiseIx = s.noiseIx := rfl
@[simp] theorem setAcc_result (d : Drum) (v : Num32) (s : State) : (s.setAcc d v).result = s.result := rfl
@[simp] theorem setAcc_slot (d : Drum) (v : Num32) (s : State) (q : SlotIx) : (s.setAcc d v).slot q = s.slot q := rfl
@[simp] theorem setAcc_layer (d : Drum) (v : Num32) (s : State) (M : Layer) : (s.setAcc d v).layer M = s.layer M := rfl

/-! `zeroAcc` -/

@[simp] theorem zeroAcc_slots (c : Cfg) (s : State) : (zeroAcc c s).slots = s.slots := rfl
@[simp] theorem zeroAcc_phase (c : Cfg) (s : State) : (zeroAcc c s).phase = s.phase := rfl
@[simp] theorem zeroAcc_noteStartFlag (c : Cfg) (s : State) : (zeroAcc c s).noteStartFlag = s.noteStartFlag := rfl
@[simp] theorem zeroAcc_noteStopFlag (c : Cfg) (s : State) : (zeroAcc c s).noteStopFlag = s.noteStopFlag := rfl
@[simp] theorem zeroAcc_pendingNote (c : Cfg) (s : State) : (zeroAcc c s).pendingNote = s.pendingNote := rfl
@[simp] theorem zeroAcc_var (c : Cfg) (s : State) : (zeroAcc c s).var = s.var := rfl
@[simp] theorem zeroAcc_btn (c : Cfg) (s : State) : (zeroAcc c s).btn = s.btn := rfl
@[simp] theorem zeroAcc_layers (c : Cfg) (s : State) : (zeroAcc c s).layers = s.layers := rfl
@[simp] theorem zeroAcc_busy (c : Cfg) (s : State) : (zeroAcc c s).busy = s.busy := rfl
@[simp] theorem zeroAcc_i (c : Cfg) (s : State) : (zeroAcc c s).i = s.i := rfl
@[simp] theorem zeroAcc_outL (c : Cfg) (s : State) : (zeroAcc c s).outL = s.outL := rfl
@[simp] theorem zeroAcc_outR (c : Cfg) (s : State) : (zeroAcc c s).outR = s.outR := rfl
@[simp] theorem zeroAcc_overrun (c : Cfg) (s : State) : (zeroAcc c s).overrun = s.overrun := rfl
@[simp] theorem zeroAcc_inbox (c : Cfg) (s : State) : (zeroAcc c s).inbox = s.inbox := rfl
@[simp] theorem zeroAcc_noiseIx (c : Cfg) (s : State) : (zeroAcc c s).noiseIx = s.noiseIx := rfl
@[simp] theorem zeroAcc_result (c : Cfg) (s : State) : (zeroAcc c s).result = s.result := rfl
@[simp] theorem zeroAcc_slot (c : Cfg) (s : State) (q : SlotIx) : (zeroAcc c s).slot q = s.slot q := rfl
@[simp] theorem zeroAcc_layer (c : Cfg) (s : State) (M : Layer) : (zeroAcc c s).layer M = s.layer M := rfl

/-! `silenceAll` -/

@[simp] theorem silenceAll_phase (s : State) : (silenceAll s).phase = s.phase := rfl
@[simp] theorem silenceAll_noteStartFlag (s : State) : (silenceAll s).noteStartFlag = s.noteStartFlag := rfl
@[simp] theorem silenceAll_noteStopFlag (s : State) : (silenceAll s).noteStopFlag = s.noteStopFlag := rfl
@[simp] theorem silenceAll_pendingNote (s : State) : (silenceAll s).pendingNote = s.pendingNote := rfl
@[simp] theorem silenceAll_var (s : State) : (silenceAll s).var = s.var := rfl
@[simp] theorem silenceAll_btn (s : State) : (silenceAll s).btn = s.btn := rfl
@[simp] theorem silenceAll_layers (s : State) : (silenceAll s).layers = s.layers := rfl
@[simp] theorem silenceAll_acc (s : State) : (silenceAll s).acc = s.acc := rfl
@[simp] theorem silenceAll_busy (s : State) : (silenceAll s).busy = s.busy := rfl
@[simp] theorem silenceAll_i (s : State) : (silenceAll s).i = s.i := rfl
@[simp] theorem silenceAll_outL (s : State) : (silenceAll s).outL = s.outL := rfl
@[simp] theorem silenceAll_outR (s : State) : (silenceAll s).outR = s.outR := rfl
@[simp] theorem silenceAll_overrun (s : State) : (silenceAll s).overrun = s.overrun := rfl
@[simp] theorem silenceAll_inbox (s : State) : (silenceAll s).inbox = s.inbox := rfl
@[simp] theorem silenceAll_noiseIx (s : State) : (silenceAll s).noiseIx = s.noiseIx := rfl
@[simp] theorem silenceAll_result (s : State) : (silenceAll s).result = s.result := rfl
@[simp] theorem silenceAll_layer (s : State) (M : Layer) : (silenceAll s).layer M = s.layer M := rfl
@[simp] theorem silenceAll_accOf (s : State) (e : Drum) : (silenceAll s).accOf e = s.accOf e := rfl

/-! `resetAll` -/

@[simp] theorem resetAll_phase (c : Cfg) (s : State) : (resetAll c s).phase = s.phase := rfl
@[simp] theorem resetAll_noteStartFlag (c : Cfg) (s : State) : (resetAll c s).noteStartFlag = s.noteStartFlag := rfl
@[simp] theorem resetAll_noteStopFlag (c : Cfg) (s : State) : (resetAll c s).noteStopFlag = s.noteStopFlag := rfl
@[simp] theorem resetAll_pendingNote (c : Cfg) (s : State) : (resetAll c s).pendingNote = s.pendingNote := rfl
@[simp] theorem resetAll_var (c : Cfg) (s : State) : (resetAll c s).var = s.var := rfl
@[simp] theorem resetAll_btn (c : Cfg) (s : State) : (resetAll c s).btn = s.btn := rfl
@[simp] theorem resetAll_layers (c : Cfg) (s : State) : (resetAll c s).layers = s.layers := rfl
@[simp] theorem resetAll_busy (c : Cfg) (s : State) : (resetAll c s).busy = s.busy := rfl
@[simp] theorem resetAll_i (c : Cfg) (s : State) : (resetAll c s).i = s.i := rfl
@[simp] theorem resetAll_outL (c : Cfg) (s : State) : (resetAll c s).outL = s.outL := rfl
@[simp] theorem resetAll_outR (c : Cfg) (s : State) : (resetAll c s).outR = s.outR := rfl
@[simp] theorem resetAll_overrun (c : Cfg) (s : State) : (resetAll c s).overrun = s.overrun := rfl
@[simp] theorem resetAll_inbox (c : Cfg) (s : State) : (resetAll c s).inbox = s.inbox := rfl
@[simp] theorem resetAll_noiseIx (c : Cfg) (s : State) : (resetAll c s).noiseIx = s.noiseIx := rfl
@[simp] theorem resetAll_result (c : Cfg) (s : State) : (resetAll c s).result = s.result := rfl
@[simp] theorem resetAll_layer (c : Cfg) (s : State) (M : Layer) : (resetAll c s).layer M = s.layer M := rfl

/-! `setBtn` -/

@[simp] theorem setBtn_slots (b : Button) (v : Bool) (s : State) : (s.setBtn b v).slots = s.slots := rfl
@[simp] theorem setBtn_phase (b : Button) (v : Bool) (s : State) : (s.setBtn b v).phase = s.phase := rfl
@[simp] theorem setBtn_noteStartFlag (b : Button) (v : Bool) (s : State) : (s.setBtn b v).noteStartFlag = s.noteStartFlag := rfl
@[simp] theorem setBtn_noteStopFlag (b : Button) (v : Bool) (s : State) : (s.setBtn b v).noteStopFlag = s.noteStopFlag := rfl
@[simp] theorem setBtn_pendingNote (b : Button) (v : Bool) (s : State) : (s.setBtn b v).pendingNote = s.pendingNote := rfl
@[simp] theorem setBtn_var (b : Button) (v : Bool) (s : State) : (s.setBtn b v).var = s.var := rfl
@[simp] theorem setBtn_layers (b : Button) (v : Bool) (s : State) : (s.setBtn b v).layers = s.layers := rfl
@[simp] theorem setBtn_acc (b : Button) (v : Bool) (s : State) : (s.setBtn b v).acc = s.acc := rfl
@[simp] theorem setBtn_busy (b : Button) (v : Bool) (s : State) : (s.setBtn b v).busy = s.busy := rfl
@[simp] theorem setBtn_i (b : Button) (v : Bool) (s : State) : (s.setBtn b v).i = s.i := rfl
@[simp] theorem setBtn_outL (b : Button) (v : Bool) (s : State) : (s.setBtn b v).outL = s.outL := rfl
@[simp] theorem setBtn_outR (b : Button) (v : Bool) (s : State) : (s.setBtn b v).outR = s.outR := rfl
@[simp] theorem setBtn_overrun (b : Button) (v : Bool) (s : State) : (s.setBtn b v).overrun = s.overrun := rfl
@[simp] theorem setBtn_inbox (b : Button) (v : Bool) (s : State) : (s.setBtn b v).inbox = s.inbox := rfl
@[simp] theorem setBtn_noiseIx (b : Button) (v : Bool) (s : State) : (s.setBtn b v).noiseIx = s.noiseIx := rfl
@[simp] theorem setBtn_result (b : Button) (v : Bool) (s : State) : (s.setBtn b v).result = s.result := rfl
@[simp] theorem setBtn_slot (b : Button) (v : Bool) (s : State) (q : SlotIx) : (s.setBtn b v).slot q = s.slot q := rfl
@[simp] theorem setBtn_layer (b : Button) (v : Bool) (s : State) (M : Layer) : (s.setBtn b v).layer M = s.layer M := rfl
@[simp] theorem setBtn_accOf (b : Button) (v : Bool) (s : State) (e : Drum) : (s.setBtn b v).accOf e = s.accOf e := rfl

/-! `latchShift` -/

@[simp] theorem latchShift_slots (f : Num32) (s : State) : (latchShift f s).slots = s.slots := rfl
@[simp] theorem latchShift_phase (f : Num32) (s : State) : (latchShift f s).phase = s.phase := rfl
@[simp] theorem latchShift_noteStartFlag (f : Num32) (s : State) : (latchShift f s).noteStartFlag = s.noteStartFlag := rfl
@[simp] theorem latchShift_noteStopFlag (f : Num32) (s : State) : (latchShift f s).noteStopFlag = s.noteStopFlag := rfl
@[simp] theorem latchShift_pendingNote (f : Num32) (s : State) : (latchShift f s).pendingNote = s.pendingNote := rfl
@[simp] theorem latchShift_var (f : Num32) (s : State) : (latchShift f s).var = s.var := rfl
@[simp] theorem latchShift_btn (f : Num32) (s : State) : (latchShift f s).btn = s.btn := rfl
@[simp] theorem latchShift_acc (f : Num32) (s : State) : (latchShift f s).acc = s.acc := rfl
@[simp] theorem latchShift_busy (f : Num32) (s : State) : (latchShift f s).busy = s.busy := rfl
@[simp] theorem latchShift_i (f : Num32) (s : State) : (latchShift f s).i = s.i := rfl
@[simp] theorem latchShift_outL (f : Num32) (s : State) : (latchShift f s).outL = s.outL := rfl
@[simp] theorem latchShift_outR (f : Num32) (s : State) : (latchShift f s).outR = s.outR := rfl
@[simp] theorem latchShift_overrun (f : Num32) (s : State) : (latchShift f s).overrun = s.overrun := rfl
@[simp] theorem latchShift_inbox (f : Num32) (s : State) : (latchShift f s).inbox = s.inbox := rfl
@[simp] theorem latchShift_noiseIx (f : Num32) (s : State) : (latchShift f s).noiseIx = s.noiseIx := rfl
@[simp] theorem latchShift_result (f : Num32) (s : State) : (latchShift f s).result = s.result := rfl
@[simp] theorem latchShift_slot (f : Num32) (s : State) (q : SlotIx) : (latchShift f s).slot q = s.slot q := rfl
@[simp] theorem latchShift_accOf (f : Num32) (s : State) (e : Drum) : (latchShift f s).accOf e = s.accOf e := rfl

/-! `outWriteBoth` -/

@[simp] theorem outWriteBoth_slots (j : Nat) (v : Num32) (s : State) : (outWriteBoth s j v).slots = s.slots := rfl
@[simp] theorem outWriteBoth_phase (j : Nat) (v : Num32) (s : State) : (outWriteBoth s j v).phase = s.phase := rfl
@[simp] theorem outWriteBoth_noteStartFlag (j : Nat) (v : Num32) (s : State) : (outWriteBoth s j v).noteStartFlag = s.noteStartFlag := rfl
@[simp] theorem outWriteBoth_noteStopFlag (j : Nat) (v : Num32) (s : State) : (outWriteBoth s j v).noteStopFlag = s.noteStopFlag := rfl
@[simp] theorem outWriteBoth_pendingNote (j : Nat) (v : Num32) (s : State) : (outWriteBoth s j v).pendingNote = s.pendingNote := rfl
@[simp] theorem outWriteBoth_var (j : Nat) (v : Num32) (s : State) : (outWriteBoth s j v).var = s.var := rfl
@[simp] theorem outWriteBoth_btn (j : Nat) (v : Num32) (s : State) : (outWriteBoth s j v).btn = s.btn := rfl
@[simp] theorem outWriteBoth_layers (j : Nat) (v : Num32) (s : State) : (outWriteBoth s j v).layers = s.layers := rfl
@[simp] theorem outWriteBoth_acc (j : Nat) (v : Num32) (s : State) : (outWriteBoth s j v).acc = s.acc := rfl
@[simp] theorem outWriteBoth_busy (j : Nat) (v : Num32) (s : State) : (outWriteBoth s j v).busy = s.busy := rfl
@[simp] theorem outWriteBoth_i (j : Nat) (v : Num32) (s : State) : (outWriteBoth s j v).i = s.i := rfl
@[simp] theorem outWriteBoth_overrun (j : Nat) (v : Num32) (s : State) : (outWriteBoth s j v).overrun = s.overrun := rfl
@[simp] theorem outWriteBoth_inbox (j : Nat) (v : Num32) (s : State) : (outWriteBoth s j v).inbox = s.inbox := rfl
@[simp] theorem outWriteBoth_noiseIx (j : Nat) (v : Num32) (s : State) : (outWriteBoth s j v).noiseIx = s.noiseIx := rfl
@[simp] theorem outWriteBoth_result (j : Nat) (v : Num32) (s : State) : (outWriteBoth s j v).result = s.result := rfl
@[simp] theorem outWriteBoth_slot (j : Nat) (v : Num32) (s : State) (q : SlotIx) : (outWriteBoth s j v).slot q = s.slot q := rfl
@[simp] theorem outWriteBoth_layer (j : Nat) (v : Num32) (s : State) (M : Layer) : (outWriteBoth s j v).layer M = s.layer M := rfl
@[simp] theorem outWriteBoth_accOf (j : Nat) (v : Num32) (s : State) (e : Drum) : (outWriteBoth s j v).accOf e = s.accOf e := rfl

/-! What each update puts in -/

theorem layerIdx_inj {L M : Layer} (h : L.idx.val = M.idx.val) : L = M := by
  cases L <;> cases M <;> first | rfl | (exact absurd h (by decide))

theorem drumIdx_inj {d e : Drum} (h : d.idx.val = e.idx.val) : d = e := by
  cases d <;> cases e <;> first | rfl | (exact absurd h (by decide))

@[simp] theorem setSlot_slot (k : SlotIx) (n : Byte) (a : Bool) (s : State) (q : SlotIx) :
    (s.setSlot k n a).slot q = if k = q then ⟨n, a⟩ else s.slot q := by
  simp only [State.slot, State.setSlot, Vector.get_eq_getElem, Vector.getElem_set, Fin.ext_iff]

@[simp] theorem setLayer_layer (L : Layer) (v : LayerState) (s : State) (M : Layer) :
    (s.setLayer L v).layer M = if L = M then v else s.layer M := by
  simp only [State.layer, State.setLayer, Vector.get_eq_getElem, Vector.getElem_set]
  exact if_congr ⟨layerIdx_inj, fun h => h ▸ rfl⟩ rfl rfl

@[simp] theorem setCnt_layer (L : Layer) (v : BitVec 32) (s : State) (M : Layer) :
    (s.setCnt L v).layer M = if L = M then { s.layer L with cnt := v } else s.layer M := by
  simp only [State.setCnt, setLayer_layer]

@[simp] theorem setAcc_accOf (d : Drum) (v : Num32) (s : State) (e : Drum) :
    (s.setAcc d v).accOf e = if d = e then v else s.accOf e := by
  simp only [State.accOf, State.setAcc, Vector.get_eq_getElem, Vector.getElem_set]
  exact if_congr ⟨drumIdx_inj, fun h => h ▸ rfl⟩ rfl rfl

@[simp] theorem zeroAcc_accOf (c : Cfg) (s : State) (d : Drum) :
    (zeroAcc c s).accOf d = c.num.ofNat 0 := by
  simp [State.accOf, zeroAcc, Vector.get_eq_getElem]

@[simp] theorem silenceAll_slot (s : State) (q : SlotIx) :
    (silenceAll s).slot q = ⟨(s.slot q).note, false⟩ := by
  simp [State.slot, silenceAll, Vector.get_eq_getElem]

@[simp] theorem latchShift_layer (f : Num32) (s : State) (M : Layer) :
    (latchShift f s).layer M = { s.layer M with fshift := f } := by
  simp [State.layer, latchShift, Vector.get_eq_getElem]

@[simp] theorem setBtn_btn (b : Button) (v : Bool) (s : State) (q : Button) :
    (s.setBtn b v).btn.get q = if b = q then v else s.btn.get q := by
  simp only [State.setBtn, Vector.get_eq_getElem, Vector.getElem_set, Fin.ext_iff]

/-- Two layer files with equal layers are equal. -/
theorem layers_ext {a b : State} (h : ∀ L, a.layer L = b.layer L) : a.layers = b.layers := by
  apply Vector.ext
  intro j hj
  have hl : ∀ L : Layer, a.layers[L.idx.val] = b.layers[L.idx.val] := h
  match j, hj with
  | 0, _ => exact hl .kick
  | 1, _ => exact hl .snare
  | 2, _ => exact hl .midTom
  | 3, _ => exact hl .highTom
  | 4, _ => exact hl .hiHat
  | 5, _ => exact hl .subKick
  | 6, _ => exact hl .subTom

/-- Two pools with equal slots are equal. -/
theorem slots_ext {a b : State} (h : ∀ k, a.slot k = b.slot k) : a.slots = b.slots :=
  Vector.ext fun j hj => h ⟨j, hj⟩

/-- Two accumulator files with equal accumulators are equal. -/
theorem acc_ext {a b : State} (h : ∀ d, a.accOf d = b.accOf d) : a.acc = b.acc := by
  apply Vector.ext
  intro j hj
  have hl : ∀ d : Drum, a.acc[d.idx.val] = b.acc[d.idx.val] := h
  match j, hj with
  | 0, _ => exact hl .kick
  | 1, _ => exact hl .snare
  | 2, _ => exact hl .midTom
  | 3, _ => exact hl .highTom
  | 4, _ => exact hl .hiHat

/-- Writing a slot's own contents back changes nothing. -/
theorem setSlot_self (s : State) (k : SlotIx) : s.setSlot k (s.slot k).note (s.slot k).active = s := by
  have h : (s.setSlot k (s.slot k).note (s.slot k).active).slots = s.slots :=
    slots_ext fun q => by
      rw [setSlot_slot]
      split
      · next h => subst h; rfl
      · rfl
  cases s
  simp only [State.setSlot] at h ⊢
  rw [h]

end Sys2Proof.Laws
end

