-- ==== Sys2Proof/Laws/Engine.lean ====
section
/-! SUPPORT. What a synthesis step can do, said once: the frame of every STEP, and its whole result
for the drums with a transient layer and for the drums with a noise layer, and what a STEP reads. -/

namespace Sys2Proof.Laws

open Sys2Proof.Machine

/-- LAYERWAVE writes `amp` and `idx` of its layer and nothing else (R154). -/
theorem layerWave_frame (c : Cfg) (L : Layer) (s : State) :
    (layerWave c L s).1 = { s with layers := (layerWave c L s).1.layers } := rfl

/-- The transient layer's part writes the layer file and nothing else (R166). -/
theorem transientPart_frame (c : Cfg) (d : Drum) (s : State) (y : Num32) :
    (transientPart c d s y).1 = { s with layers := (transientPart c d s y).1.layers } := by
  unfold transientPart
  cases transLayer d <;> rfl

/-- The noise layer's part takes a draw and writes nothing of the core (R168). -/
theorem noisePart_frame (c : Cfg) (d : Drum) (s : State) (y : Num32) :
    (noisePart c d s y).1 = { s with noiseIx := (noisePart c d s y).1.noiseIx } := by
  unfold noisePart
  cases noiseGain c.params d <;> rfl

/-- The boundary decision writes the layer file and nothing else: the released branch writes the slot
as it already is (R163). -/
theorem boundaryPart_frame (c : Cfg) (d : Drum) (k : SlotIx) (s : State) (y : Num32) :
    (boundaryPart c d k s y).1 = { s with layers := (boundaryPart c d k s y).1.layers } := by
  simp only [boundaryPart]
  split
  · split
    · simp only [restartEpisode]
      cases transLayer d <;> rfl
    · rename_i h
      simp only [Bool.not_eq_true] at h
      rw [show (s.setCnt d.layer ((s.layer d.layer).cnt + 1)).setSlot k
          ((s.setCnt d.layer ((s.layer d.layer).cnt + 1)).slot k).note false
          = s.setCnt d.layer ((s.layer d.layer).cnt + 1) by
        rw [← h]; exact setSlot_self _ k]
      rfl
  · rfl

/-- A STEP writes the layer file and the draw index, and nothing else; no STEP changes a slot (R160,
R165). -/
theorem drumStep_frame (c : Cfg) (d : Drum) (k : SlotIx) (s : State) :
    (drumStep c d k s).1 = { s with
      layers := (drumStep c d k s).1.layers, noiseIx := (drumStep c d k s).1.noiseIx } := by
  simp only [drumStep]
  rw [boundaryPart_frame, noisePart_frame, transientPart_frame, layerWave_frame]

/-- What LAYERWAVE computes for layer `L` in state `s`. -/
def waveOf (c : Cfg) (L : Layer) (s : State) : LayerOut Num32 :=
  layerOut c.num c.params L s.var (s.layer L).fshift (s.layer L).cnt.toNat

/-- Layer `L` with a new count and the `amp` and `idx` of a waveform. -/
def stepped (o : LayerOut Num32) (l : LayerState) (n : BitVec 32) : LayerState :=
  { l with cnt := n, amp := o.amp, idx := o.idx }

/-- Two writes of one layer are the second. -/
theorem setLayer_twice (L : Layer) (u v : LayerState) (s : State) :
    (s.setLayer L u).setLayer L v = s.setLayer L v := by
  simp [State.setLayer]

/-- Writes of two layers commute. -/
theorem setLayer_comm {L M : Layer} (h : L ≠ M) (u v : LayerState) (s : State) :
    (s.setLayer L u).setLayer M v = (s.setLayer M v).setLayer L u := by
  have hi : L.idx.val ≠ M.idx.val := fun e => h (layerIdx_inj e)
  simp only [State.setLayer]
  rw [Vector.set_comm _ _ hi]

/-- A new count for a layer just written. -/
theorem setCnt_setLayer (L : Layer) (v : LayerState) (n : BitVec 32) (s : State) :
    (s.setLayer L v).setCnt L n = s.setLayer L { v with cnt := n } := by
  rw [State.setCnt, setLayer_twice, setLayer_layer, if_pos rfl]

/-- A new count for another layer than the one just written. -/
theorem setCnt_setLayer_ne {L M : Layer} (h : L ≠ M) (v : LayerState) (n : BitVec 32) (s : State) :
    (s.setLayer L v).setCnt M n = (s.setCnt M n).setLayer L v := by
  rw [State.setCnt, State.setCnt, setLayer_comm h, setLayer_layer, if_neg h]

/-- A drum's own layer is not its transient layer (R33). -/
theorem layer_ne_transLayer {d : Drum} {T : Layer} (h : transLayer d = some T) : d.layer ≠ T := by
  cases d <;> simp only [transLayer, reduceCtorEq, Option.some.injEq] at h <;> subst h <;> decide

/-- Everything the boundary decision can do, `n` being the advanced count (R161 to R163). -/
theorem boundaryPart_spec (c : Cfg) (d : Drum) (k : SlotIx) (s : State) (y : Num32) :
    boundaryPart c d k s y =
      let n := (s.layer d.layer).cnt + 1
      if n.toNat ≤ c.params.nthr d then (s.setCnt d.layer n, y)
      else if (s.slot k).active then (restartEpisode d (s.setCnt d.layer n), y)
      else (s.setCnt d.layer n, c.num.ofNat 0) := by
  simp only [boundaryPart, setCnt_layer, if_true]
  by_cases hb : c.params.nthr d < ((s.layer d.layer).cnt + 1).toNat
  · rw [if_pos hb, if_neg (Nat.not_le.mpr hb)]
    by_cases ha : ((s.setCnt d.layer ((s.layer d.layer).cnt + 1)).slot k).active = true
    · rw [if_pos ha]
      exact (if_pos ha).symm
    · have := setSlot_self (s.setCnt d.layer ((s.layer d.layer).cnt + 1)) k
      rw [Bool.eq_false_iff.mpr ha] at this
      rw [if_neg ha, this]
      exact (if_neg ha).symm
  · rw [if_neg hb, if_pos (Nat.not_lt.mp hb)]

/-- The named outcomes of the boundary are what the decision does: Held starts the counters again and
keeps the value, Released gives zero (R162, R163, R171). -/
theorem boundaryPart_boundaryOf (c : Cfg) (d : Drum) (k : SlotIx) (s : State) (y : Num32) :
    boundaryPart c d k s y =
      let t := s.setCnt d.layer ((s.layer d.layer).cnt + 1)
      if boundaryOf c d k s = some .held then (restartEpisode d t, y)
      else if boundaryOf c d k s = some .released then (t, c.num.ofNat 0)
      else (t, y) := by
  rw [boundaryPart_spec]
  unfold boundaryOf
  generalize (s.layer d.layer).cnt + 1 = n
  by_cases hb : n.toNat ≤ c.params.nthr d
  · simp only [if_pos hb, if_neg (Nat.not_lt.mpr hb), reduceCtorEq, if_false]
  · simp only [if_neg hb, if_pos (Nat.not_le.mp hb)]
    cases (s.slot k).active <;> rfl

/-- The whole result of a STEP of a drum with a transient layer `T` and no noise (R160 to R163,
R166). -/
theorem drumStep_transient (c : Cfg) (d : Drum) (k : SlotIx) (s : State) (T : Layer)
    (hT : transLayer d = some T) (hn : noiseGain c.params d = none) :
    drumStep c d k s =
      let o := waveOf c d.layer s
      let oT := waveOf c T s
      let y := if c.num.flt (elapsed c.num c.params (s.layer T).cnt.toNat)
          (c.num.ofRat (subWin c.params d)) then c.num.fadd o.out oT.out else o.out
      let n := (s.layer d.layer).cnt + 1
      let nT := (s.layer T).cnt + 1
      let t := fun (a b : BitVec 32) =>
        (s.setLayer d.layer (stepped o (s.layer d.layer) a)).setLayer T (stepped oT (s.layer T) b)
      if n.toNat ≤ c.params.nthr d then (t n nT, y)
      else if (s.slot k).active then (t 0 0, y)
      else (t n nT, c.num.ofNat 0) := by
  have hne := layer_ne_transLayer hT
  have hne' := hne.symm
  have h1 : ∀ (a b : LayerState) (m : BitVec 32),
      ((s.setLayer d.layer a).setLayer T b).setCnt d.layer m
        = (s.setLayer d.layer { a with cnt := m }).setLayer T b := by
    intro a b m
    rw [setCnt_setLayer_ne hne', setCnt_setLayer]
  simp only [drumStep, noisePart, hn, transientPart, hT, layerWave, boundaryPart_spec,
    setLayer_layer, hne, hne', if_true, if_false, setCnt_setLayer, setLayer_slot, h1,
    restartEpisode, setLayer_var]
  rfl

/-- The whole result of a STEP of a drum with a noise layer and no transient layer (R160 to R163,
R168). -/
theorem drumStep_noise (c : Cfg) (d : Drum) (k : SlotIx) (s : State) (g : ℚ)
    (hT : transLayer d = none) (hn : noiseGain c.params d = some g) :
    drumStep c d k s =
      let o := waveOf c d.layer s
      let y := c.num.fadd o.out
        (c.num.fmul (c.num.fmul (c.num.ofRat g) o.amp) (c.draw s.noiseIx))
      let n := (s.layer d.layer).cnt + 1
      let t := fun (a : BitVec 32) =>
        { s.setLayer d.layer (stepped o (s.layer d.layer) a) with noiseIx := s.noiseIx + 1 }
      if n.toNat ≤ c.params.nthr d then (t n, y)
      else if (s.slot k).active then (t 0, y)
      else (t n, c.num.ofNat 0) := by
  have h1 : ∀ (v : LayerState) (a : BitVec 32) (m : Nat),
      ({ s.setLayer d.layer v with noiseIx := m } : State).setCnt d.layer a
        = { s.setLayer d.layer { v with cnt := a } with noiseIx := m } := by
    intro v a m
    exact congrArg (fun w : State => { w with noiseIx := m }) (setCnt_setLayer d.layer v a s)
  have h2 : ∀ (v : LayerState) (m : Nat),
      ({ s.setLayer d.layer v with noiseIx := m } : State).layer d.layer = v := by
    intro v m
    exact (setLayer_layer d.layer v s d.layer).trans (if_pos rfl)
  have h3 : ∀ (v : LayerState) (m : Nat),
      ({ s.setLayer d.layer v with noiseIx := m } : State).slot k = s.slot k := fun _ _ => rfl
  simp only [drumStep, noisePart, hn, transientPart, hT, layerWave, boundaryPart_spec, h1, h2, h3,
    restartEpisode, setLayer_noiseIx]
  rfl

/-- No STEP writes a frequency shift (R36). -/
theorem drumStep_fshift (c : Cfg) (d : Drum) (k : SlotIx) (s : State) (L : Layer) :
    ((drumStep c d k s).1.layer L).fshift = (s.layer L).fshift := by
  have h1 : ∀ (s : State) (M : Layer) (v : BitVec 32),
      ((s.setCnt M v).layer L).fshift = (s.layer L).fshift := by
    intro s M v
    rw [setCnt_layer]
    split <;> simp_all
  have h2 : ∀ s : State, ((restartEpisode d s).layer L).fshift = (s.layer L).fshift := by
    intro s
    unfold restartEpisode
    split <;> simp only [h1]
  have h3 : ∀ (M : Layer) (s : State), ((layerWave c M s).1.layer L).fshift = (s.layer L).fshift := by
    intro M s
    simp only [layerWave, setLayer_layer]
    split <;> simp_all
  have h4 : ∀ (s : State) (y : Num32),
      ((transientPart c d s y).1.layer L).fshift = (s.layer L).fshift := by
    intro s y
    unfold transientPart
    split <;> simp only [h1, h3]
  have h5 : ∀ (s : State) (y : Num32), (noisePart c d s y).1.layer L = s.layer L := by
    intro s y
    unfold noisePart
    split <;> rfl
  simp only [drumStep, boundaryPart_spec]
  split
  · simp only [h1, h5, h4, h3]
  · split <;> simp only [h1, h2, h5, h4, h3]

/-- Two states alike in all that a STEP reads: the layers, the variants, the pool and the draw
index. -/
def SoundsAlike (s t : State) : Prop :=
  t.layers = s.layers ∧ t.var = s.var ∧ t.slots = s.slots ∧ t.noiseIx = s.noiseIx

theorem layer_congr {s t : State} (h : SoundsAlike s t) (L : Layer) : t.layer L = s.layer L := by
  simp only [State.layer, h.1]

theorem setLayer_congr {s t : State} (h : SoundsAlike s t) (L : Layer) (v : LayerState) :
    SoundsAlike (s.setLayer L v) (t.setLayer L v) :=
  ⟨by simp only [State.setLayer, h.1], h.2⟩

theorem setCnt_congr {s t : State} (h : SoundsAlike s t) (L : Layer) (n : BitVec 32) :
    SoundsAlike (s.setCnt L n) (t.setCnt L n) := by
  unfold State.setCnt
  rw [layer_congr h]
  exact setLayer_congr h _ _

theorem layerWave_congr {s t : State} (h : SoundsAlike s t) (c : Cfg) (L : Layer) :
    SoundsAlike (layerWave c L s).1 (layerWave c L t).1
      ∧ (layerWave c L t).2 = (layerWave c L s).2 := by
  simp only [layerWave, layer_congr h, h.2.1]
  exact ⟨setLayer_congr h _ _, trivial⟩

theorem transientPart_congr {s t : State} (h : SoundsAlike s t) (c : Cfg) (d : Drum) (y : Num32) :
    SoundsAlike (transientPart c d s y).1 (transientPart c d t y).1
      ∧ (transientPart c d t y).2 = (transientPart c d s y).2 := by
  unfold transientPart
  cases transLayer d with
  | none => exact ⟨h, rfl⟩
  | some T =>
    have hw := layerWave_congr h c T
    simp only [layer_congr hw.1, hw.2, layer_congr h]
    exact ⟨setCnt_congr hw.1 _ _, trivial⟩

theorem noisePart_congr {s t : State} (h : SoundsAlike s t) (c : Cfg) (d : Drum) (y : Num32) :
    SoundsAlike (noisePart c d s y).1 (noisePart c d t y).1
      ∧ (noisePart c d t y).2 = (noisePart c d s y).2 := by
  unfold noisePart
  cases noiseGain c.params d with
  | none => exact ⟨h, rfl⟩
  | some g =>
    simp only [layer_congr h, h.2.2.2]
    exact ⟨⟨h.1, h.2.1, h.2.2.1, rfl⟩, trivial⟩

theorem boundaryPart_congr {s t : State} (h : SoundsAlike s t) (c : Cfg) (d : Drum) (k : SlotIx)
    (y : Num32) : SoundsAlike (boundaryPart c d k s y).1 (boundaryPart c d k t y).1
      ∧ (boundaryPart c d k t y).2 = (boundaryPart c d k s y).2 := by
  have hs : t.slot k = s.slot k := by simp only [State.slot, h.2.2.1]
  simp only [boundaryPart_spec, layer_congr h, hs]
  have hc := setCnt_congr h d.layer ((s.layer d.layer).cnt + 1)
  split
  · exact ⟨hc, rfl⟩
  · split
    · refine ⟨?_, rfl⟩
      unfold restartEpisode
      split
      · exact setCnt_congr hc _ _
      · exact setCnt_congr (setCnt_congr hc _ _) _ _
    · exact ⟨hc, rfl⟩

/-- A STEP reads the layers, the variants, the pool and the draw index, and nothing else (R160). -/
theorem drumStep_congr {s t : State} (h : SoundsAlike s t) (c : Cfg) (d : Drum) (k : SlotIx) :
    SoundsAlike (drumStep c d k s).1 (drumStep c d k t).1
      ∧ (drumStep c d k t).2 = (drumStep c d k s).2 := by
  have h1 := layerWave_congr h c d.layer
  have h2 := transientPart_congr h1.1 c d (layerWave c d.layer s).2
  have h3 := noisePart_congr h2.1 c d (transientPart c d (layerWave c d.layer s).1
    (layerWave c d.layer s).2).2
  simp only [drumStep, h1.2, h2.2, h3.2]
  exact boundaryPart_congr h3.1 c d k _

end Sys2Proof.Laws
end

