-- ==== Sys2Proof/Laws/Mixer.lean ====
section
/-! SUPPORT. What the block processor and the controls can do, said once: the frame of a mixer turn,
the outcomes of SAMPLE, BLOCK_START and BLOCK, and everything POLL writes. -/

namespace Sys2Proof.Laws

open Sys2Proof.Machine

/-- A mixer turn writes layers, accumulators and the draw index, and nothing else (R204). -/
theorem mixSlot_frame (c : Cfg) (s : State) (k : SlotIx) :
    mixSlot c s k = { s with
      layers := (mixSlot c s k).layers, acc := (mixSlot c s k).acc
      noiseIx := (mixSlot c s k).noiseIx } := by
  unfold mixSlot
  split
  · split
    · rfl
    · dsimp only [State.setAcc]
      rw [drumStep_frame]
  · rfl

/-- A slot that dispatches no step leaves the state as it is (R209). -/
theorem mixSlot_silent (c : Cfg) (s : State) (k : SlotIx)
    (h : Safety.Silent c.params (s.slot k)) : mixSlot c s k = s := by
  unfold mixSlot
  split
  · next ha =>
    split
    · rfl
    · next d hd => exact absurd (drumOf_some hd) (h ha d)
  · rfl

/-- A slot that holds a drum's note runs that drum's STEP and adds its weighted value (R204, R205). -/
theorem mixSlot_drum (c : Cfg) (hp : c.params.valid = true) (s : State) (d : Drum) (k : SlotIx)
    (h : s.slot k = ⟨c.params.note d, true⟩) :
    mixSlot c s k = (drumStep c d k s).1.setAcc d
      (c.num.fadd ((drumStep c d k s).1.accOf d)
        (c.num.fmul (c.num.ofNat (mixWeight d)) (drumStep c d k s).2)) := by
  unfold mixSlot
  rw [h]
  simp only [if_true, drumOf_note hp]

/-- Turns for a list of slots have the frame of one turn. -/
theorem mixFold_frame (c : Cfg) (ks : List SlotIx) (s : State) :
    ks.foldl (mixSlot c) s = { s with
      layers := (ks.foldl (mixSlot c) s).layers, acc := (ks.foldl (mixSlot c) s).acc
      noiseIx := (ks.foldl (mixSlot c) s).noiseIx } := by
  induction ks generalizing s with
  | nil => rfl
  | cons k ks ih =>
    rw [List.foldl_cons, ih, mixSlot_frame]

/-- The scan of one sample writes layers, accumulators and the draw index, and nothing else. -/
theorem mixAll_frame (c : Cfg) (s : State) :
    mixAll c s = { s with
      layers := (mixAll c s).layers, acc := (mixAll c s).acc, noiseIx := (mixAll c s).noiseIx } := by
  unfold mixAll
  rw [mixFold_frame]
  rfl

/-- Everything SAMPLE can do (R204, R210). -/
theorem sample_spec (c : Cfg) (s : State) :
    (s.busy = false ∧ sample c s = .refused .sampleWhileIdle)
    ∨ (s.busy = true ∧ c.params.blockSize ≤ s.i ∧ sample c s = .fault .outputIndexOutOfRange)
    ∨ (s.busy = true ∧ s.i < c.params.blockSize ∧ sample c s = .next { s with
        layers := (mixAll c s).layers, acc := (mixAll c s).acc, noiseIx := (mixAll c s).noiseIx
        outL := Buffer.write s.outL s.i (mixSum c (mixAll c s))
        outR := Buffer.write s.outR s.i (mixSum c (mixAll c s))
        i := s.i + 1, busy := decide (s.i + 1 ≠ c.params.blockSize) }) := by
  cases hb : s.busy with
  | false => exact .inl ⟨rfl, by simp [sample, hb]⟩
  | true =>
    right
    by_cases hi : c.params.blockSize ≤ s.i
    · exact .inl ⟨rfl, hi, by simp [sample, hb, hi]⟩
    · refine .inr ⟨rfl, by omega, ?_⟩
      have h1 : ∀ t : State, t = { s with
          layers := t.layers, acc := t.acc, noiseIx := t.noiseIx } →
          ({ outWriteBoth t t.i (mixSum c t) with
            i := t.i + 1, busy := decide (t.i + 1 ≠ c.params.blockSize) } : State) = { s with
              layers := t.layers, acc := t.acc, noiseIx := t.noiseIx
              outL := Buffer.write s.outL s.i (mixSum c t)
              outR := Buffer.write s.outR s.i (mixSum c t)
              i := s.i + 1, busy := decide (s.i + 1 ≠ c.params.blockSize) } := by
        intro t ht
        have hL := congrArg State.outL ht
        have hR := congrArg State.outR ht
        have hI := congrArg State.i ht
        dsimp only at hL hR hI
        rw [hI]
        dsimp only [outWriteBoth]
        rw [hL, hR]
        generalize mixSum c t = m
        rw [ht]
      simp only [sample, hb, hi, Bool.not_true, Bool.false_eq_true, if_false]
      exact congrArg Host.Outcome.next (h1 _ (mixAll_frame c s))

/-- A block's samples run to its end (R210). -/
theorem samples_complete (c : Cfg) (n : Nat) (s : State)
    (hb : s.busy = decide (s.i ≠ c.params.blockSize)) (hn : s.i + n = c.params.blockSize) :
    ∃ t, samples c n s = .next t ∧ t.i = c.params.blockSize ∧ t.busy = false := by
  induction n generalizing s with
  | zero => exact ⟨s, rfl, by omega, by rw [hb]; simp; omega⟩
  | succ n ih =>
    rcases sample_spec c s with ⟨h1, _⟩ | ⟨_, h2, _⟩ | ⟨_, _, h3⟩
    · rw [hb] at h1
      simp at h1
      omega
    · omega
    · have := ih { s with
        layers := (mixAll c s).layers, acc := (mixAll c s).acc, noiseIx := (mixAll c s).noiseIx
        outL := Buffer.write s.outL s.i (mixSum c (mixAll c s))
        outR := Buffer.write s.outR s.i (mixSum c (mixAll c s))
        i := s.i + 1, busy := decide (s.i + 1 ≠ c.params.blockSize) } rfl (by
          simp only; omega)
      simpa only [samples, h3] using this

/-- What every SAMPLE keeps, a block's samples keep. -/
theorem samples_keep (c : Cfg) (P : State → Prop)
    (hP : ∀ s t, P s → sample c s = .next t → P t) (n : Nat) (s t : State) (hs : P s)
    (h : samples c n s = .next t) : P t := by
  induction n generalizing s with
  | zero => cases h; exact hs
  | succ n ih =>
    simp only [samples] at h
    cases h1 : sample c s with
    | next u => rw [h1] at h; exact ih u (hP s u hs h1) h
    | fault r => rw [h1] at h; cases h
    | refused r => rw [h1] at h; cases h

/-- A cycle-variant branch of POLL writes `var` and `btn` and nothing else (R223). -/
theorem pollVariant_frame (v : VarIx) (s : State) :
    pollVariant v s = { s with var := (pollVariant v s).var, btn := (pollVariant v s).btn } := by
  unfold pollVariant
  split <;> rfl

/-- The panic branch of POLL writes `btn`, the pool and the accumulators, and nothing else (R223). -/
theorem pollPanic_frame (c : Cfg) (s : State) :
    pollPanic c s = { s with
      btn := (pollPanic c s).btn, slots := (pollPanic c s).slots, acc := (pollPanic c s).acc } := by
  unfold pollPanic
  split <;> rfl

/-- Everything POLL writes (R223): each counter with a pressed button one further, no flag left, and
on panic RESET_ALL. -/
theorem poll_spec (c : Cfg) (s : State) :
    poll c s = { s with
      var := Vector.ofFn fun v =>
        if s.btn.get (Fin.castLE (by decide) v) then s.var.get v + 1 else s.var.get v
      btn := Vector.replicate 4 false
      slots := if s.btn.get 3 then (silenceAll s).slots else s.slots
      acc := if s.btn.get 3 then Vector.replicate 5 (c.num.ofNat 0) else s.acc } := by
  obtain ⟨slots, phase, f1, f2, note, ⟨⟨var⟩, hv⟩, ⟨⟨btn⟩, hb⟩, layers, acc, busy, i, oL, oR, ov, ib, nx,
    r⟩ := s
  match var, hv, btn, hb with
  | [v0, v1, v2], _, [b0, b1, b2, b3], _ =>
    cases b0 <;> cases b1 <;> cases b2 <;> cases b3 <;> rfl

/-- POLL leaves everything else alone (R223, R226). -/
theorem poll_frame (c : Cfg) (s : State) :
    poll c s = { s with
      var := (poll c s).var, btn := (poll c s).btn, slots := (poll c s).slots
      acc := (poll c s).acc } := by
  rw [poll_spec]

/-- Everything BLOCK_START can do (R202). -/
theorem blockStart_spec (c : Cfg) (f : Num32) (s : State) :
    (s.busy = true ∧ blockStart c f s = .refused .blockStartWhileBusy)
    ∨ (s.busy = false ∧ blockStart c f s = .next { s with
        layers := (latchShift f s).layers, var := (poll c s).var, btn := (poll c s).btn
        slots := (poll c s).slots, acc := (poll c s).acc, busy := true, i := 0 }) := by
  cases hb : s.busy with
  | true => exact .inl ⟨rfl, by simp [blockStart, hb]⟩
  | false =>
    refine .inr ⟨rfl, ?_⟩
    simp only [blockStart, hb, Bool.false_eq_true, if_false]
    rw [poll_spec c (latchShift f s), poll_spec c s]
    rfl

/-- BLOCK ends, from any state with no block in progress (R211). -/
theorem runBlock_complete (c : Cfg) (f : Num32) (s : State) (hc : 1 ≤ c.params.blockSize)
    (hb : s.busy = false) :
    ∃ t, runBlock c f s = .next t ∧ t.i = c.params.blockSize ∧ t.busy = false := by
  rcases blockStart_spec c f s with ⟨h, _⟩ | ⟨_, h⟩
  · rw [hb] at h; cases h
  · simp only [runBlock, h]
    exact samples_complete c _ _ (by simp; omega) (by simp)

end Sys2Proof.Laws
end

