-- ==== Sys2Proof/Laws/Numerics.lean ====
section
/-! SUPPORT. The fields of a packed value, and what the operations of R182 do on NaN, infinite and
zero operands. -/

namespace Sys2Proof.Laws

open Sys2Proof.Num32

theorem pack_toNat (s : Bool) {b : Nat} (h : b < 2 ^ 31) :
    (pack s b).toNat = b + if s then 2 ^ 31 else 0 := by
  unfold pack
  rw [BitVec.toNat_ofNat, Nat.mod_eq_of_lt]
  split <;> omega

@[simp] theorem sign_pack (s : Bool) {b : Nat} (h : b < 2 ^ 31) : sign (pack s b) = s := by
  unfold sign
  rw [pack_toNat s h]
  cases s
  · simp
    omega
  · simp

theorem expField_pack (s : Bool) {b : Nat} (h : b < 2 ^ 31) : expField (pack s b) = b / 2 ^ 23 := by
  unfold expField
  rw [pack_toNat s h]
  split <;> omega

theorem fracField_pack (s : Bool) {b : Nat} (h : b < 2 ^ 31) :
    fracField (pack s b) = b % 2 ^ 23 := by
  unfold fracField
  rw [pack_toNat s h]
  split <;> omega

/-- The bits of a value are its sign bit, its exponent field and its fraction field (R180). -/
theorem toNat_eq (x : Num32) :
    x.toNat = expField x * 2 ^ 23 + fracField x + if sign x then 2 ^ 31 else 0 := by
  have hx : x.toNat < 2 ^ 32 := x.isLt
  unfold expField fracField sign
  by_cases h : 2 ^ 31 ≤ x.toNat
  · rw [if_pos (by simpa using h)]
    omega
  · rw [if_neg (by simpa using h)]
    omega

theorem expField_lt (x : Num32) : expField x < 2 ^ 8 := Nat.mod_lt _ (by decide)

theorem fracField_lt (x : Num32) : fracField x < 2 ^ 23 := Nat.mod_lt _ (by decide)

/-- Sign, exponent and fraction put together are the value. -/
theorem pack_fields (x : Num32) : pack (sign x) (expField x * 2 ^ 23 + fracField x) = x := by
  have h1 := expField_lt x
  have h2 := fracField_lt x
  apply BitVec.eq_of_toNat_eq
  rw [pack_toNat _ (by omega), toNat_eq x]

/-- Every value is finite, infinite or a NaN, and one of these alone. -/
theorem class_cases (x : Num32) :
    (isFinite x = true ∧ isInf x = false ∧ isNaN x = false)
    ∨ (isFinite x = false ∧ isInf x = true ∧ isNaN x = false)
    ∨ (isFinite x = false ∧ isInf x = false ∧ isNaN x = true) := by
  unfold isFinite isInf isNaN
  by_cases h1 : expField x = 255 <;> by_cases h2 : fracField x = 0 <;> simp [h1, h2]

/-- A magnitude is zero for the two zeros alone. -/
theorem mag_eq_zero (x : Num32) : mag x = 0 ↔ isZero x = true := by
  unfold mag isZero
  by_cases h : expField x = 0
  · simp [h]
  · simp [h]

theorem scaled_eq_zero (x : Num32) : scaled x = 0 ↔ isZero x = true := by
  rw [← mag_eq_zero]
  unfold scaled
  split <;> omega

theorem isZero_isFinite {x : Num32} (h : isZero x = true) : isFinite x = true := by
  unfold isZero at h
  unfold isFinite
  simp only [Bool.and_eq_true, beq_iff_eq] at h
  simp [h.1]

/-- Each zero is `+0` or `-0`, by its sign. -/
theorem isZero_eq {x : Num32} (h : isZero x = true) : x = if sign x then negZero else posZero := by
  unfold isZero at h
  simp only [Bool.and_eq_true, beq_iff_eq] at h
  have := pack_fields x
  rw [h.1, h.2] at this
  rw [← this]
  cases sign x <;> decide

/-! Sign flip -/

theorem fneg_toNat (x : Num32) :
    (fneg x).toNat = if 2 ^ 31 ≤ x.toNat then x.toNat - 2 ^ 31 else x.toNat + 2 ^ 31 := by
  have hx : x.toNat < 2 ^ 32 := x.isLt
  have h : (fneg x).toNat = x.toNat ^^^ 2 ^ 31 := by simp [fneg]
  have hd : (x.toNat ^^^ 2 ^ 31) / 2 ^ 31 = x.toNat / 2 ^ 31 ^^^ 1 := Nat.xor_div_two_pow
  have hm : (x.toNat ^^^ 2 ^ 31) % 2 ^ 31 = x.toNat % 2 ^ 31 := by
    rw [Nat.xor_mod_two_pow, Nat.mod_self, Nat.xor_zero]
  rw [h]
  by_cases hs : 2 ^ 31 ≤ x.toNat
  · rw [show x.toNat / 2 ^ 31 = 1 by omega, Nat.xor_self] at hd
    rw [if_pos hs]
    omega
  · rw [show x.toNat / 2 ^ 31 = 0 by omega, Nat.zero_xor] at hd
    rw [if_neg hs]
    omega

@[simp] theorem fneg_sign (x : Num32) : sign (fneg x) = !sign x := by
  have hx : x.toNat < 2 ^ 32 := x.isLt
  unfold sign
  rw [fneg_toNat, ← decide_not]
  apply decide_eq_decide.mpr
  split <;> omega

@[simp] theorem fneg_expField (x : Num32) : expField (fneg x) = expField x := by
  have hx : x.toNat < 2 ^ 32 := x.isLt
  unfold expField
  rw [fneg_toNat]
  split <;> omega

@[simp] theorem fneg_fracField (x : Num32) : fracField (fneg x) = fracField x := by
  have hx : x.toNat < 2 ^ 32 := x.isLt
  unfold fracField
  rw [fneg_toNat]
  split <;> omega

@[simp] theorem fneg_mag (x : Num32) : mag (fneg x) = mag x := by
  simp [mag]

/-! NaN results -/

/-- The bit that makes a NaN quiet is set, and the exponent is all ones. -/
theorem quiet_bits (x : Num32) : isNaN (quiet x) = true ∧ (quiet x).getLsbD 22 = true := by
  have hb : ∀ j, 22 ≤ j → j < 31 → (quiet x).getLsbD j = true := by
    intro j h1 h2
    have : (0x7FC00000#32).getLsbD j = true := by
      have : ∀ j : Fin 32, 22 ≤ j.val → j.val < 31 → (0x7FC00000#32).getLsbD j.val = true := by
        decide
      exact this ⟨j, by omega⟩ h1 h2
    simp only [quiet, BitVec.getLsbD_or, this, Bool.or_true]
  refine ⟨?_, hb 22 (by decide) (by decide)⟩
  have hn : ∀ j, 22 ≤ j → j < 31 → (quiet x).toNat / 2 ^ j % 2 = 1 := by
    intro j h1 h2
    have := hb j h1 h2
    rw [BitVec.getLsbD, Nat.testBit_eq_decide_div_mod_eq] at this
    simpa using this
  have h22 := hn 22 (by decide) (by decide)
  have h23 := hn 23 (by decide) (by decide)
  have h24 := hn 24 (by decide) (by decide)
  have h25 := hn 25 (by decide) (by decide)
  have h26 := hn 26 (by decide) (by decide)
  have h27 := hn 27 (by decide) (by decide)
  have h28 := hn 28 (by decide) (by decide)
  have h29 := hn 29 (by decide) (by decide)
  have h30 := hn 30 (by decide) (by decide)
  have he : expField (quiet x) = 255 := by
    unfold expField
    omega
  have hf : fracField (quiet x) ≠ 0 := by
    unfold fracField
    omega
  simp [isNaN, he, hf]

theorem isNaN_nan (op : NumOp) (a b : Num32) : isNaN (nan op a b) = true := (quiet_bits _).1

/-- A NaN operand of an addition gives the NaN (R182). -/
theorem addCore_nan {n a b : Num32} (h : isNaN a = true ∨ isNaN b = true) : addCore n a b = n := by
  have : (isNaN a || isNaN b) = true := by simpa using h
  simp [addCore, this]

theorem fadd_nan {a b : Num32} (h : isNaN a = true ∨ isNaN b = true) : isNaN (fadd a b) = true := by
  rw [fadd, addCore_nan h]
  exact isNaN_nan _ _ _

theorem fmul_nan {a b : Num32} (h : isNaN a = true ∨ isNaN b = true) : isNaN (fmul a b) = true := by
  have : (isNaN a || isNaN b) = true := by simpa using h
  simp only [fmul, this, if_true]
  exact isNaN_nan _ _ _

/-! Rounding -/

theorem roundMag_zero (d : Nat) : roundMag 0 d = 0 := by
  simp [roundMag, roundEven]

theorem roundMag_le (n d : Nat) : roundMag n d ≤ infBits := Nat.min_le_left _ _

theorem roundMag_lt (n d : Nat) : roundMag n d < 2 ^ 31 :=
  Nat.lt_of_le_of_lt (roundMag_le n d) (by decide)

/-- A product with a zero whose other operand is finite is a zero, signed by the rule of signs
(R182). -/
theorem fmul_zero {a b : Num32} (ha : isFinite a = true) (hb : isFinite b = true)
    (hz : isZero a = true ∨ isZero b = true) : fmul a b = pack (sign a != sign b) 0 := by
  have ca := class_cases a
  have cb := class_cases b
  have hm : mag a * mag b = 0 := by
    rcases hz with h | h
    · rw [(mag_eq_zero a).mpr h, Nat.zero_mul]
    · rw [(mag_eq_zero b).mpr h, Nat.mul_zero]
  simp only [fmul, hm, roundMag_zero]
  simp_all

/-- A zero over a finite value that is not zero is a zero (R182). -/
theorem fdiv_zero {a b : Num32} (hb : isFinite b = true) (hz : isZero a = true)
    (hn : isZero b = false) : fdiv a b = pack (sign a != sign b) 0 := by
  have ca := class_cases a
  have cb := class_cases b
  have ha := isZero_isFinite hz
  simp only [fdiv, (mag_eq_zero a).mpr hz, roundMag_zero]
  simp_all

end Sys2Proof.Laws
end

