-- ==== Sys2Proof/Laws/PerInstr.lean ====
section
/-! SUPPORT. Statements made of every instruction as syntax, one lemma per constructor. -/

namespace Sys2Proof.Laws

/-- An instruction has an encoding, whatever the parameters, unless it is of format INT (R83). -/
def EncodedUnlessInternal.Statement (i : Instr) : Prop :=
  ∀ p : Params, (encode p i).isSome = (i.format != .int)

theorem EncodedUnlessInternal.noteOn (n v : Byte) :
    EncodedUnlessInternal.Statement (.noteOn n v) := fun _ => rfl

theorem EncodedUnlessInternal.noteOff (n v : Byte) :
    EncodedUnlessInternal.Statement (.noteOff n v) := fun _ => rfl

theorem EncodedUnlessInternal.ignore (st n v : Byte) :
    EncodedUnlessInternal.Statement (.ignore st n v) := fun _ => rfl

theorem EncodedUnlessInternal.feedStatus (b : Byte) :
    EncodedUnlessInternal.Statement (.feedStatus b) := fun _ => rfl

theorem EncodedUnlessInternal.feedNote (b : Byte) :
    EncodedUnlessInternal.Statement (.feedNote b) := fun _ => rfl

theorem EncodedUnlessInternal.feedVelocity (b : Byte) :
    EncodedUnlessInternal.Statement (.feedVelocity b) := fun _ => rfl

theorem EncodedUnlessInternal.kickStep (k : SlotIx) :
    EncodedUnlessInternal.Statement (.kickStep k) := fun _ => rfl

theorem EncodedUnlessInternal.snareStep (k : SlotIx) :
    EncodedUnlessInternal.Statement (.snareStep k) := fun _ => rfl

theorem EncodedUnlessInternal.midTomStep (k : SlotIx) :
    EncodedUnlessInternal.Statement (.midTomStep k) := fun _ => rfl

theorem EncodedUnlessInternal.highTomStep (k : SlotIx) :
    EncodedUnlessInternal.Statement (.highTomStep k) := fun _ => rfl

theorem EncodedUnlessInternal.hiHatStep (k : SlotIx) :
    EncodedUnlessInternal.Statement (.hiHatStep k) := fun _ => rfl

theorem EncodedUnlessInternal.noStep (k : SlotIx) (n : Byte) :
    EncodedUnlessInternal.Statement (.noStep k n) := fun _ => rfl

theorem EncodedUnlessInternal.allocate (n : Byte) :
    EncodedUnlessInternal.Statement (.allocate n) := fun _ => rfl

theorem EncodedUnlessInternal.release (n : Byte) :
    EncodedUnlessInternal.Statement (.release n) := fun _ => rfl

theorem EncodedUnlessInternal.resetAll :
    EncodedUnlessInternal.Statement .resetAll := fun _ => rfl

theorem EncodedUnlessInternal.poll :
    EncodedUnlessInternal.Statement .poll := fun _ => rfl

theorem EncodedUnlessInternal.press (k : Button) :
    EncodedUnlessInternal.Statement (.press k) := fun _ => rfl

theorem EncodedUnlessInternal.blockStart (f : Num32) :
    EncodedUnlessInternal.Statement (.blockStart f) := fun _ => rfl

theorem EncodedUnlessInternal.sample :
    EncodedUnlessInternal.Statement .sample := fun _ => rfl

theorem EncodedUnlessInternal.overrun :
    EncodedUnlessInternal.Statement .overrun := fun _ => rfl

theorem EncodedUnlessInternal.reset :
    EncodedUnlessInternal.Statement .reset := fun _ => rfl

theorem EncodedUnlessInternal.feed (b : Byte) :
    EncodedUnlessInternal.Statement (.feed b) := fun _ => rfl

theorem EncodedUnlessInternal.msg (st n v : Byte) :
    EncodedUnlessInternal.Statement (.msg st n v) := fun _ => rfl

theorem EncodedUnlessInternal.noteonMsg (n v : Byte) :
    EncodedUnlessInternal.Statement (.noteonMsg n v) := fun _ => rfl

theorem EncodedUnlessInternal.noteoffMsg (n v : Byte) :
    EncodedUnlessInternal.Statement (.noteoffMsg n v) := fun _ => rfl

theorem EncodedUnlessInternal.block (f : Num32) :
    EncodedUnlessInternal.Statement (.block f) := fun _ => rfl

theorem EncodedUnlessInternal.panic :
    EncodedUnlessInternal.Statement .panic := fun _ => rfl

theorem EncodedUnlessInternal.kickMsg :
    EncodedUnlessInternal.Statement .kickMsg := fun _ => rfl

theorem EncodedUnlessInternal.snareMsg :
    EncodedUnlessInternal.Statement .snareMsg := fun _ => rfl

end Sys2Proof.Laws
end

