-- ==== Sys2Proof/Laws/Pool.lean ====
section
/-! SUPPORT. What the pool operations and the decoder phases can do, said once: the scans of ALLOCATE
and RELEASE, the result of each, and the frame of a FEED. -/

namespace Sys2Proof.Laws

open Sys2Proof.Machine

/-- ALLOCATE's scan finds the first inactive slot of the list, or every slot is active. -/
theorem firstFree_spec (s : State) (ks : List SlotIx) :
    (∃ pre k post, ks = pre ++ k :: post ∧ firstFree s ks = some k ∧ (s.slot k).active = false
      ∧ ∀ q ∈ pre, (s.slot q).active = true)
    ∨ (firstFree s ks = none ∧ ∀ q ∈ ks, (s.slot q).active = true) := by
  induction ks with
  | nil => right; exact ⟨rfl, by simp⟩
  | cons k ks ih =>
    cases hk : (s.slot k).active with
    | false =>
      left; exact ⟨[], k, ks, rfl, by simp [firstFree, hk], hk, by simp⟩
    | true =>
      have hf : firstFree s (k :: ks) = firstFree s ks := by simp [firstFree, hk]
      rcases ih with ⟨pre, q, post, h1, h2, h3, h4⟩ | ⟨h1, h2⟩
      · left
        refine ⟨k :: pre, q, post, by simp [h1], by rw [hf, h2], h3, ?_⟩
        intro r hr
        rcases List.mem_cons.mp hr with rfl | hr
        · exact hk
        · exact h4 r hr
      · right
        refine ⟨by rw [hf, h1], ?_⟩
        intro r hr
        rcases List.mem_cons.mp hr with rfl | hr
        · exact hk
        · exact h2 r hr

/-- RELEASE's scan finds the first active slot of the list that holds the note, or there is none. -/
theorem firstHolding_spec (s : State) (n : Byte) (ks : List SlotIx) :
    (∃ pre k post, ks = pre ++ k :: post ∧ firstHolding s n ks = some k ∧ s.slot k = ⟨n, true⟩
      ∧ ∀ q ∈ pre, s.slot q ≠ ⟨n, true⟩)
    ∨ (firstHolding s n ks = none ∧ ∀ q ∈ ks, s.slot q ≠ ⟨n, true⟩) := by
  induction ks with
  | nil => right; exact ⟨rfl, by simp⟩
  | cons k ks ih =>
    by_cases hk : s.slot k = ⟨n, true⟩
    · left; exact ⟨[], k, ks, rfl, by simp [firstHolding, hk], hk, by simp⟩
    · have hf : firstHolding s n (k :: ks) = firstHolding s n ks := by
        have : ((s.slot k).active && (s.slot k).note == n) = false := by
          rw [Bool.eq_false_iff]
          intro h
          simp only [Bool.and_eq_true, beq_iff_eq] at h
          apply hk
          cases hs : s.slot k
          simp_all
        simp [firstHolding, this]
      rcases ih with ⟨pre, q, post, h1, h2, h3, h4⟩ | ⟨h1, h2⟩
      · left
        refine ⟨k :: pre, q, post, by simp [h1], by rw [hf, h2], h3, ?_⟩
        intro r hr
        rcases List.mem_cons.mp hr with rfl | hr
        · exact hk
        · exact h4 r hr
      · right
        refine ⟨by rw [hf, h1], ?_⟩
        intro r hr
        rcases List.mem_cons.mp hr with rfl | hr
        · exact hk
        · exact h2 r hr

/-- Every slot is scanned. -/
theorem mem_slotIndices (k : SlotIx) : k ∈ slotIndices := by
  fin_cases k <;> simp [slotIndices]

/-- The slots scanned before `k` are those of lower index. -/
theorem slotIndices_split {pre post : List SlotIx} {k : SlotIx}
    (h : slotIndices = pre ++ k :: post) (q : SlotIx) : q ∈ pre ↔ q < k := by
  have hs : (pre ++ k :: post).Pairwise (· < ·) := by rw [← h]; decide
  rw [List.pairwise_append] at hs
  constructor
  · intro hq
    exact hs.2.2 q hq k List.mem_cons_self
  · intro hq
    have hm : q ∈ pre ++ k :: post := h ▸ mem_slotIndices q
    rcases List.mem_append.mp hm with hm | hm
    · exact hm
    · rcases List.mem_cons.mp hm with rfl | hm
      · exact absurd hq (lt_irrefl _)
      · exact absurd ((List.pairwise_cons.mp hs.2.1).1 q hm) (asymm hq)

/-- Everything ALLOCATE can do (R121). -/
theorem allocate_spec (n : Byte) (s : State) :
    (∃ k, (s.slot k).active = false ∧ (∀ q < k, (s.slot q).active = true)
      ∧ allocate n s = (s.setSlot k n true, true))
    ∨ ((∀ q, (s.slot q).active = true) ∧ allocate n s = (s, false)) := by
  rcases firstFree_spec s slotIndices with ⟨pre, k, post, h1, h2, h3, h4⟩ | ⟨h1, h2⟩
  · exact .inl ⟨k, h3, fun q hq => h4 q ((slotIndices_split h1 q).mpr hq), by simp [allocate, h2]⟩
  · exact .inr ⟨fun q => h2 q (mem_slotIndices q), by simp [allocate, h1]⟩

/-- Everything RELEASE can do (R123). -/
theorem release_spec (n : Byte) (s : State) :
    (∃ k, s.slot k = ⟨n, true⟩ ∧ (∀ q < k, s.slot q ≠ ⟨n, true⟩)
      ∧ release n s = (s.setSlot k n false, true))
    ∨ ((∀ q, s.slot q ≠ ⟨n, true⟩) ∧ release n s = (s, false)) := by
  rcases firstHolding_spec s n slotIndices with ⟨pre, k, post, h1, h2, h3, h4⟩ | ⟨h1, h2⟩
  · exact .inl ⟨k, h3, fun q hq => h4 q ((slotIndices_split h1 q).mpr hq), by simp [release, h2]⟩
  · exact .inr ⟨fun q => h2 q (mem_slotIndices q), by simp [release, h1]⟩

/-- ALLOCATE changes the pool and nothing else. -/
theorem allocate_frame (n : Byte) (s : State) :
    (allocate n s).1 = { s with slots := (allocate n s).1.slots } := by
  rcases allocate_spec n s with ⟨k, _, _, h⟩ | ⟨_, h⟩
  · rw [h]; rfl
  · rw [h]

/-- RELEASE changes the pool and nothing else. -/
theorem release_frame (n : Byte) (s : State) :
    (release n s).1 = { s with slots := (release n s).1.slots } := by
  rcases release_spec n s with ⟨k, _, _, h⟩ | ⟨_, h⟩
  · rw [h]; rfl
  · rw [h]

/-- Two pools differ in at most one slot. -/
def OneSlotDiffers (s t : State) : Prop := ∃ k, ∀ q, q ≠ k → t.slot q = s.slot q

theorem OneSlotDiffers_setSlot (s : State) (k : SlotIx) (n : Byte) (a : Bool) :
    OneSlotDiffers s (s.setSlot k n a) :=
  ⟨k, fun q hq => by rw [setSlot_slot, if_neg (Ne.symm hq)]⟩

theorem OneSlotDiffers_refl (s : State) : OneSlotDiffers s s := ⟨0, fun _ _ => rfl⟩

theorem allocate_oneSlot (n : Byte) (s : State) : OneSlotDiffers s (allocate n s).1 := by
  rcases allocate_spec n s with ⟨k, _, _, h⟩ | ⟨_, h⟩ <;> rw [h]
  · exact OneSlotDiffers_setSlot s k n true
  · exact OneSlotDiffers_refl s

theorem release_oneSlot (n : Byte) (s : State) : OneSlotDiffers s (release n s).1 := by
  rcases release_spec n s with ⟨k, _, _, h⟩ | ⟨_, h⟩ <;> rw [h]
  · exact OneSlotDiffers_setSlot s k n false
  · exact OneSlotDiffers_refl s

/-- Everything FEED.VELOCITY can do (R103). -/
theorem feedVelocity_spec (s : State) :
    (s.noteStartFlag = true ∧ feedVelocity s = { s with
        phase := .expectStatus, noteStartFlag := false
        slots := (allocate s.pendingNote s).1.slots })
    ∨ (s.noteStartFlag = false ∧ s.noteStopFlag = true ∧ feedVelocity s = { s with
        phase := .expectStatus, noteStopFlag := false
        slots := (release s.pendingNote s).1.slots })
    ∨ (s.noteStartFlag = false ∧ s.noteStopFlag = false ∧ feedVelocity s = { s with
        phase := .expectStatus }) := by
  have ha : ∀ (n : Byte) (t : State) (ph : Phase),
      (allocate n { t with phase := ph }).1 = { (allocate n t).1 with phase := ph } := by
    intro n t ph
    have h : firstFree { t with phase := ph } slotIndices = firstFree t slotIndices := rfl
    unfold allocate; rw [h]; split <;> rfl
  have hr : ∀ (n : Byte) (t : State) (ph : Phase),
      (release n { t with phase := ph }).1 = { (release n t).1 with phase := ph } := by
    intro n t ph
    have h : firstHolding { t with phase := ph } n slotIndices = firstHolding t n slotIndices := rfl
    unfold release; rw [h]; split <;> rfl
  cases h1 : s.noteStartFlag with
  | true =>
    left
    refine ⟨rfl, ?_⟩
    have : feedVelocity s = { (allocate s.pendingNote { s with phase := .expectStatus }).1 with
        noteStartFlag := false } := by simp [feedVelocity, h1]
    rw [this, ha, allocate_frame]
  | false =>
    cases h2 : s.noteStopFlag with
    | true =>
      right; left
      refine ⟨rfl, rfl, ?_⟩
      have : feedVelocity s = { (release s.pendingNote { s with phase := .expectStatus }).1 with
          noteStopFlag := false } := by simp [feedVelocity, h1, h2]
      rw [this, hr, release_frame]
      simp [h1]
    | false =>
      right; right
      exact ⟨rfl, rfl, by simp [feedVelocity, h1, h2]⟩

end Sys2Proof.Laws
end

