-- ==== Sys2Proof/Laws/Run.lean ====
section
/-! SUPPORT. Runs: a prefix of an infinite run is a finite run, and every event has an input that
carries it. -/

namespace Sys2Proof.Laws

open Sys2Proof.Machine

/-- Running two lists one after the other is running them joined. -/
theorem execAll_append {is js : List Instr} {s t : State} (h : execAll is s = .next t) :
    execAll (is ++ js) s = execAll js t := by
  induction is generalizing s with
  | nil => cases h; rfl
  | cons i is ih =>
    simp only [execAll, List.cons_append] at h ⊢
    cases he : exec i s with
    | next u => rw [he] at h; exact ih h
    | fault r => rw [he] at h; cases h
    | refused r => rw [he] at h; cases h

/-- The first `n + 1` events of an infinite run are a finite run (R285). -/
theorem IsInfiniteRun_prefix {ev : Nat → Instr} {st : Nat → State} (h : IsInfiniteRun ev st)
    (n : Nat) : IsRun ((List.range (n + 1)).map ev) (st 0) (st (n + 1)) := by
  refine ⟨?_, ?_, ?_⟩
  · simp [List.range_succ_eq_map, h.1]
  · intro i hi
    obtain ⟨k, _, rfl⟩ := List.mem_map.mp hi
    exact (h.2 k).1
  · have hp : ∀ m, execAll ((List.range m).map ev) (st 0) = .next (st m) := by
      intro m
      induction m with
      | zero => rfl
      | succ m ih =>
        rw [List.range_succ, List.map_append, execAll_append ih]
        simp [execAll, (h.2 m).2]
    exact hp (n + 1)

/-- Every event of R12 is what some input encodes; no internal operation is. -/
theorem isEvent_input {i : Instr} (p : Params) (h : isEvent i = true) :
    ∃ x : Input, encode p i = some x.raw := by
  cases i <;> simp only [isEvent, Bool.false_eq_true] at h
  · exact ⟨.ports _, rfl⟩
  · exact ⟨.ports _, rfl⟩
  · exact ⟨.line _, rfl⟩
  · exact ⟨.ports _, rfl⟩
  · exact ⟨.ports _, rfl⟩
  · exact ⟨.ports _, rfl⟩

/-- A trace line holds an event or a pseudo-instruction (R93, R94). -/
theorem decodeLine_format (l : TraceLine) :
    (decodeLine l).all (fun i => i.format == .ev || i.format == .pseudo) = true := by
  obtain ⟨m, args⟩ := l
  cases m <;> rcases args with _ | ⟨a | a, _ | ⟨b | b, _ | ⟨c | c, _ | _⟩⟩⟩
  all_goals first
    | rfl
    | (change (Option.map _ _).all _ = true; cases byteOperand a <;> rfl)
    | (change (if h : a < 4 then some (Instr.press ⟨a, h⟩) else none).all _ = true
       split <;> rfl)
    | (change (Option.bind _ _).all _ = true
       cases byteOperand a <;> first
        | rfl
        | (cases byteOperand b <;> first | rfl | (cases byteOperand c <;> rfl)))

/-- The ports carry events (R92). -/
theorem decodePorts_format {q : Ports} {i : Instr} {left : Option Ports}
    (h : decodePorts q = .ok (i, left)) : i.format = .ev := by
  unfold decodePorts at h
  repeat' split at h
  all_goals (cases h; try rfl)

/-- No input decodes to a STEP or to an operation of format INT (R12, R83, R140). -/
theorem input_format {p : Params} {ph : Phase} {s : State} {x : Input} {i : Instr}
    {left : Option Ports} (h : decode p ph (seen s x) = .ok (i, left)) :
    i.format ≠ .n8 ∧ i.format ≠ .int := by
  cases x with
  | m3 w =>
    simp only [seen, decode, decodeFrame] at h
    repeat' split at h
    all_goals (cases h; exact ⟨nofun, nofun⟩)
  | b1 b =>
    simp only [seen, decode, decodeByte] at h
    split at h <;> (cases h; exact ⟨nofun, nofun⟩)
  | ports q => rw [decodePorts_format h]; exact ⟨nofun, nofun⟩
  | line l =>
    have hl := decodeLine_format l
    simp only [seen, decode] at h
    split at h
    · next j hj =>
      cases h
      rw [hj, Option.all_some, Bool.or_eq_true, beq_iff_eq, beq_iff_eq] at hl
      rcases hl with e | e <;> rw [e] <;> exact ⟨nofun, nofun⟩
    · cases h

end Sys2Proof.Laws
end

