-- ==== Sys2Proof/Laws/Step.lean ====
section
/-! SUPPORT. What one step can do, said once: it runs one decoded instruction, or holds the core's
state. -/

namespace Sys2Proof.Laws

open Sys2Proof.Machine

/-- A step that answers a next state ran an instruction on a shorter inbox, or held (R258). -/
theorem step_cases {s t : State} (h : step s = .next t) :
    (∃ i rest, fetch Config.params.params s = .run i rest
      ∧ exec i { s with inbox := rest } = .next t)
    ∨ (∃ rest, fetch Config.params.params s = .hold rest ∧ t = { s with inbox := rest }) := by
  unfold step at h
  cases hf : fetch Config.params.params s with
  | run i rest => rw [hf] at h; exact .inl ⟨i, rest, rfl, h⟩
  | hold rest => rw [hf] at h; cases h; exact .inr ⟨rest, rfl, rfl⟩
  | reject e => rw [hf] at h; cases h

/-- An input that gives an instruction was decoded to it, and what is left of its clock comes first. -/
theorem fetchRaw_run {p : Params} {ph : Phase} {r : Raw} {rest q : List Input} {i : Instr}
    (h : fetchRaw p ph r rest = .run i q) :
    ∃ left, decode p ph r = .ok (i, left) ∧ q = left.toList.map .ports ++ rest := by
  unfold fetchRaw at h
  cases hd : decode p ph r with
  | ok a =>
    obtain ⟨j, left⟩ := a
    rw [hd] at h
    cases h
    exact ⟨left, rfl, rfl⟩
  | error e =>
    rw [hd] at h
    cases e <;> cases h

/-- Where an instruction that a fetch answers comes from: the block processor's own turn, or the decoded
head of the inbox as the core sees it (R12). -/
theorem fetch_run {s : State} {p : Params} {i : Instr} {q : List Input}
    (h : fetch p s = .run i q) :
    (s.inbox = [] ∧ s.busy = true ∧ i = .sample)
    ∨ ∃ x rest left, s.inbox = x :: rest ∧ decode p s.phase (seen s x) = .ok (i, left)
      ∧ q = left.toList.map .ports ++ rest := by
  unfold fetch at h
  cases hi : s.inbox with
  | nil =>
    simp only [hi] at h
    cases hb : s.busy with
    | true => rw [hb] at h; cases h; exact .inl ⟨rfl, rfl, rfl⟩
    | false => rw [hb] at h; cases h
  | cons x rest =>
    simp only [hi] at h
    obtain ⟨left, h1, h2⟩ := fetchRaw_run h
    exact .inr ⟨x, rest, left, rfl, h1, h2⟩

end Sys2Proof.Laws
end

