-- ==== Sys2Proof/Tests/Slice0.lean ====
section
/-! SUPPORT. Tests: the well-formedness checks refuse ill-formed instructions; words written out from
the encodings of spec/30_encoding.md decode to their instructions; vectors of spec/95_test_vectors.md
that do not pass through SIN or EXP; and for every statement with hypotheses a witness that meets
them. -/

namespace Sys2Proof.Tests

open Sys2Proof.Machine Sys2Proof.Safety Sys2Proof.Laws

set_option Elab.async false

/-! The fixture TINYCFG of spec/95_test_vectors.md section 1.1 -/

def tiny : Params :=
  { sampleRate := 100, blockSize := 4, noteMidTom := 62, noteHighTom := 63, noteHiHat := 64
    kick := ⟨1 / 10, 1, 7, 3, 1, .expo (1 / 10)⟩
    snare := ⟨⟨1 / 20, 4 / 5, 9, 13, 2, .linear (1 / 10)⟩, 3 / 100, 1 / 5⟩
    midTom := ⟨⟨2 / 25, 9 / 10, 3, 7, 3 / 2, .expo (1 / 20)⟩, 1 / 50, 1 / 4⟩
    highTom := ⟨⟨3 / 50, 9 / 10, 6, 9, 3 / 2, .expo (1 / 20)⟩, 1 / 50, 1 / 5⟩
    hiHat := ⟨⟨3 / 100, 3 / 5, 33, 47, 3, .expo (3 / 100)⟩, 1 / 100, 1 / 10⟩
    subKick := ⟨⟨1 / 50, 1 / 2, 21, 31, 1, .thump 100 (1 / 100) 50⟩, 1 / 100, 1 / 20⟩
    subTom := ⟨⟨1 / 50, 2 / 5, 23, 37, 2, .linear (1 / 25)⟩, 1 / 100, 1 / 25⟩
    subWinKick := 1 / 20, subWinTom := 1 / 25
    idxOfs := Vector.replicate 3 #v[0, 1 / 2, 1, 2]
    noiseGainSnare := 1 / 2, noiseGainHiHat := 7 / 10 }

/-- TINYCFG with the draw 0.25 throughout, and cores that answer `+0` and 1. -/
def tinyCfg : Cfg :=
  ⟨tiny, binary32 (fun _ => Num32.posZero) (fun _ => Num32.ofNat 1), fun _ => 0x3E800000#32⟩

/-- A pool with the given slots, in an otherwise reset state. -/
def pool (v : Vector Voice 5) : State := { State.reset with slots := v }

/-- Five active slots (V4). -/
def fullPool : State := pool #v[⟨60, true⟩, ⟨61, true⟩, ⟨62, true⟩, ⟨63, true⟩, ⟨64, true⟩]

/-- The reset state with a block in progress. -/
def busyReset : State := { State.reset with busy := true }

/-- The next state of an outcome, if it is one. -/
def nextOf : Host.Outcome State Fault Refusal → Option State
  | .next t => some t
  | .fault _ => none
  | .refused _ => none

theorem test_tiny_valid : tiny.valid = true := by decide +kernel

/-- The NTHR column of section 1.1 (R164). -/
theorem test_tiny_thresholds : Drum.all.map tiny.nthr = [30, 20, 25, 20, 10] := by decide +kernel

/-! Well-formedness smoke -/

/-- IGNORE with the status of a note-on or a note-off is refused (R87). -/
theorem test_ignore_of_note_status_is_ill_formed :
    (Instr.ignore 0x90 60 1).wf tiny = false ∧ (Instr.ignore 0x80 60 1).wf tiny = false
      ∧ (Instr.ignore 0x91 60 1).wf tiny = true := by decide +kernel

/-- NOSTEP with a drum note is refused (R88). -/
theorem test_noStep_of_drum_note_is_ill_formed :
    (Instr.noStep 0 60).wf tiny = false ∧ (Instr.noStep 0 64).wf tiny = false
      ∧ (Instr.noStep 0 65).wf tiny = true := by decide +kernel

/-! Decoding: words written out from the encodings -/

theorem test_decode_noteOn :
    decodeFrame 0b100100000011110101100100#24 = .noteOn 61 100 := by decide +kernel

theorem test_decode_noteOff :
    decodeFrame 0b100000000011110100000000#24 = .noteOff 61 0 := by decide +kernel

theorem test_decode_ignore :
    decodeFrame 0b111100000000101000010100#24 = .ignore 0xF0 10 20 := by decide +kernel

/-- A low nibble that is not zero is no note-on (R82, D3). -/
theorem test_decode_channel_two : decodeFrame 0x913D64#24 = .ignore 0x91 61 100 := by decide +kernel

theorem test_decode_bytes :
    decodeByte .expectStatus 0x90#8 = .feedStatus 0x90
      ∧ decodeByte .expectNote 0x3C#8 = .feedNote 60
      ∧ decodeByte .expectVelocity 0x64#8 = .feedVelocity 100 := by decide +kernel

theorem test_decode_note_selectors :
    decodeNote tiny 0 0x3C#8 = .kickStep 0 ∧ decodeNote tiny 1 0x3D#8 = .snareStep 1
      ∧ decodeNote tiny 2 0x3E#8 = .midTomStep 2 ∧ decodeNote tiny 3 0x3F#8 = .highTomStep 3
      ∧ decodeNote tiny 4 0x40#8 = .hiHatStep 4 ∧ decodeNote tiny 0 0x41#8 = .noStep 0 65 := by
  decide +kernel

theorem test_decode_ports :
    decodePorts ⟨true, true, true, 0x3C, 0b1111, true, 0⟩ = .ok (.reset, none)
      ∧ decodePorts ⟨false, true, false, 0, 0, false, 0⟩ = .ok (.overrun, none)
      ∧ decodePorts ⟨false, false, true, 0xF8, 0, false, 0⟩ = .ok (.feed 0xF8, none)
      ∧ decodePorts ⟨false, false, false, 0, 0b1000, false, 0⟩ = .ok (.press 3, none)
      ∧ decodePorts ⟨false, false, false, 0, 0, true, 0x3F800000⟩
          = .ok (.blockStart 0x3F800000, none)
      ∧ decodePorts ⟨false, false, false, 0, 0, false, 0⟩ = .error .noEvent := by decide +kernel

/-- A clock's order: the byte before the button before the block start (R248). -/
theorem test_decode_clock_order :
    drain tiny .expectStatus 7 (.ports ⟨false, true, true, 0x90, 0b1001, true, 1⟩)
      = [.overrun, .feed 0x90, .press 0, .press 3, .blockStart 1] := by decide +kernel

theorem test_decode_lines :
    decodeLine ⟨.reset, []⟩ = some .reset ∧ decodeLine ⟨.sample, []⟩ = some .sample
      ∧ decodeLine ⟨.overrun, []⟩ = some .overrun
      ∧ decodeLine ⟨.feed, [.nat 255]⟩ = some (.feed 0xFF)
      ∧ decodeLine ⟨.press, [.nat 3]⟩ = some (.press 3)
      ∧ decodeLine ⟨.blockStart, [.num 0x3F800000]⟩ = some (.blockStart 0x3F800000) := by
  decide +kernel

theorem test_decode_pseudo :
    decodeLine ⟨.msg, [.nat 240, .nat 10, .nat 20]⟩ = some (.msg 0xF0 10 20)
      ∧ decodeLine ⟨.noteon, [.nat 60, .nat 100]⟩ = some (.noteonMsg 60 100)
      ∧ decodeLine ⟨.noteoff, [.nat 60, .nat 0]⟩ = some (.noteoffMsg 60 0)
      ∧ decodeLine ⟨.block, [.num 0x3F800000]⟩ = some (.block 0x3F800000)
      ∧ decodeLine ⟨.panic, []⟩ = some .panic ∧ decodeLine ⟨.kick, []⟩ = some .kickMsg
      ∧ decodeLine ⟨.snare, []⟩ = some .snareMsg := by decide +kernel

/-- Operands out of range are rejected (R93). -/
theorem test_decode_bad_operands :
    decode tiny .expectStatus (.line ⟨.press, [.nat 4]⟩) = .error (.badOperands .press)
      ∧ decode tiny .expectStatus (.line ⟨.feed, [.nat 256]⟩) = .error (.badOperands .feed)
      ∧ decode tiny .expectStatus (.line ⟨.sample, [.nat 1]⟩) = .error (.badOperands .sample) := by
  decide +kernel

/-! Decoder (section 3.1) -/

theorem test_D3 : feedByte 0x91 .reset = { State.reset with phase := .expectNote } := by
  decide +kernel

theorem test_D9 : feedFrame 0x90 0xFF 0xFF .reset
    = { State.reset.setSlot 0 255 true with pendingNote := 255 } := by decide +kernel

theorem test_D10 : feedFrame 0x90 0x90 0x90 .reset
    = { State.reset.setSlot 0 144 true with pendingNote := 144 } := by decide +kernel

theorem test_D11 : signals (.noteOff 60 0x40) .reset = [.unmatchedNoteOff 60]
    ∧ feedFrame 0x80 60 0x40 .reset = { State.reset with pendingNote := 60 } := by decide +kernel

theorem test_D12 : signals (.msg 0xB0 7 0x7F) .reset = [.unsupportedStatus 0xB0]
    ∧ feedFrame 0xB0 7 0x7F .reset = { State.reset with pendingNote := 7 } := by decide +kernel

/-! Voice pool (section 3.2) -/

theorem test_V3 : allocate 62 (pool #v[⟨60, false⟩, ⟨61, true⟩, ⟨0, false⟩, ⟨0, false⟩, ⟨0, false⟩])
    = (pool #v[⟨62, true⟩, ⟨61, true⟩, ⟨0, false⟩, ⟨0, false⟩, ⟨0, false⟩], true) := by
  decide +kernel

theorem test_V5 : allocate 60 fullPool = (fullPool, false) := by decide +kernel

theorem test_V6 : release 60 (pool #v[⟨60, true⟩, ⟨60, true⟩, ⟨0, false⟩, ⟨0, false⟩, ⟨0, false⟩])
    = (pool #v[⟨60, false⟩, ⟨60, true⟩, ⟨0, false⟩, ⟨0, false⟩, ⟨0, false⟩], true) := by
  decide +kernel

theorem test_V7 : (release 60
    (pool #v[⟨60, false⟩, ⟨61, true⟩, ⟨0, false⟩, ⟨0, false⟩, ⟨0, false⟩])).2 = false := by
  decide +kernel

theorem test_V9 : (resetAll tinyCfg { pool
      #v[⟨60, true⟩, ⟨61, false⟩, ⟨62, true⟩, ⟨0, false⟩, ⟨0, false⟩] with
      acc := #v[1, 2, 3, 4, 5] })
    = pool #v[⟨60, false⟩, ⟨61, false⟩, ⟨62, false⟩, ⟨0, false⟩, ⟨0, false⟩] := by decide +kernel

/-! Envelopes and steps (section 3.3): the values given as bit patterns -/

theorem test_snare_ramp : ampEnv tinyCfg.num (tiny.layer .snare) (elapsed tinyCfg.num tiny 3)
      = 0x3F4CCCCC
    ∧ idxEnv tinyCfg.num (tiny.layer .snare).idxEnv (elapsed tinyCfg.num tiny 3) = 0x3F333334 := by
  decide +kernel

theorem test_peaks : ampEnv tinyCfg.num (tiny.layer .midTom) (elapsed tinyCfg.num tiny 2)
      = 0x3F666666
    ∧ ampEnv tinyCfg.num (tiny.layer .hiHat) (elapsed tinyCfg.num tiny 1) = 0x3F199999
    ∧ ampEnv tinyCfg.num (tiny.layer .subKick) (elapsed tinyCfg.num tiny 1) = 0x3F000000
    ∧ ampEnv tinyCfg.num (tiny.layer .subTom) (elapsed tinyCfg.num tiny 1) = 0x3ECCCCCC := by
  decide +kernel

/-- The third piece: Kick at count 31 (R144). -/
theorem test_past_rend : ampEnv tinyCfg.num (tiny.layer .kick) (elapsed tinyCfg.num tiny 31)
    = Num32.posZero := by decide +kernel

/-- The first step after reset is silent and advances both counters (E1). -/
theorem test_E1 :
    let r := drumStep tinyCfg .kick 0 (State.reset.setSlot 0 60 true)
    (r.2, (r.1.layer .kick).cnt, (r.1.layer .subKick).cnt, (r.1.layer .kick).amp)
      = (Num32.posZero, 1, 1, Num32.posZero) := by decide +kernel

/-- The held branch: past 30 both counters start again (E4). -/
theorem test_E4 :
    let s := ((State.reset.setSlot 0 60 true).setCnt .kick 30).setCnt .subKick 30
    let r := drumStep tinyCfg .kick 0 s
    ((r.1.layer .kick).cnt, (r.1.layer .subKick).cnt) = (0, 0) := by decide +kernel

/-- At count 0 the amplitude kills the noise, and the draw is taken (E7). -/
theorem test_E7 :
    let r := drumStep tinyCfg .snare 0 (State.reset.setSlot 0 61 true)
    (r.2, (r.1.layer .snare).cnt, r.1.noiseIx) = (Num32.posZero, 1, 1) := by decide +kernel

/-- HiHat at its threshold starts again (E9). -/
theorem test_E9 :
    let r := drumStep tinyCfg .hiHat 0 ((State.reset.setSlot 0 64 true).setCnt .hiHat 10)
    (r.1.layer .hiHat).cnt = 0 := by decide +kernel

/-- The toms share SubTom (E8). -/
theorem test_E8 :
    let s := (State.reset.setSlot 0 62 true).setSlot 1 63 true
    let t := (drumStep tinyCfg .highTom 1 (drumStep tinyCfg .midTom 0 s).1).1
    ((t.layer .midTom).cnt, (t.layer .highTom).cnt, (t.layer .subTom).cnt) = (1, 1, 2) := by
  decide +kernel

/-- `REND = 0.125`, `SAMPLE_RATE = 100`: the threshold is 13 (section 3.3). -/
theorem test_threshold_rounds_up :
    ({ tiny with hiHat := { tiny.hiHat with rend := 1 / 8 } } : Params).nthr .hiHat = 13 := by
  decide +kernel

/-! Numerics (section 3.4) -/

theorem test_N2 : Num32.ofNat 16777216 = 0x4B800000 ∧ Num32.ofNat 16777217 = 0x4B800000 := by
  decide +kernel

theorem test_N3_N4 : Num32.ofRat (3 / 10) = 0x3E99999A ∧ Num32.ofRat (1 / 200) = 0x3BA3D70A := by
  decide +kernel

theorem test_N5_N6 : Num32.fdiv (Num32.ofNat 240) (Num32.ofRat 48000) = 0x3BA3D70A
    ∧ Num32.fdiv (Num32.ofNat 241) (Num32.ofRat 48000) = 0x3BA485CD := by decide +kernel

theorem test_N8 : Num32.fmul (Num32.ofRat 200) 0x3B23D70A = 0x3F000000 := by decide +kernel

theorem test_N10 : Num32.fadd (Num32.ofRat (1 / 10)) (Num32.ofRat (2 / 10)) = 0x3E99999A := by
  decide +kernel

theorem test_N11 :
    let a := Num32.ofNat 16777216
    let one := Num32.ofNat 1
    Num32.fadd (Num32.fadd a one) one = a
      ∧ Num32.fadd a (Num32.fadd one one) = Num32.ofNat 16777218 := by decide +kernel

theorem test_N15 : Num32.fle 0x7FC00000 0 = false ∧ Num32.flt 0x7FC00000 0 = false
    ∧ Num32.fle Num32.posZero Num32.negZero = true
    ∧ Num32.flt Num32.negZero Num32.posZero = false := by decide +kernel

theorem test_N16 : Num32.fmul Num32.posZero (Num32.ofRat (-3)) = Num32.negZero
    ∧ Num32.fadd Num32.posZero Num32.negZero = Num32.posZero
    ∧ Num32.fadd Num32.negZero Num32.posZero = Num32.posZero
    ∧ Num32.fadd Num32.negZero Num32.negZero = Num32.negZero := by decide +kernel

/-! Mixer, controls, conditions, reset (sections 3.5 to 3.8) -/

theorem test_M2_M3 : exec .sample .reset = .refused .sampleWhileIdle
    ∧ exec (.blockStart 1) busyReset = .refused .blockStartWhileBusy := ⟨rfl, rfl⟩

theorem test_M5 : nextOf (sample tinyCfg { busyReset with i := 3 })
    = some { State.reset with i := 4 } := by decide +kernel

theorem test_M7 : nextOf (sample tinyCfg (busyReset.setSlot 0 99 true))
    = some { busyReset.setSlot 0 99 true with i := 1 } := by decide +kernel

/-- Two slots of one drum: two steps in one sample (M8). -/
theorem test_M8 :
    let t := mixAll tinyCfg ((busyReset.setSlot 0 60 true).setSlot 1 60 true)
    ((t.layer .kick).cnt, (t.layer .subKick).cnt) = (2, 2) := by decide +kernel

/-- Five slots of five drums: every counter one further, SubTom by both toms, two draws (M9). -/
theorem test_M9 :
    let s : State :=
      { fullPool with busy := true, layers := Vector.replicate 7 ⟨3, 0, 0, Num32.ofNat 1⟩ }
    let t := mixAll tinyCfg (s.setCnt .subTom 6)
    ([Layer.kick, .snare, .midTom, .highTom, .hiHat, .subKick, .subTom].map fun L => (t.layer L).cnt,
      t.noiseIx) = ([4, 4, 4, 4, 4, 4, 8], 2) := by decide +kernel

/-- The view of R171: Idle at reset; Snare with `PEAK = 0.03` at 100 Hz sounds up to count 3
(section 3.3). -/
theorem test_episode_stages :
    let s := State.reset.setSlot 0 61 true
    [episodeOf tinyCfg .snare .reset, episodeOf tinyCfg .snare s,
      episodeOf tinyCfg .snare (s.setCnt .snare 3), episodeOf tinyCfg .snare (s.setCnt .snare 4)]
      = [.idle, .sounding, .sounding, .decaying] := by decide +kernel

/-- The boundary of R171: Kick's threshold is 30. -/
theorem test_episode_boundary :
    let s := State.reset.setSlot 0 60 true
    (boundaryOf tinyCfg .kick 0 (s.setCnt .kick 29), boundaryOf tinyCfg .kick 0 (s.setCnt .kick 30),
      boundaryOf tinyCfg .kick 1 (s.setCnt .kick 30)) = (none, some .held, some .released) := by
  decide +kernel

/-- The audible result takes the buffers when `busy` falls, and only then (R285). -/
theorem test_audible :
    audible tinyCfg busyReset State.reset = List.replicate 4 (Num32.posZero, Num32.posZero)
      ∧ audible tinyCfg busyReset busyReset = [] ∧ audible tinyCfg .reset .reset = [] := by
  decide +kernel

theorem test_C4 :
    let s := { State.reset with var := #v[3, 3, 3], btn := #v[true, true, true, false] }
    ((poll tinyCfg s).var, (poll tinyCfg s).btn)
      = (#v[0, 0, 0], #v[false, false, false, false]) := by decide +kernel

theorem test_C5 :
    let s := { State.reset with var := #v[0, 3, 1], btn := #v[true, true, false, false] }
    (poll tinyCfg s).var = #v[1, 0, 1] := by decide +kernel

/-- Panic silences at the block start, the notes and counters kept (C7). -/
theorem test_C7 :
    let s := (pool #v[⟨60, true⟩, ⟨61, true⟩, ⟨0, false⟩, ⟨0, false⟩, ⟨0, false⟩]).setCnt .kick 7
    let t := poll tinyCfg (s.setBtn 3 true)
    (t.slots, t.btn.get 3, (t.layer .kick).cnt)
      = (#v[⟨60, false⟩, ⟨61, false⟩, ⟨0, false⟩, ⟨0, false⟩, ⟨0, false⟩], false, 7) := by
  decide +kernel

theorem test_X1 : signals (.noteonMsg 70 1) fullPool = [.poolExhausted 70]
    ∧ feedFrame 0x90 70 1 fullPool = { fullPool with pendingNote := 70 } := by decide +kernel

theorem test_X7 :
    let s := { fullPool with phase := .expectVelocity, noteStartFlag := true, pendingNote := 60 }
    signals (.feed 0x40) s = [.poolExhausted 60]
      ∧ feedByte 0x40 s = { fullPool with pendingNote := 60 } := by decide +kernel

theorem test_X4 : exec .overrun busyReset = .next { busyReset with overrun := true } := rfl

theorem test_Z2 : exec .reset { busyReset with
      i := 2, phase := .expectVelocity, outL := [(1, 7)], outR := [(1, 7)], overrun := true }
    = .next State.reset := rfl

/-- A whole block from reset gives four `+0` elements and moves no counter (Z3). -/
theorem test_Z3 : nextOf (runBlock tinyCfg (Num32.ofNat 1) .reset)
    = some { State.reset with i := 4 } := by
  decide +kernel

/-! Output buffers -/

/-- Writing what an unlisted element reads as removes the entry (R38, R42). -/
theorem test_buffer_canonical : Buffer.write [(0, 5), (2, 7)] 2 Num32.posZero = [(0, 5)]
    ∧ Buffer.write [(0, 5), (2, 7)] 1 6 = [(0, 5), (1, 6), (2, 7)] := by decide +kernel

theorem test_outRead_bounds : outRead tinyCfg .reset .left 3 = some Num32.posZero
    ∧ outRead tinyCfg .reset .right 4 = none := by decide +kernel

/-! Witnesses: concrete values that meet the hypotheses of each statement that has any -/

theorem test_witness_DecodeEncodeRoundTrip :
    (tiny.valid = true ∧ (Instr.noStep 4 65).wf tiny = true
      ∧ (Instr.noStep 4 65).readIn .expectNote = true
      ∧ encode tiny (.noStep 4 65) = some (.n8 4 65))
    ∧ (Instr.ignore 0x91 0 255).wf tiny = true
    ∧ (Instr.feedNote 255).readIn .expectNote = true := by decide +kernel

theorem test_witness_NoteSelectorDecoded :
    tiny.valid = true ∧ ∀ d, (65 : Byte) ≠ tiny.note d :=
  ⟨test_tiny_valid, fun d => by cases d <;> decide⟩

theorem test_witness_BadTraceLineRejected : 256 ≤ 256 ∧ 4 ≤ 4 := ⟨le_refl _, le_refl _⟩

theorem test_witness_StepRunsDecodedInput :
    let x : Input := .b1 0x90
    let y : Input := .ports ⟨false, true, true, 0x90, 0, true, 1⟩
    let s := { State.reset with inbox := [x] }
    let t := { busyReset with inbox := [y] }
    (s.inbox = [x] ∧ decode Config.params.params s.phase (seen s x) = .ok (.feedStatus 0x90, none))
    ∧ t.inbox = [y] ∧ decode Config.params.params t.phase (seen t y)
        = .ok (.overrun, some ⟨false, false, true, 0x90, 0, false, 1⟩) :=
  ⟨⟨rfl, rfl⟩, rfl, rfl⟩

theorem test_witness_StepWithoutInstruction :
    (busyReset.inbox = [] ∧ busyReset.busy = true)
    ∧ (State.reset.inbox = [] ∧ State.reset.busy = false)
    ∧ decode Config.params.params .expectStatus (seen .reset (.ports Ports.quiet))
        = .error .noEvent
    ∧ decode Config.params.params .expectStatus (seen .reset (.line ⟨.press, [.nat 4]⟩))
        = .error (.badOperands .press) := by
  refine ⟨⟨rfl, rfl⟩, ⟨rfl, rfl⟩, ?_, ?_⟩ <;> decide +kernel

/-- The block-start port while a block is in progress is no event (R92). -/
theorem test_busy_block_start_port :
    decode tiny .expectStatus (seen busyReset (.ports ⟨false, false, false, 0, 0, true, 5⟩))
      = .error .noEvent
    ∧ decode tiny .expectStatus (seen .reset (.ports ⟨false, false, false, 0, 0, true, 5⟩))
      = .ok (.blockStart 5, none) := by decide +kernel

theorem test_witness_PlacedWordRuns : 0 < 2 ^ 24 ∧ 0xFFFFFF < 2 ^ 24
    ∧ decodeTableWord 24 0 = some (.ignore 0 0 0)
    ∧ decodeTableWord 24 0xFFFFFF = some (.ignore 0xFF 0xFF 0xFF)
    ∧ decodeTableWord 8 60 = some (stepInstr 0 .kick)
    ∧ decodeTableWord 8 61 = some (stepInstr 0 .snare) :=
  ⟨by decide, by decide, rfl, rfl, rfl, rfl⟩

/-- A placed note selector runs inside SAMPLE (R140). -/
theorem test_placed_selector_is_sample :
    step (State.reset.withFetchWord 8 61) = exec .sample (busyReset.setSlot 0 61 true) :=
  congrArg (exec .sample) (by decide +kernel)

theorem test_witness_reset_FlagsOk : State.reset.phase = .expectStatus ∧ FlagsOk State.reset :=
  ⟨rfl, fun _ => ⟨rfl, rfl⟩, fun h => by cases h.1⟩

theorem test_witness_NoteOnMessage : State.reset.phase = .expectStatus ∧ FlagsOk State.reset :=
  test_witness_reset_FlagsOk

theorem test_witness_NoteOffMessage : State.reset.phase = .expectStatus ∧ FlagsOk State.reset :=
  test_witness_reset_FlagsOk

theorem test_witness_IgnoredMessage :
    (0xF0 : Byte) ≠ 0x90 ∧ (0xF0 : Byte) ≠ 0x80 ∧ State.reset.phase = .expectStatus
      ∧ FlagsOk State.reset := ⟨by decide, by decide, test_witness_reset_FlagsOk⟩

theorem test_witness_MessagesAreThreeFeeds :
    (0x90 : Byte) = 0x90 ∧ (0x80 : Byte) = 0x80 ∧ (60 : Byte) = 60 ∧ (61 : Byte) = 61
      ∧ (100 : Byte) = 100 := ⟨rfl, rfl, rfl, rfl, rfl⟩

theorem test_witness_PhaseCountsBytes : ([0xC0, 5, 0x90] : List Byte).length % 3 = 0 := rfl

theorem test_witness_AllocateClaimsFirstFree :
    (State.reset.slot 0).active = false ∧ (∀ q < (0 : SlotIx), (State.reset.slot q).active = true)
    ∧ (((fullPool.setSlot 4 0 false).slot 4).active = false
      ∧ ∀ q < (4 : SlotIx), ((fullPool.setSlot 4 0 false).slot q).active = true)
    ∧ ∀ q, (fullPool.slot q).active = true := by decide +kernel

theorem test_witness_ReleaseFreesFirstHolding :
    (fullPool.slot 4 = ⟨64, true⟩ ∧ ∀ q < (4 : SlotIx), fullPool.slot q ≠ ⟨64, true⟩)
    ∧ ∀ q, State.reset.slot q ≠ ⟨0, true⟩ := by decide +kernel

theorem test_witness_AllocateReleasePair :
    (∀ q, State.reset.slot q ≠ ⟨60, true⟩)
    ∧ (let s := fullPool.setSlot 4 9 false
       (∀ q, s.slot q ≠ ⟨65, true⟩) ∧ (s.slot 4).active = false
         ∧ ∀ q < (4 : SlotIx), (s.slot q).active = true)
    ∧ (∀ q, fullPool.slot q ≠ ⟨65, true⟩) ∧ ∀ q, (fullPool.slot q).active = true := by
  decide +kernel

theorem test_witness_PoolCapacity :
    activeCount fullPool = 5 ∧ fullPool.phase = .expectStatus ∧ FlagsOk fullPool :=
  ⟨by decide +kernel, rfl, fun _ => ⟨rfl, rfl⟩, fun h => by cases h.1⟩

theorem test_witness_TransientDrumStep :
    Drum.highTom = .highTom ∧ Layer.subTom = .subTom
      ∧ Config.cfg.params.subWinTom = Config.cfg.params.subWinTom := ⟨rfl, rfl, rfl⟩

theorem test_witness_NoiseDrumStep :
    Drum.hiHat = .hiHat ∧ Config.cfg.params.noiseGainHiHat = Config.cfg.params.noiseGainHiHat :=
  ⟨rfl, rfl⟩

theorem test_witness_SharedSubTom :
    ((State.reset.layer .midTom).cnt + 1).toNat ≤ Config.cfg.params.nthr .midTom
    ∧ ((State.reset.layer .highTom).cnt + 1).toNat ≤ Config.cfg.params.nthr .highTom :=
  ⟨valid_nthr_pos Config.params.valid .midTom, valid_nthr_pos Config.params.valid .highTom⟩

theorem test_witness_CountersMovedOnlyBySynthesis :
    (∀ k d, Instr.poll ≠ stepInstr k d) ∧ Instr.poll ≠ .sample ∧ Instr.poll ≠ .reset
      ∧ (∀ f, Instr.poll ≠ .block f) ∧ ∃ t, exec .poll .reset = .next t :=
  ⟨fun _ d => by cases d <;> simp [stepInstr], by simp, by simp, by simp, _, rfl⟩

/-- Under TINYCFG with shift 1 the argument of Kick's carrier is finite at count zero. -/
theorem test_witness_LayerSilentAtCountZero :
    tiny.valid = true ∧
      (let sin : SineCore := {}
       let exp : ExpCore := {}
       let N := binary32 sin.fn exp.fn
       let o := layerOut N tiny .kick (Vector.replicate 3 0) (Num32.ofNat 1) 0
       let t := elapsed N tiny 0
       (N.fadd (oscPhase N (tiny.layer .kick).fc (freqScale N .kick (Num32.ofNat 1)) t)
          (N.fmul o.idx (N.SIN (oscPhase N (tiny.layer .kick).fm
            (freqScale N .kick (Num32.ofNat 1)) t)))).isFinite = true) := by decide +kernel

theorem test_witness_NonFiniteShiftGivesNaN :
    Layer.subTom ≠ .hiHat ∧ (0x7F800000 : Num32).isFinite = false
      ∧ (0x7FC00000 : Num32).isFinite = false := by decide +kernel

theorem test_witness_BlockStartLatchesAndPolls :
    busyReset.busy = true ∧ State.reset.busy = false := ⟨rfl, rfl⟩

theorem test_witness_SampleWritesOneElement :
    State.reset.busy = false ∧ busyReset.busy = true ∧ busyReset.i < Config.cfg.params.blockSize
      ∧ Memory.wf busyReset = true :=
  ⟨rfl, rfl, valid_blockSize Config.params.valid, rfl⟩

theorem test_witness_SilentSampleWritesZero :
    busyReset.busy = true ∧ busyReset.i < Config.cfg.params.blockSize ∧ Memory.wf busyReset = true
      ∧ ∀ k, Silent Config.cfg.params (busyReset.slot k) :=
  ⟨rfl, valid_blockSize Config.params.valid, rfl, fun k h => by
    have : (busyReset.slot k).active = false := by
      revert k
      decide +kernel
    rw [this] at h
    cases h⟩

theorem test_witness_SampleScansSlots :
    let s := (busyReset.setSlot 0 99 true).setSlot 4 (Config.cfg.params.note .hiHat) true
    s.busy = true ∧ s.i < Config.cfg.params.blockSize
      ∧ Silent Config.cfg.params (s.slot 1)
      ∧ s.slot 4 = ⟨Config.cfg.params.note .hiHat, true⟩ :=
  ⟨rfl, valid_blockSize Config.params.valid, fun h => (by cases h), rfl⟩

theorem test_witness_OneSlotSounds :
    let s := busyReset.setSlot 2 (Config.cfg.params.note .hiHat) true
    s.busy = true ∧ s.i < Config.cfg.params.blockSize
      ∧ s.slot 2 = ⟨Config.cfg.params.note .hiHat, true⟩
      ∧ ∀ q, q ≠ 2 → Silent Config.cfg.params (s.slot q) :=
  ⟨rfl, valid_blockSize Config.params.valid, rfl, fun q hq h => by
    match q with
    | 0 | 1 | 3 | 4 => cases h
    | 2 => exact absurd rfl hq⟩

theorem two_slots_witness (d e : Drum) :
    let s := (busyReset.setSlot 0 (Config.cfg.params.note d) true).setSlot 4
      (Config.cfg.params.note e) true
    (0 : SlotIx) < 4 ∧ s.busy = true ∧ s.i < Config.cfg.params.blockSize
      ∧ s.slot 0 = ⟨Config.cfg.params.note d, true⟩
      ∧ s.slot 4 = ⟨Config.cfg.params.note e, true⟩
      ∧ ∀ q, q ≠ 0 → q ≠ 4 → Silent Config.cfg.params (s.slot q) :=
  ⟨by decide, rfl, valid_blockSize Config.params.valid, rfl, rfl, fun q h0 h4 h => by
    match q with
    | 1 | 2 | 3 => cases h
    | 0 => exact absurd rfl h0
    | 4 => exact absurd rfl h4⟩

/-- One drum twice, and two drums. -/
theorem test_witness_OneOrTwoSlotsSound :
    (∃ s : State, s.slot 0 = ⟨Config.cfg.params.note .kick, true⟩
      ∧ s.slot 4 = ⟨Config.cfg.params.note .kick, true⟩ ∧ s.busy = true
      ∧ s.i < Config.cfg.params.blockSize
      ∧ ∀ q, q ≠ 0 → q ≠ 4 → Silent Config.cfg.params (s.slot q))
    ∧ ∃ s : State, s.slot 0 = ⟨Config.cfg.params.note .midTom, true⟩
      ∧ s.slot 4 = ⟨Config.cfg.params.note .highTom, true⟩ ∧ s.busy = true
      ∧ s.i < Config.cfg.params.blockSize
      ∧ ∀ q, q ≠ 0 → q ≠ 4 → Silent Config.cfg.params (s.slot q) :=
  have w := fun d e => two_slots_witness d e
  ⟨⟨_, (w .kick .kick).2.2.2.1, (w .kick .kick).2.2.2.2.1, rfl, (w .kick .kick).2.2.1,
      (w .kick .kick).2.2.2.2.2⟩,
    ⟨_, (w .midTom .highTom).2.2.2.1, (w .midTom .highTom).2.2.2.2.1, rfl,
      (w .midTom .highTom).2.2.1, (w .midTom .highTom).2.2.2.2.2⟩⟩

theorem test_witness_BlockRunsToItsEnd :
    busyReset.busy = true ∧ State.reset.busy = false := ⟨rfl, rfl⟩

theorem test_witness_PanicSilencesNextBlock :
    fullPool.busy = false ∧ Memory.wf fullPool = true := ⟨rfl, rfl⟩

theorem test_witness_OverrunClearedOnlyByReset :
    Instr.poll ≠ .reset ∧ ∃ t, exec .poll .reset = .next t := ⟨by simp, _, rfl⟩

theorem test_witness_DecoderKeptByOtherEvents :
    (Instr.noStep 0 0).format = .n8 ∧ Instr.poll.format = .int
      ∧ (∃ t, exec (.noStep 0 0) .reset = .next t) ∧ (∃ t, exec .poll .reset = .next t)
      ∧ ∃ t, exec .panic .reset = .next t :=
  ⟨rfl, rfl, ⟨_, rfl⟩, ⟨_, rfl⟩, _, rfl⟩

theorem test_witness_OtherInstructionsSignalNothing :
    (Instr.kickStep 4).format = .n8 ∧ isEvent .overrun = true ∧ isEvent (.feed 0xFF) = true
      ∧ signals (.allocate 9) fullPool = [.poolExhausted 9]
      ∧ signals (.allocate 9) .reset = [] := ⟨rfl, rfl, rfl, by decide +kernel, by decide +kernel⟩

theorem test_witness_OnlyBlockEventsStop :
    SequencerOk Config.cfg .reset ∧ SequencerOk Config.cfg busyReset :=
  ⟨⟨Nat.zero_le _, fun h => by cases h⟩,
    ⟨Nat.zero_le _, fun _ => valid_blockSize Config.params.valid⟩⟩

/-- A state that meets every invariant and whose step answers a next state. -/
theorem test_witness_invariants :
    let s := { State.reset with inbox := [.b1 0x90] }
    FlagsOk s ∧ SequencerOk Config.cfg s ∧ BuffersOk Config.cfg s ∧ CountersOk Config.cfg s
      ∧ ∃ t, step s = .next t :=
  ⟨⟨fun _ => ⟨rfl, rfl⟩, fun h => by cases h.1⟩, ⟨Nat.zero_le _, fun h => by cases h⟩,
    ⟨rfl, rfl, rfl⟩,
    ⟨fun d => by cases d <;> exact Nat.zero_le _, rfl, Nat.le_refl _⟩, _, rfl⟩

theorem test_witness_StepKeepsFlags :
    FlagsOk { State.reset with inbox := [.b1 0x90] }
      ∧ ∃ t, step { State.reset with inbox := [.b1 0x90] } = .next t :=
  ⟨test_witness_invariants.1, test_witness_invariants.2.2.2.2⟩

theorem test_witness_StepKeepsSequencer :
    SequencerOk Config.cfg { State.reset with inbox := [.b1 0x90] }
      ∧ ∃ t, step { State.reset with inbox := [.b1 0x90] } = .next t :=
  ⟨test_witness_invariants.2.1, test_witness_invariants.2.2.2.2⟩

theorem test_witness_StepKeepsBuffers :
    SequencerOk Config.cfg { State.reset with inbox := [.b1 0x90] }
      ∧ BuffersOk Config.cfg { State.reset with inbox := [.b1 0x90] }
      ∧ ∃ t, step { State.reset with inbox := [.b1 0x90] } = .next t :=
  ⟨test_witness_invariants.2.1, test_witness_invariants.2.2.1, test_witness_invariants.2.2.2.2⟩

theorem test_witness_StepKeepsCounters :
    CountersOk Config.cfg { State.reset with inbox := [.b1 0x90] }
      ∧ ∃ t, step { State.reset with inbox := [.b1 0x90] } = .next t :=
  ⟨test_witness_invariants.2.2.2.1, test_witness_invariants.2.2.2.2⟩

theorem test_witness_RationalRoundedToNearestEven :
    |overflowBound - 1| < overflowBound ∧ overflowBound ≤ |overflowBound|
      ∧ overflowBound ≤ |-overflowBound| := by
  rw [abs_neg]
  have h : (0 : ℚ) < overflowBound - 1 := by
    unfold overflowBound
    norm_num
  rw [abs_of_pos h, abs_of_pos (by linarith)]
  exact ⟨by linarith, le_refl _, le_refl _⟩

theorem test_witness_ArithmeticRoundedToNearestEven :
    let a := Num32.ofNat 1
    let b := Num32.ofNat 3
    a.isFinite = true ∧ b.isFinite = true ∧ |a.toRat + b.toRat| < overflowBound
      ∧ |a.toRat - b.toRat| < overflowBound ∧ |a.toRat * b.toRat| < overflowBound
      ∧ b.toRat ≠ 0 ∧ |a.toRat / b.toRat| < overflowBound := by
  have h1 : (Num32.ofNat 1).toRat = 1 := by decide +kernel
  have h3 : (Num32.ofNat 3).toRat = 3 := by decide +kernel
  have h : (2 : ℚ) ^ 127 < overflowBound := by
    unfold overflowBound
    norm_num
  refine ⟨by decide +kernel, by decide +kernel, ?_, ?_, ?_, ?_, ?_⟩ <;> rw [h3] <;>
    first
    | exact three_ne_zero
    | (rw [h1]
       refine lt_trans ?_ h
       rw [abs_lt]
       norm_num)

/-- At the overflow bound itself each operation gives an infinity of the right sign: `maxFinite` and
half its last place, and results beyond it. -/
theorem test_witness_ArithmeticRoundedToNearestEven_overflow :
    let a : Num32 := 0x7F7FFFFF
    let b : Num32 := 0x73000000
    let nb : Num32 := 0xF3000000
    overflowBound ≤ |a.toRat + b.toRat| ∧ Num32.fadd a b = 0x7F800000
      ∧ overflowBound ≤ |a.toRat - nb.toRat| ∧ Num32.fsub a nb = 0x7F800000
      ∧ overflowBound ≤ |a.toRat * nb.toRat| ∧ Num32.fmul a nb = 0xFF800000
      ∧ overflowBound ≤ |a.toRat / (0x80800000 : Num32).toRat|
      ∧ Num32.fdiv a 0x80800000 = 0xFF800000 := by decide +kernel

theorem test_witness_InvalidOperationsGiveQuietNaN :
    let inf : Num32 := 0x7F800000
    let ninf : Num32 := 0xFF800000
    (0x7F800001 : Num32).isNaN = true ∧ inf.isInf = true ∧ ninf.isInf = true
      ∧ inf.sign ≠ ninf.sign ∧ Num32.posZero.isZero = true ∧ Num32.negZero.isZero = true := by
  decide +kernel

theorem test_witness_CounterConversionExact : 0 < 2 ^ 24 ∧ 16777215 < 2 ^ 24 := by decide

theorem test_witness_ElapsedTimeOrdinary : tiny.valid = true ∧ 0 < 2 ^ 32 ∧ 4294967295 < 2 ^ 32 :=
  ⟨test_tiny_valid, by decide, by decide⟩

theorem test_witness_ComparisonsFollowValues :
    (0xFFC00000 : Num32).isNaN = true ∧ Num32.negZero.isFinite = true
      ∧ (0x7F7FFFFF : Num32).isFinite = true := by decide +kernel

theorem test_witness_SignedZeroAndNegation :
    Num32.negZero.isFinite = true ∧ (0xFF7FFFFF : Num32).isFinite = true := by decide +kernel

theorem test_witness_EnvelopeShape : tiny.snare.valid = true := by decide +kernel

end Sys2Proof.Tests
end

section
/-! What the fetch answers for each kind of inbox head, and the step that follows (R12, R92, R258). -/

namespace Sys2Proof.Schedule

open Sys2Proof.Machine

section Answers

variable {p : Params} {s : State} {ph : Phase} {r : Raw} {x : Input} {i : Instr}
  {rest : List Input} {e : DecodeError} {left : Option Ports} {m : TraceName}

/-! The decoded input -/

theorem fetchRaw_ok (h : decode p ph r = .ok (i, left)) :
    fetchRaw p ph r rest = .run i (left.toList.map .ports ++ rest) := by
  simp only [fetchRaw, h]

theorem fetchRaw_noEvent (h : decode p ph r = .error .noEvent) :
    fetchRaw p ph r rest = .hold rest := by
  simp only [fetchRaw, h]

theorem fetchRaw_badOperands (h : decode p ph r = .error (.badOperands m)) :
    fetchRaw p ph r rest = .reject (.badOperands m) := by
  simp only [fetchRaw, h]

/-! The head of the inbox -/

theorem fetch_cons (h : s.inbox = x :: rest) :
    fetch p s = fetchRaw p s.phase (seen s x) rest := by
  simp only [fetch, h]

theorem fetch_nil_busy (h : s.inbox = []) (hb : s.busy = true) : fetch p s = .run .sample [] := by
  simp only [fetch, h, hb, if_true]

theorem fetch_nil_idle (h : s.inbox = []) (hb : s.busy = false) : fetch p s = .hold [] := by
  simp only [fetch, h, hb, Bool.false_eq_true, if_false]

/-! The step of each answer -/

theorem step_of_run (h : fetch Config.params.params s = .run i rest) :
    step s = exec i { s with inbox := rest } := by
  simp only [step, h]

theorem step_of_hold (h : fetch Config.params.params s = .hold rest) :
    step s = .next { s with inbox := rest } := by
  simp only [step, h]

theorem step_of_reject (h : fetch Config.params.params s = .reject e) :
    step s = .refused (.undecodable e) := by
  simp only [step, h]

/-- Emptying an empty inbox changes nothing. -/
theorem inbox_nil_self (h : s.inbox = []) : { s with inbox := [] } = s := by
  rw [← h]

/-- A head without an event is passed over (R258). -/
theorem step_noEvent (h : s.inbox = x :: rest)
    (hd : decode Config.params.params s.phase (seen s x) = .error .noEvent) :
    step s = .next { s with inbox := rest } :=
  step_of_hold ((fetch_cons h).trans (fetchRaw_noEvent hd))

/-- While a block is in progress the core does not see the block-start port, so a clock that signals
nothing else has no event (R92). -/
theorem decode_busy_blockStart (hb : s.busy = true) (f : Num32) :
    decode p ph (seen s (.ports { Ports.quiet with blkStart := true, fshiftIn := f }))
      = .error .noEvent := by
  simp [seen, hb, decode, decodePorts, firstButton, Ports.quiet]

end Answers

/-- Settles O7: the fetch answers the decoded head, with what is left of its clock put back. -/
theorem stepRunsDecodedInput : Obligations.StepRunsDecodedInput := by
  intro s x rest i left h hd
  exact step_of_run ((fetch_cons h).trans (fetchRaw_ok hd))

/-- Settles O8, clause by clause along the fetch's answers. -/
theorem stepWithoutInstruction : Obligations.StepWithoutInstruction := by
  refine ⟨fun s h hb => ?busy, fun s h hb => ?idle, fun s x rest h hd => step_noEvent h hd,
    fun s f rest hb h => step_noEvent h (decode_busy_blockStart hb f),
    fun s x rest m h hd => step_of_reject ((fetch_cons h).trans (fetchRaw_badOperands hd))⟩
  case busy => rw [step_of_run (fetch_nil_busy h hb), inbox_nil_self h]
  case idle => rw [step_of_hold (fetch_nil_idle h hb), inbox_nil_self h]

end Sys2Proof.Schedule
end

section
/-! The inbox is neither read nor written: every operation commutes with replacing the inbox (R13,
log 1). The commutation is shown once for each shared operation, and composes. -/

namespace Sys2Proof.Inbox

open Sys2Proof.Machine Sys2Proof.Laws

/-- The state with other inputs waiting. -/
def withInbox (q : List Input) (s : State) : State := { s with inbox := q }

@[simp] theorem withInbox_phase (q : List Input) (s : State) :
    (withInbox q s).phase = s.phase := rfl
@[simp] theorem withInbox_pendingNote (q : List Input) (s : State) :
    (withInbox q s).pendingNote = s.pendingNote := rfl
@[simp] theorem withInbox_busy (q : List Input) (s : State) :
    (withInbox q s).busy = s.busy := rfl
@[simp] theorem withInbox_i (q : List Input) (s : State) : (withInbox q s).i = s.i := rfl
@[simp] theorem withInbox_slot (q : List Input) (s : State) (k : SlotIx) :
    (withInbox q s).slot k = s.slot k := rfl

/-- The outcome with other inputs waiting in its next state, if it has one. -/
def outcomeWithInbox (q : List Input) :
    Host.Outcome State Fault Refusal → Host.Outcome State Fault Refusal
  | .next t => .next (withInbox q t)
  | .fault r => .fault r
  | .refused r => .refused r

/-- An update neither reads nor writes the inbox. -/
def Free (f : State → State) : Prop := ∀ q s, f (withInbox q s) = withInbox q (f s)

/-- A meaning neither reads nor writes the inbox. -/
def FreeOutcome (g : State → Host.Outcome State Fault Refusal) : Prop :=
  ∀ q s, g (withInbox q s) = outcomeWithInbox q (g s)

theorem Free.comp {f g : State → State} (hg : Free g) (hf : Free f) : Free fun s => g (f s) :=
  fun q s => (congrArg g (hf q s)).trans (hg q (f s))

theorem Free.next {f : State → State} (hf : Free f) : FreeOutcome fun s => .next (f s) :=
  fun q s => congrArg Host.Outcome.next (hf q s)

/-! Voice pool and decoder -/

theorem allocate_withInbox (n : Byte) (q : List Input) (s : State) :
    allocate n (withInbox q s) = (withInbox q (allocate n s).1, (allocate n s).2) := by
  have hscan : firstFree (withInbox q s) slotIndices = firstFree s slotIndices := rfl
  simp only [allocate, hscan]
  cases firstFree s slotIndices <;> rfl

theorem release_withInbox (n : Byte) (q : List Input) (s : State) :
    release n (withInbox q s) = (withInbox q (release n s).1, (release n s).2) := by
  have hscan : firstHolding (withInbox q s) n slotIndices = firstHolding s n slotIndices := rfl
  simp only [release, hscan]
  cases firstHolding s n slotIndices <;> rfl

theorem feedStatus_free (b : Byte) : Free (feedStatus b) := fun _ _ => rfl

theorem feedNote_free (b : Byte) : Free (feedNote b) := fun _ _ => rfl

/-! `FEED.VELOCITY` by the flags it finds (R103). -/

theorem feedVelocity_start {s : State} (h : s.noteStartFlag = true) :
    feedVelocity s = { s with
      phase := .expectStatus, noteStartFlag := false
      slots := (allocate s.pendingNote s).1.slots } := by
  have hspec := feedVelocity_spec s
  simpa only [h, true_and, Bool.true_eq_false, false_and, or_false] using hspec

theorem feedVelocity_stop {s : State} (h : s.noteStartFlag = false) (h' : s.noteStopFlag = true) :
    feedVelocity s = { s with
      phase := .expectStatus, noteStopFlag := false
      slots := (release s.pendingNote s).1.slots } := by
  have hspec := feedVelocity_spec s
  simpa only [h, h', true_and, Bool.false_eq_true, Bool.true_eq_false, false_and, and_false,
    false_or, or_false] using hspec

theorem feedVelocity_none {s : State} (h : s.noteStartFlag = false) (h' : s.noteStopFlag = false) :
    feedVelocity s = { s with phase := .expectStatus } := by
  have hspec := feedVelocity_spec s
  simpa only [h, h', true_and, Bool.false_eq_true, false_and, and_false, false_or] using hspec

/-- Neither the flags nor the pool operation they select know of the inbox. -/
theorem feedVelocity_free : Free feedVelocity := by
  intro q s
  cases hstart : s.noteStartFlag with
  | true =>
    rw [feedVelocity_start (s := withInbox q s) hstart, feedVelocity_start hstart,
      withInbox_pendingNote, allocate_withInbox]
    rfl
  | false =>
    cases hstop : s.noteStopFlag with
    | true =>
      rw [feedVelocity_stop (s := withInbox q s) hstart hstop, feedVelocity_stop hstart hstop,
        withInbox_pendingNote, release_withInbox]
      rfl
    | false =>
      rw [feedVelocity_none (s := withInbox q s) hstart hstop, feedVelocity_none hstart hstop]
      rfl

theorem feedByte_free (b : Byte) : Free (feedByte b) := by
  intro q s
  simp only [feedByte, withInbox_phase]
  cases s.phase with
  | expectStatus => exact feedStatus_free b q s
  | expectNote => exact feedNote_free b q s
  | expectVelocity => exact feedVelocity_free q s

theorem feedFrame_free (st n v : Byte) : Free (feedFrame st n v) :=
  (feedByte_free v).comp ((feedByte_free n).comp (feedByte_free st))

/-! Synthesis step and mixer -/

/-- A STEP reads and writes only what makes sound, and the inbox is no part of it (R160). -/
theorem drumStep_withInbox (c : Cfg) (d : Drum) (k : SlotIx) (q : List Input) (s : State) :
    drumStep c d k (withInbox q s) = (withInbox q (drumStep c d k s).1, (drumStep c d k s).2) := by
  have halike : SoundsAlike s (withInbox q s) := ⟨rfl, rfl, rfl, rfl⟩
  obtain ⟨⟨hlayers, -, -, hnoise⟩, hvalue⟩ := drumStep_congr halike c d k
  refine Prod.ext ?_ hvalue
  rw [drumStep_frame, hlayers, hnoise, drumStep_frame c d k s]
  rfl

theorem stepAlone_free (c : Cfg) (d : Drum) (k : SlotIx) : Free (stepAlone c d k) := by
  intro q s
  simp only [stepAlone, drumStep_withInbox]
  rfl

theorem mixSlot_free (c : Cfg) (k : SlotIx) : Free fun s => mixSlot c s k := by
  intro q s
  simp only [mixSlot, withInbox_slot, drumStep_withInbox]
  split
  · cases drumOf c.params (s.slot k).note <;> rfl
  · rfl

theorem mixFold_free (c : Cfg) (ks : List SlotIx) : Free (ks.foldl (mixSlot c)) := by
  induction ks with
  | nil => exact fun _ _ => rfl
  | cons k ks ih => exact ih.comp (mixSlot_free c k)

theorem mixAll_free (c : Cfg) : Free (mixAll c) :=
  (mixFold_free c slotIndices).comp (f := zeroAcc c) fun _ _ => rfl

theorem sample_free (c : Cfg) : FreeOutcome (sample c) := by
  intro q s
  have hsum (t : State) : mixSum c (withInbox q t) = mixSum c t := rfl
  simp only [sample, withInbox_busy, withInbox_i, mixAll_free c q s, hsum]
  generalize mixAll c s = t
  split
  · rfl
  · split <;> rfl

theorem samples_free (c : Cfg) (n : Nat) : FreeOutcome (samples c n) := by
  induction n with
  | zero => exact fun _ _ => rfl
  | succ n ih =>
    intro q s
    simp only [samples, sample_free c q s]
    cases sample c s with
    | next t => exact ih q t
    | fault r => rfl
    | refused r => rfl

/-! Controls and block events -/

theorem poll_free (c : Cfg) : Free (poll c) := by
  intro q s
  rw [poll_spec, poll_spec c s]
  rfl

theorem blockStart_free (c : Cfg) (f : Num32) : FreeOutcome (blockStart c f) := by
  intro q s
  have hpoll : poll c (latchShift f (withInbox q s)) = withInbox q (poll c (latchShift f s)) :=
    poll_free c q (latchShift f s)
  simp only [blockStart, withInbox_busy, hpoll]
  split <;> rfl

theorem runBlock_free (c : Cfg) (f : Num32) : FreeOutcome (runBlock c f) := by
  intro q s
  simp only [runBlock, blockStart_free c f q s]
  cases blockStart c f s with
  | next t => exact samples_free c _ q t
  | fault r => rfl
  | refused r => rfl

/-! Every instruction -/

/-- No instruction reads or writes the inbox. -/
theorem exec_free (i : Instr) : FreeOutcome (exec i) := by
  cases i with
  | noteOn n v => exact (feedFrame_free 0x90 n v).next
  | noteOff n v => exact (feedFrame_free 0x80 n v).next
  | ignore st n v => exact (feedFrame_free st n v).next
  | feedStatus b => exact (feedStatus_free b).next
  | feedNote b => exact (feedNote_free b).next
  | feedVelocity b => exact feedVelocity_free.next
  | kickStep k => exact (stepAlone_free Config.cfg .kick k).next
  | snareStep k => exact (stepAlone_free Config.cfg .snare k).next
  | midTomStep k => exact (stepAlone_free Config.cfg .midTom k).next
  | highTomStep k => exact (stepAlone_free Config.cfg .highTom k).next
  | hiHatStep k => exact (stepAlone_free Config.cfg .hiHat k).next
  | noStep k n => exact fun _ _ => rfl
  | allocate n =>
    intro q s
    simp only [exec, execAllocate, allocate_withInbox]
    rfl
  | release n =>
    intro q s
    simp only [exec, execRelease, release_withInbox]
    rfl
  | resetAll => exact fun _ _ => rfl
  | poll => exact (poll_free Config.cfg).next
  | press k => exact fun _ _ => rfl
  | blockStart f => exact blockStart_free Config.cfg f
  | sample => exact sample_free Config.cfg
  | overrun => exact fun _ _ => rfl
  | reset => exact fun _ _ => rfl
  | feed b => exact (feedByte_free b).next
  | msg st n v => exact (feedFrame_free st n v).next
  | noteonMsg n v => exact (feedFrame_free 0x90 n v).next
  | noteoffMsg n v => exact (feedFrame_free 0x80 n v).next
  | block f => exact runBlock_free Config.cfg f
  | panic => exact fun _ _ => rfl
  | kickMsg => exact (feedFrame_free 0x90 60 100).next
  | snareMsg => exact (feedFrame_free 0x90 61 100).next

/-- Settles O44: `exec_free` says it of every instruction, outcome by outcome. -/
theorem inboxNeitherReadNorWritten : Obligations.InboxNeitherReadNorWritten := by
  intro i s q
  have h := exec_free i q s
  cases he : exec i s <;> rw [he] at h <;> exact h

end Sys2Proof.Inbox
end

section
/-! What an instruction can do, said once (R12): it runs bytes through the decoder, or leaves decoder
and block processor alone, or is one of the events named in `Effect`. -/

namespace Sys2Proof.Effects

open Sys2Proof.Machine Sys2Proof.Laws

/-! What stays as it is -/

/-- The sequencer, the layer file and the output buffers are as before. -/
structure BlockKept (s t : State) : Prop where
  layers : t.layers = s.layers
  busy : t.busy = s.busy
  i : t.i = s.i
  outL : t.outL = s.outL
  outR : t.outR = s.outR

/-- The decoder's registers are as before. -/
structure DecoderKept (s t : State) : Prop where
  phase : t.phase = s.phase
  noteStartFlag : t.noteStartFlag = s.noteStartFlag
  noteStopFlag : t.noteStopFlag = s.noteStopFlag
  pendingNote : t.pendingNote = s.pendingNote

theorem BlockKept.layer {s t : State} (h : BlockKept s t) (L : Layer) : t.layer L = s.layer L := by
  simp only [State.layer, h.layers]

/-! One byte -/

/-- One of the three phase rules run on `s` (R101 to R103). -/
inductive ByteRule (s : State) : State → Prop
  | status (b : Byte) : ByteRule s (feedStatus b s)
  | note (b : Byte) : ByteRule s (feedNote b s)
  | velocity : ByteRule s (feedVelocity s)

/-- A phase rule writes the decoder and the pool and nothing else (R107). -/
theorem ByteRule.frame {s t : State} (h : ByteRule s t) :
    t = { s with
      phase := t.phase, noteStartFlag := t.noteStartFlag, noteStopFlag := t.noteStopFlag
      pendingNote := t.pendingNote, slots := t.slots } := by
  cases h with
  | status b => rfl
  | note b => rfl
  | velocity =>
    obtain ⟨-, h⟩ | ⟨-, -, h⟩ | ⟨-, -, h⟩ := feedVelocity_spec s <;> rw [h]

/-- A phase rule writes at most one slot (R107). -/
theorem ByteRule.oneSlotDiffers {s t : State} (h : ByteRule s t) : OneSlotDiffers s t := by
  cases h with
  | status b => exact OneSlotDiffers_refl s
  | note b => exact OneSlotDiffers_refl s
  | velocity =>
    obtain ⟨-, h⟩ | ⟨-, -, h⟩ | ⟨-, -, h⟩ := feedVelocity_spec s <;> rw [h]
    · exact allocate_oneSlot s.pendingNote s
    · exact release_oneSlot s.pendingNote s
    · exact OneSlotDiffers_refl s

theorem ByteRule.blockKept {s t : State} (h : ByteRule s t) : BlockKept s t := by
  rw [h.frame]
  exact ⟨rfl, rfl, rfl, rfl, rfl⟩

theorem ByteRule.overrun {s t : State} (h : ByteRule s t) : t.overrun = s.overrun := by
  rw [h.frame]

/-- FEED runs the rule of the phase it finds (R100). -/
theorem feedByte_rule (b : Byte) (s : State) : ByteRule s (feedByte b s) := by
  unfold feedByte
  split
  · exact .status b
  · exact .note b
  · exact .velocity

/-! Several bytes -/

/-- Phase rules run one after another. -/
abbrev ByteRules : State → State → Prop := Relation.ReflTransGen ByteRule

/-- A message is three FEEDs (R61). -/
theorem feedFrame_rules (st n v : Byte) (s : State) : ByteRules s (feedFrame st n v s) :=
  ((Relation.ReflTransGen.single (feedByte_rule st s)).tail (feedByte_rule n _)).tail
    (feedByte_rule v _)

/-- Any number of bytes leaves what one byte leaves. -/
theorem ByteRules.kept {s t : State} (h : ByteRules s t) :
    BlockKept s t ∧ t.overrun = s.overrun := by
  induction h with
  | refl => exact ⟨⟨rfl, rfl, rfl, rfl, rfl⟩, rfl⟩
  | tail _ hbyte ih =>
    obtain ⟨⟨hlayers, hbusy, hi, hL, hR⟩, hover⟩ := ih
    have hk := hbyte.blockKept
    exact ⟨⟨hk.layers.trans hlayers, hk.busy.trans hbusy, hk.i.trans hi, hk.outL.trans hL,
      hk.outR.trans hR⟩, hbyte.overrun.trans hover⟩

/-! Every instruction -/

/-- The instructions that run bytes through the decoder: the formats M3 and B1, FEED and the messages
of format PSEUDO. -/
def feeds : Instr → Bool
  | .noteOn _ _ | .noteOff _ _ | .ignore _ _ _ | .feedStatus _ | .feedNote _ | .feedVelocity _
  | .feed _ | .msg _ _ _ | .noteonMsg _ _ | .noteoffMsg _ _ | .kickMsg | .snareMsg => true
  | _ => false

/-- What instruction `i` can make of `s`. -/
inductive Effect (s : State) : Instr → State → Prop
  /-- bytes through the decoder -/
  | bytes {i : Instr} {t : State} (hf : feeds i = true) (h : ByteRules s t) : Effect s i t
  /-- NOSTEP, a pool operation, a button or POLL -/
  | quiet {i : Instr} {t : State} (hb : BlockKept s t) (hd : DecoderKept s t)
      (ho : t.overrun = s.overrun) : Effect s i t
  | drumStep (k : SlotIx) (d : Drum) : Effect s (stepInstr k d) (stepAlone Config.cfg d k s)
  | blockStart {f : Num32} {t : State} (h : blockStart Config.cfg f s = .next t) :
      Effect s (.blockStart f) t
  | sample {t : State} (h : sample Config.cfg s = .next t) : Effect s .sample t
  | block {f : Num32} {t : State} (h : runBlock Config.cfg f s = .next t) : Effect s (.block f) t
  | overrun : Effect s .overrun { s with overrun := true }
  | reset : Effect s .reset (resetCore s)

theorem allocate_quiet (i : Instr) (n : Byte) (r : OpResult) (s : State) :
    Effect s i { (allocate n s).1 with result := r } := by
  rw [allocate_frame]
  exact .quiet ⟨rfl, rfl, rfl, rfl, rfl⟩ ⟨rfl, rfl, rfl, rfl⟩ rfl

theorem release_quiet (i : Instr) (n : Byte) (r : OpResult) (s : State) :
    Effect s i { (release n s).1 with result := r } := by
  rw [release_frame]
  exact .quiet ⟨rfl, rfl, rfl, rfl, rfl⟩ ⟨rfl, rfl, rfl, rfl⟩ rfl

theorem poll_quiet (i : Instr) (s : State) : Effect s i (poll Config.cfg s) := by
  rw [poll_frame]
  exact .quiet ⟨rfl, rfl, rfl, rfl, rfl⟩ ⟨rfl, rfl, rfl, rfl⟩ rfl

/-- The instruction's effect, by the dispatch. -/
theorem exec_effect {i : Instr} {s t : State} (h : exec i s = .next t) : Effect s i t := by
  cases i with
  | noteOn n v | noteonMsg n v => cases h; exact .bytes rfl (feedFrame_rules 0x90 n v s)
  | noteOff n v | noteoffMsg n v => cases h; exact .bytes rfl (feedFrame_rules 0x80 n v s)
  | ignore st n v | msg st n v => cases h; exact .bytes rfl (feedFrame_rules st n v s)
  | kickMsg => cases h; exact .bytes rfl (feedFrame_rules 0x90 60 100 s)
  | snareMsg => cases h; exact .bytes rfl (feedFrame_rules 0x90 61 100 s)
  | feedStatus b => cases h; exact .bytes rfl (.single (.status b))
  | feedNote b => cases h; exact .bytes rfl (.single (.note b))
  | feedVelocity b => cases h; exact .bytes rfl (.single .velocity)
  | feed b => cases h; exact .bytes rfl (.single (feedByte_rule b s))
  | kickStep k => cases h; exact .drumStep k .kick
  | snareStep k => cases h; exact .drumStep k .snare
  | midTomStep k => cases h; exact .drumStep k .midTom
  | highTomStep k => cases h; exact .drumStep k .highTom
  | hiHatStep k => cases h; exact .drumStep k .hiHat
  | allocate n => cases h; exact allocate_quiet _ n _ s
  | release n => cases h; exact release_quiet _ n _ s
  | poll => cases h; exact poll_quiet _ s
  | noStep | resetAll | press | panic =>
    cases h; exact .quiet ⟨rfl, rfl, rfl, rfl, rfl⟩ ⟨rfl, rfl, rfl, rfl⟩ rfl
  | blockStart f => exact .blockStart h
  | sample => exact .sample h
  | block f => exact .block h
  | overrun => cases h; exact .overrun
  | reset => cases h; exact .reset

/-- A byte instruction is a frame, a byte, an event or a message (R83). -/
theorem feeds_format {i : Instr} (h : feeds i = true) : i.format ≠ .n8 ∧ i.format ≠ .int := by
  have hnot : (feeds i && (i.format == .n8 || i.format == .int)) = false := by cases i <;> rfl
  simpa [h] using hnot

/-! What the events with an outcome of their own leave -/

/-- What BLOCK_START and every SAMPLE keep, BLOCK keeps (R211). -/
theorem runBlock_keeps {c : Cfg} {P : State → Prop}
    (hstart : ∀ f s t, P s → blockStart c f s = .next t → P t)
    (hsample : ∀ s t, P s → sample c s = .next t → P t) (f : Num32) (s t : State) (hs : P s)
    (h : runBlock c f s = .next t) : P t := by
  unfold runBlock at h
  cases hb : blockStart c f s with
  | next u => rw [hb] at h; exact samples_keep c P hsample _ u t (hstart f s u hs hb) h
  | fault r => rw [hb] at h; cases h
  | refused r => rw [hb] at h; cases h

/-- A STEP applied by itself writes the layer file, the draw index and its result (R160). -/
theorem stepAlone_frame (c : Cfg) (d : Drum) (k : SlotIx) (s : State) :
    stepAlone c d k s = { s with
      layers := (stepAlone c d k s).layers, noiseIx := (stepAlone c d k s).noiseIx
      result := (stepAlone c d k s).result } := by
  unfold stepAlone
  rw [drumStep_frame]

/-- A BLOCK_START that is not refused starts a block (R202). -/
theorem blockStart_next {c : Cfg} {f : Num32} {s t : State} (h : blockStart c f s = .next t) :
    t = { s with
      layers := (latchShift f s).layers, var := (poll c s).var, btn := (poll c s).btn
      slots := (poll c s).slots, acc := (poll c s).acc, busy := true, i := 0 } := by
  obtain ⟨-, hr⟩ | ⟨-, hn⟩ := blockStart_spec c f s
  · rw [hr] at h; cases h
  · rw [hn] at h; cases h; rfl

/-- A SAMPLE that is enabled writes element `i` of both buffers and moves on (R204, R210). -/
theorem sample_next {c : Cfg} {s t : State} (h : sample c s = .next t) :
    s.i < c.params.blockSize ∧ t = { s with
      layers := (mixAll c s).layers, acc := (mixAll c s).acc, noiseIx := (mixAll c s).noiseIx
      outL := Buffer.write s.outL s.i (mixSum c (mixAll c s))
      outR := Buffer.write s.outR s.i (mixSum c (mixAll c s))
      i := s.i + 1, busy := decide (s.i + 1 ≠ c.params.blockSize) } := by
  obtain ⟨-, hr⟩ | ⟨-, -, hr⟩ | ⟨-, hi, hn⟩ := sample_spec c s
  · rw [hr] at h; cases h
  · rw [hr] at h; cases h
  · rw [hn] at h; cases h; exact ⟨hi, rfl⟩

/-- A BLOCK_START leaves every counter (R202). -/
theorem blockStart_cnt {c : Cfg} {f : Num32} {s t : State} (h : blockStart c f s = .next t)
    (L : Layer) : (t.layer L).cnt = (s.layer L).cnt := by
  rw [blockStart_next h]
  have hlatch := congrArg LayerState.cnt (latchShift_layer f s L)
  exact hlatch

/-! What a block's events leave, the decoder and the sticky flag -/

/-- The decoder and the sticky flag are as in `s`. -/
def OutsideKept (s t : State) : Prop := DecoderKept s t ∧ t.overrun = s.overrun

theorem OutsideKept.refl (s : State) : OutsideKept s s := ⟨⟨rfl, rfl, rfl, rfl⟩, rfl⟩

theorem OutsideKept.trans {s t u : State} (h : OutsideKept s t) (h' : OutsideKept t u) :
    OutsideKept s u :=
  ⟨⟨h'.1.phase.trans h.1.phase, h'.1.noteStartFlag.trans h.1.noteStartFlag,
    h'.1.noteStopFlag.trans h.1.noteStopFlag, h'.1.pendingNote.trans h.1.pendingNote⟩,
    h'.2.trans h.2⟩

theorem stepAlone_outsideKept (c : Cfg) (d : Drum) (k : SlotIx) (s : State) :
    OutsideKept s (stepAlone c d k s) := by
  rw [stepAlone_frame]
  exact ⟨⟨rfl, rfl, rfl, rfl⟩, rfl⟩

theorem blockStart_outsideKept {c : Cfg} {f : Num32} {s t : State}
    (h : blockStart c f s = .next t) : OutsideKept s t := by
  rw [blockStart_next h]
  exact ⟨⟨rfl, rfl, rfl, rfl⟩, rfl⟩

theorem sample_outsideKept {c : Cfg} {s t : State} (h : sample c s = .next t) :
    OutsideKept s t := by
  rw [(sample_next h).2]
  exact ⟨⟨rfl, rfl, rfl, rfl⟩, rfl⟩

theorem runBlock_outsideKept {c : Cfg} {f : Num32} {s t : State}
    (h : runBlock c f s = .next t) : OutsideKept s t :=
  runBlock_keeps (P := OutsideKept s) (fun _ _ _ hs hb => hs.trans (blockStart_outsideKept hb))
    (fun _ _ hs hn => hs.trans (sample_outsideKept hn)) f s t (.refl s) h

/-! The statements about all instructions -/

/-- Settles O43: of the effects only bytes and RESET write the decoder, and neither is of the
instructions named. -/
theorem decoderKeptByOtherEvents : Obligations.DecoderKeptByOtherEvents := by
  intro i s t hi h
  have kept {t : State} (hk : DecoderKept s t) : t.phase = s.phase
      ∧ t.noteStartFlag = s.noteStartFlag ∧ t.noteStopFlag = s.noteStopFlag
      ∧ t.pendingNote = s.pendingNote :=
    ⟨hk.phase, hk.noteStartFlag, hk.noteStopFlag, hk.pendingNote⟩
  cases exec_effect h with
  | bytes hf =>
    obtain ⟨hn8, hint⟩ := feeds_format hf
    obtain hc | hc | ⟨_, rfl⟩ | ⟨_, rfl⟩ | rfl | rfl | ⟨_, rfl⟩ | rfl := hi
    · exact absurd hc hn8
    · exact absurd hc hint
    all_goals cases hf
  | quiet _ hd _ => exact kept hd
  | drumStep k d => exact kept (stepAlone_outsideKept _ d k s).1
  | blockStart hb => exact kept (blockStart_outsideKept hb).1
  | sample hs => exact kept (sample_outsideKept hs).1
  | block hb => exact kept (runBlock_outsideKept hb).1
  | overrun => exact ⟨rfl, rfl, rfl, rfl⟩
  | reset => simp [Instr.format] at hi

/-- Settles O28: of the effects only a STEP, SAMPLE, BLOCK and RESET write a counter. -/
theorem countersMovedOnlyBySynthesis : Obligations.CountersMovedOnlyBySynthesis := by
  intro i s t hstep hsample hreset hblock h L
  cases exec_effect h with
  | bytes _ hb => rw [hb.kept.1.layer]
  | quiet hb _ _ => rw [hb.layer]
  | drumStep k d => exact absurd rfl (hstep k d)
  | blockStart hb => exact blockStart_cnt hb L
  | sample => exact absurd rfl hsample
  | block => exact absurd rfl (hblock _)
  | overrun => rfl
  | reset => exact absurd rfl hreset

/-- Every instruction but OVERRUN and RESET leaves the sticky flag. -/
theorem exec_overrun_kept {i : Instr} {s t : State} (hi : i ≠ .overrun) (hr : i ≠ .reset)
    (h : exec i s = .next t) : t.overrun = s.overrun := by
  cases exec_effect h with
  | bytes _ hb => exact hb.kept.2
  | quiet _ _ ho => exact ho
  | drumStep k d => exact (stepAlone_outsideKept _ d k s).2
  | blockStart hb => exact (blockStart_outsideKept hb).2
  | sample hs => exact (sample_outsideKept hs).2
  | block hb => exact (runBlock_outsideKept hb).2
  | overrun => exact absurd rfl hi
  | reset => exact absurd rfl hr

/-- Settles O41: RESET clears the flag, OVERRUN sets it, and every other instruction leaves it. -/
theorem overrunClearedOnlyByReset : Obligations.OverrunClearedOnlyByReset := by
  refine ⟨fun s => ⟨resetCore s, rfl, rfl⟩, fun i s t hr h => ?_⟩
  by_cases hi : i = .overrun
  · subst hi
    cases h
    exact iff_of_true rfl (.inr rfl)
  · rw [exec_overrun_kept hi hr h]
    exact (or_iff_left hi).symm

end Sys2Proof.Effects
end

section
/-! Framing (R24, R62, R107, R108): FEED completes as its phase's rule, and the phase counts bytes. -/

namespace Sys2Proof.Framing

open Sys2Proof.Machine Sys2Proof.Laws Sys2Proof.Effects

/-! The rule of each phase -/

theorem feedByte_expectStatus {s : State} (h : s.phase = .expectStatus) (b : Byte) :
    feedByte b s = feedStatus b s := by
  simp only [feedByte, h]

theorem feedByte_expectNote {s : State} (h : s.phase = .expectNote) (b : Byte) :
    feedByte b s = feedNote b s := by
  simp only [feedByte, h]

theorem feedByte_expectVelocity {s : State} (h : s.phase = .expectVelocity) (b : Byte) :
    feedByte b s = feedVelocity s := by
  simp only [feedByte, h]

theorem feedVelocity_phase (s : State) : (feedVelocity s).phase = .expectStatus := by
  obtain ⟨-, h⟩ | ⟨-, -, h⟩ | ⟨-, -, h⟩ := feedVelocity_spec s <;> rw [h]

/-- A byte moves the phase one position (R24). -/
theorem feedByte_phase (b : Byte) (s : State) : (feedByte b s).phase = s.phase.succ := by
  cases hp : s.phase with
  | expectStatus => rw [feedByte_expectStatus hp]; rfl
  | expectNote => rw [feedByte_expectNote hp]; rfl
  | expectVelocity => rw [feedByte_expectVelocity hp]; exact feedVelocity_phase s

/-- FEED is the instruction its byte decodes to in the phase (R83, R100). -/
theorem exec_decodeByte (b : Byte) (s : State) :
    exec (decodeByte s.phase b) s = .next (feedByte b s) := by
  cases hp : s.phase with
  | expectStatus => rw [feedByte_expectStatus hp]; rfl
  | expectNote => rw [feedByte_expectNote hp]; rfl
  | expectVelocity => rw [feedByte_expectVelocity hp]; rfl

/-- FEED signals what that instruction signals (R100). -/
theorem signals_decodeByte (b : Byte) (s : State) :
    signals (decodeByte s.phase b) s = signals (.feed b) s := by
  simp only [signals.eq_def (.feed b), feedSignals]
  cases s.phase <;> rfl

/-! At most one condition (R248) -/

theorem allocateSignals_length (n : Byte) (s : State) : (allocateSignals n s).length ≤ 1 := by
  unfold allocateSignals
  split <;> simp

theorem releaseSignals_length (n : Byte) (s : State) : (releaseSignals n s).length ≤ 1 := by
  unfold releaseSignals
  split <;> simp

theorem velocitySignals_length (s : State) : (velocitySignals s).length ≤ 1 := by
  unfold velocitySignals
  split
  · exact allocateSignals_length s.pendingNote s
  · split
    · exact releaseSignals_length s.pendingNote s
    · exact Nat.zero_le 1

theorem statusSignals_length (b : Byte) : (statusSignals b).length ≤ 1 := by
  unfold statusSignals
  split <;> simp

theorem feedSignals_length (b : Byte) (s : State) : (feedSignals b s).length ≤ 1 := by
  unfold feedSignals
  split
  · exact statusSignals_length b
  · exact Nat.zero_le 1
  · exact velocitySignals_length s

/-- Settles O13: FEED is one phase rule, and the rule's frame is `ByteRule.frame`. -/
theorem feedCompletesAndFrames : Obligations.FeedCompletesAndFrames := by
  intro b s
  have hrule : ByteRule s (feedByte b s) := feedByte_rule b s
  exact ⟨feedByte b s, rfl, exec_decodeByte b s, feedByte_phase b s, hrule.frame,
    hrule.oneSlotDiffers, (signals_decodeByte b s).symm, feedSignals_length b s⟩

/-! Byte strings -/

/-- The phase has period three (R24). -/
theorem succ_iterate_three : Phase.succ^[3] = id := by
  funext ph
  cases ph <;> rfl

theorem succ_iterate_of_mod_three {n : Nat} (h : n % 3 = 0) (ph : Phase) :
    Phase.succ^[n] ph = ph := by
  obtain ⟨m, rfl⟩ := Nat.dvd_of_mod_eq_zero h
  rw [Function.iterate_mul, succ_iterate_three, Function.iterate_id, id]

/-- A byte string completes, one position of the phase a byte (R62). -/
theorem execAll_feed (bs : List Byte) (s : State) :
    ∃ t, execAll (bs.map .feed) s = .next t ∧ t.phase = Phase.succ^[bs.length] s.phase := by
  induction bs generalizing s with
  | nil => exact ⟨s, rfl, rfl⟩
  | cons b bs ih =>
    obtain ⟨t, hrun, hphase⟩ := ih (feedByte b s)
    refine ⟨t, hrun, ?_⟩
    rw [hphase, feedByte_phase, List.length_cons, Function.iterate_succ_apply]

/-- Settles O18: by induction on the bytes, and three positions are none. -/
theorem phaseCountsBytes : Obligations.PhaseCountsBytes := by
  intro bs s
  obtain ⟨t, hrun, hphase⟩ := execAll_feed bs s
  exact ⟨t, hrun, hphase, fun h => hphase.trans (succ_iterate_of_mod_three h s.phase)⟩

end Sys2Proof.Framing
end

section
/-! The invariants of the step (R25, R27, R34, R38). A predicate that every event keeps is kept by every
step; each invariant is then shown for the few events that write what it speaks of. -/

namespace Sys2Proof.Invariants

open Sys2Proof.Machine Sys2Proof.Laws Sys2Proof.Safety Sys2Proof.Effects

/-! From events to steps -/

/-- `P` holds after reset and no event the step can run breaks it. -/
structure KeptByEvents (P : State → Prop) : Prop where
  /-- `P` speaks of the decoder and the block processor alone -/
  quiet : ∀ {s t : State}, P s → BlockKept s t → DecoderKept s t → P t
  byte : ∀ {s t : State}, P s → ByteRule s t → P t
  start : ∀ (f : Num32) (s t : State), P s → blockStart Config.cfg f s = .next t → P t
  sample : ∀ s t : State, P s → sample Config.cfg s = .next t → P t
  reset : P State.reset

section Lift

variable {P : State → Prop} {s t : State} {i : Instr}

/-- Every STEP is of format N8, which no input has (R88). -/
theorem stepInstr_format (k : SlotIx) (d : Drum) : (stepInstr k d).format = .n8 := by
  cases d <;> rfl

theorem KeptByEvents.bytes (hP : KeptByEvents P) (hs : P s) (h : ByteRules s t) : P t := by
  induction h with
  | refl => exact hs
  | tail _ hbyte ih => exact hP.byte ih hbyte

theorem KeptByEvents.exec (hP : KeptByEvents P) (hi : i.format ≠ .n8) (hs : P s)
    (h : exec i s = .next t) : P t := by
  cases exec_effect h with
  | bytes _ hb => exact hP.bytes hs hb
  | quiet hb hd _ => exact hP.quiet hs hb hd
  | drumStep k d => exact absurd (stepInstr_format k d) hi
  | blockStart hb => exact hP.start _ _ _ hs hb
  | sample hn => exact hP.sample _ _ hs hn
  | block hb => exact runBlock_keeps hP.start hP.sample _ _ _ hs hb
  | overrun => exact hP.quiet hs ⟨rfl, rfl, rfl, rfl, rfl⟩ ⟨rfl, rfl, rfl, rfl⟩
  | reset => exact hP.quiet hP.reset ⟨rfl, rfl, rfl, rfl, rfl⟩ ⟨rfl, rfl, rfl, rfl⟩

/-- The step runs no instruction of format N8 (R12, R140). -/
theorem fetch_format {p : Params} {q : List Input} (h : fetch p s = .run i q) :
    i.format ≠ .n8 := by
  obtain ⟨-, -, rfl⟩ | ⟨x, rest, left, -, hdecode, -⟩ := fetch_run h
  · nofun
  · exact (input_format hdecode).1

/-- What every event keeps, every step keeps. -/
theorem KeptByEvents.step (hP : KeptByEvents P) (hs : P s) (h : step s = .next t) : P t := by
  have hinbox (q : List Input) : P { s with inbox := q } :=
    hP.quiet hs ⟨rfl, rfl, rfl, rfl, rfl⟩ ⟨rfl, rfl, rfl, rfl⟩
  obtain ⟨i, rest, hfetch, hexec⟩ | ⟨rest, -, rfl⟩ := step_cases h
  · exact hP.exec (fetch_format hfetch) (hinbox rest) hexec
  · exact hinbox rest

end Lift

/-! The decoder's flags -/

section Flags

variable {s t : State}

theorem FlagsOk.congr (h : FlagsOk s) (hk : DecoderKept s t) : FlagsOk t := by
  unfold FlagsOk
  rw [hk.phase, hk.noteStartFlag, hk.noteStopFlag]
  exact h

/-- The status byte sets at most one flag (R101). -/
theorem feedStatus_flagsOk (b : Byte) (s : State) : FlagsOk (feedStatus b s) := by
  refine ⟨nofun, fun ⟨hstart, hstop⟩ => ?_⟩
  simp only [feedStatus, beq_iff_eq] at hstart hstop
  exact absurd (hstart.symm.trans hstop) (by decide)

/-- The velocity byte clears the one flag that can be set (R103). -/
theorem feedVelocity_flagsOk (h : FlagsOk s) : FlagsOk (feedVelocity s) := by
  obtain ⟨-, hboth⟩ := h
  obtain ⟨hstart, hv⟩ | ⟨hstart, -, hv⟩ | ⟨hstart, hstop, hv⟩ := feedVelocity_spec s <;> rw [hv]
  · have hstop : s.noteStopFlag = false := by simpa [hstart] using hboth
    exact ⟨fun _ => ⟨rfl, hstop⟩, fun hc => absurd hc.1 Bool.false_ne_true⟩
  · exact ⟨fun _ => ⟨hstart, rfl⟩, fun hc => absurd hc.2 Bool.false_ne_true⟩
  · exact ⟨fun _ => ⟨hstart, hstop⟩, hboth⟩

theorem ByteRule.flagsOk (h : FlagsOk s) (hb : ByteRule s t) : FlagsOk t := by
  cases hb with
  | status b => exact feedStatus_flagsOk b s
  | note b => exact ⟨nofun, h.2⟩
  | velocity => exact feedVelocity_flagsOk h

theorem flagsOk_reset : FlagsOk State.reset := ⟨fun _ => ⟨rfl, rfl⟩, fun h => nomatch h.1⟩

theorem flagsOk_kept : KeptByEvents FlagsOk where
  quiet h _ hd := FlagsOk.congr h hd
  byte h hb := ByteRule.flagsOk h hb
  start _ _ _ h hb := FlagsOk.congr h (blockStart_outsideKept hb).1
  sample _ _ h hn := FlagsOk.congr h (sample_outsideKept hn).1
  reset := flagsOk_reset

/-- Settles O47: only bytes and RESET write the flags. -/
theorem stepKeepsFlags : Obligations.StepKeepsFlags :=
  fun _ _ hs h => flagsOk_kept.step hs h

end Flags

/-! The block sequencer -/

section Sequencer

variable {c : Cfg} {s t : State}

theorem SequencerOk.congr (h : SequencerOk c s) (hk : BlockKept s t) : SequencerOk c t := by
  unfold SequencerOk
  rw [hk.i, hk.busy]
  exact h

/-- A block starts at its first element, and has one (R8, R202). -/
theorem blockStart_sequencerOk {f : Num32} (hc : 1 ≤ c.params.blockSize)
    (h : blockStart c f s = .next t) : SequencerOk c t := by
  rw [blockStart_next h]
  exact ⟨Nat.zero_le _, fun _ => hc⟩

/-- A SAMPLE goes one further, and ends the block at its last element (R204, R210). -/
theorem sample_sequencerOk (h : sample c s = .next t) : SequencerOk c t := by
  obtain ⟨hi, ht⟩ := sample_next h
  rw [ht]
  exact ⟨hi, fun hbusy => lt_of_le_of_ne hi (of_decide_eq_true hbusy)⟩

theorem sequencerOk_reset (c : Cfg) : SequencerOk c State.reset := ⟨Nat.zero_le _, nofun⟩

theorem sequencerOk_kept : KeptByEvents (SequencerOk Config.cfg) where
  quiet h hb _ := SequencerOk.congr h hb
  byte h hb := SequencerOk.congr h hb.blockKept
  start _ _ _ _ hb := blockStart_sequencerOk (valid_blockSize Config.params.valid) hb
  sample _ _ _ hn := sample_sequencerOk hn
  reset := sequencerOk_reset Config.cfg

/-- Settles O48: only the block processor's events and RESET write the sequencer. -/
theorem stepKeepsSequencer : Obligations.StepKeepsSequencer :=
  fun _ _ hs h => sequencerOk_kept.step hs h

end Sequencer

/-! The output buffers -/

section Buffers

variable {c : Cfg} {s t : State}

theorem BuffersOk.congr (h : BuffersOk c s) (hL : t.outL = s.outL) (hR : t.outR = s.outR) :
    BuffersOk c t := by
  unfold BuffersOk Memory.wf
  rw [hL, hR]
  exact h

/-- A SAMPLE writes one value at one element of both buffers, an element that exists (R204, R207). -/
theorem sample_buffersOk (hs : BuffersOk c s) (h : sample c s = .next t) : BuffersOk c t := by
  obtain ⟨hwf, heq, hwithin⟩ := hs
  obtain ⟨hi, ht⟩ := sample_next h
  rw [ht]
  exact ⟨memory_wf_outWriteBoth s.i _ hwf, by simp only [heq], Buffer_within_write _ hwithin hi⟩

theorem buffersOk_reset (c : Cfg) : BuffersOk c State.reset := ⟨memory_wf_reset, rfl, rfl⟩

theorem buffersOk_kept : KeptByEvents (BuffersOk Config.cfg) where
  quiet h hb _ := BuffersOk.congr h hb.outL hb.outR
  byte h hb := BuffersOk.congr h hb.blockKept.outL hb.blockKept.outR
  start _ _ _ h hb := by
    rw [blockStart_next hb]
    exact BuffersOk.congr h rfl rfl
  sample _ _ h hn := sample_buffersOk h hn
  reset := buffersOk_reset Config.cfg

/-- Settles O49: only SAMPLE and RESET write the buffers, and a SAMPLE that is enabled is in range. -/
theorem stepKeepsBuffers : Obligations.StepKeepsBuffers :=
  fun _ _ _ hs h => buffersOk_kept.step hs h

end Buffers

/-! The counters -/

section Counters

variable {c : Cfg} {s t : State}

/-- What a STEP of `d` for an active slot makes of a count `m` that goes with the drum's count `n`: one
more up to the threshold, zero past it (R161, R162). -/
def advanced (p : Params) (d : Drum) (n m : BitVec 32) : BitVec 32 :=
  if (n + 1).toNat ≤ p.nthr d then m + 1 else 0

theorem advanced_self_le (p : Params) (d : Drum) (n : BitVec 32) :
    (advanced p d n n).toNat ≤ p.nthr d := by
  unfold advanced
  split
  · assumption
  · exact Nat.zero_le _

/-- A count that goes with a drum's stays within the drum's and another's together. -/
theorem advanced_le_add {p : Params} {d : Drum} {n m : BitVec 32} {a : Nat}
    (hp : p.valid = true) (hn : n.toNat ≤ p.nthr d) (hm : m.toNat ≤ n.toNat + a) :
    (advanced p d n m).toNat ≤ (advanced p d n n).toNat + a := by
  have hbound := valid_nthr hp d
  unfold advanced
  split
  · bv_omega
  · exact Nat.zero_le _

/-- A draw taken after a layer was written leaves the layer file. -/
theorem setLayer_draw_layer (M : Layer) (v : LayerState) (n : Nat) (s : State) (L : Layer) :
    ({ s.setLayer M v with noiseIx := n } : State).layer L = if M = L then v else s.layer L :=
  setLayer_layer M v s L

/-- A drum has a transient layer or a noise layer, and not both (R141). -/
theorem transient_or_noise (p : Params) (d : Drum) :
    (∃ T, transLayer d = some T ∧ noiseGain p d = none)
      ∨ (transLayer d = none ∧ ∃ g, noiseGain p d = some g) := by
  cases d with
  | kick | midTom | highTom => exact .inl ⟨_, rfl, rfl⟩
  | snare | hiHat => exact .inr ⟨rfl, _, rfl⟩

/-- A STEP advances the drum's counter and its transient layer's, and no other (R160, R166). -/
theorem drumStep_cnt (c : Cfg) (d : Drum) (k : SlotIx) (s : State)
    (ha : (s.slot k).active = true) (L : Layer) :
    ((drumStep c d k s).1.layer L).cnt =
      if d.layer = L ∨ transLayer d = some L then
        advanced c.params d (s.layer d.layer).cnt (s.layer L).cnt
      else (s.layer L).cnt := by
  obtain ⟨T, hT, hn⟩ | ⟨hT, g, hn⟩ := transient_or_noise c.params d
  · simp only [drumStep_transient c d k s T hT hn, hT, Option.some.injEq, ha, if_true, advanced]
    by_cases hTL : T = L
    · subst hTL
      split <;> simp [stepped]
    · by_cases hdL : d.layer = L
      · subst hdL
        split <;> simp [stepped, hTL]
      · split <;> simp [hTL, hdL]
  · simp only [drumStep_noise c d k s g hT hn, hT, reduceCtorEq, or_false, ha, if_true, advanced]
    by_cases hdL : d.layer = L
    · subst hdL
      split <;> simp only [setLayer_draw_layer, stepped, if_true]
    · split <;> simp only [setLayer_draw_layer, hdL, if_false]

/-- No drum's STEP writes another drum's own layer (R141). -/
theorem fundamental_not_written {d e : Drum} (h : d ≠ e) :
    ¬(d.layer = e.layer ∨ transLayer d = some e.layer) := by
  revert h
  cases d <;> cases e <;> decide

/-- A STEP for an active slot keeps every counter within its bound. -/
theorem drumStep_countersOk (hp : c.params.valid = true) (d : Drum) (k : SlotIx)
    (ha : (s.slot k).active = true) (h : CountersOk c s) : CountersOk c (drumStep c d k s).1 := by
  obtain ⟨hthr, hsubKick, hsubTom⟩ := h
  have hcnt := drumStep_cnt c d k s ha
  refine ⟨fun e => ?thr, ?subKick, ?subTom⟩
  case thr =>
    rw [hcnt]
    by_cases he : d = e
    · subst he
      rw [if_pos (.inl rfl)]
      exact advanced_self_le c.params d _
    · rw [if_neg (fundamental_not_written he)]
      exact hthr e
  case subKick =>
    rw [hcnt, hcnt, hsubKick]
    cases d <;> rfl
  case subTom =>
    rw [hcnt, hcnt, hcnt]
    cases d with
    | midTom => exact advanced_le_add hp (hthr .midTom) hsubTom
    | highTom =>
      rw [Nat.add_comm] at hsubTom ⊢
      exact advanced_le_add hp (hthr .highTom) hsubTom
    | kick | snare | hiHat => exact hsubTom

/-- The invariant speaks of the counters alone. -/
theorem CountersOk.congr (h : CountersOk c s) (hk : ∀ L, (t.layer L).cnt = (s.layer L).cnt) :
    CountersOk c t := by
  unfold CountersOk
  simp only [hk]
  exact h

/-- The mixer runs a STEP for active slots only (R204). -/
theorem mixSlot_countersOk (hp : c.params.valid = true) (k : SlotIx) (h : CountersOk c s) :
    CountersOk c (mixSlot c s k) := by
  unfold mixSlot
  split
  · next ha =>
    split
    · exact h
    · next d _ => exact CountersOk.congr (drumStep_countersOk hp d k ha h) fun _ => rfl
  · exact h

theorem mixAll_countersOk (hp : c.params.valid = true) (h : CountersOk c s) :
    CountersOk c (mixAll c s) :=
  List.foldlRecOn slotIndices (mixSlot c) (CountersOk.congr (t := zeroAcc c s) h fun _ => rfl)
    fun _ hs k _ => mixSlot_countersOk hp k hs

theorem sample_countersOk (hp : c.params.valid = true) (hs : CountersOk c s)
    (h : sample c s = .next t) : CountersOk c t := by
  rw [(sample_next h).2]
  exact CountersOk.congr (mixAll_countersOk hp hs) fun _ => rfl

theorem layer_reset (L : Layer) : State.reset.layer L = .reset := by
  cases L <;> rfl

theorem countersOk_reset (c : Cfg) : CountersOk c State.reset := by
  unfold CountersOk
  simp only [layer_reset]
  exact ⟨fun _ => Nat.zero_le _, trivial, Nat.zero_le _⟩

theorem countersOk_kept : KeptByEvents (CountersOk Config.cfg) where
  quiet h hb _ := CountersOk.congr h fun L => by rw [hb.layer]
  byte h hb := CountersOk.congr h fun L => by rw [hb.blockKept.layer]
  start _ _ _ h hb := CountersOk.congr h (blockStart_cnt hb)
  sample _ _ h hn := sample_countersOk Config.params.valid h hn
  reset := countersOk_reset Config.cfg

/-- SubTom's count is within the bound of R34, for it is within the two toms' thresholds together. -/
theorem CountersOk.subTom_le (h : CountersOk c s) :
    (s.layer .subTom).cnt.toNat ≤ c.params.nthr .midTom + c.params.nthr .highTom + 2 := by
  obtain ⟨hthr, -, hsubTom⟩ := h
  calc (s.layer .subTom).cnt.toNat
      ≤ (s.layer .midTom).cnt.toNat + (s.layer .highTom).cnt.toNat := hsubTom
    _ ≤ c.params.nthr .midTom + c.params.nthr .highTom :=
        Nat.add_le_add (hthr .midTom) (hthr .highTom)
    _ ≤ _ := Nat.le_add_right _ 2

/-- Settles O50: a counter is written by the STEPs of a SAMPLE and by RESET alone, and a STEP past its
threshold starts the counters again. -/
theorem stepKeepsCounters : Obligations.StepKeepsCounters := by
  intro s t hs h
  have ht := countersOk_kept.step hs h
  exact ⟨ht, CountersOk.subTom_le ht⟩

end Counters

/-- Settles O51, invariant by invariant. -/
theorem resetMeetsInvariants : Obligations.ResetMeetsInvariants :=
  ⟨flagsOk_reset, sequencerOk_reset Config.cfg, buffersOk_reset Config.cfg,
    countersOk_reset Config.cfg⟩

end Sys2Proof.Invariants
end

section
/-! Messages (R61, R94, R104 to R106): every message form does and signals what the three FEEDs it
expands to do and signal. -/

namespace Sys2Proof.Messages

open Sys2Proof.Machine

/-- A message runs and signals the frame of the three FEEDs it stands for (R87, R94). -/
theorem message_runs_frame {c : Cfg} {i : Instr} {st n v : Byte}
    (h : expand c i = [.feed st, .feed n, .feed v]) (s : State) :
    exec i s = .next (feedFrame st n v s) ∧ signals i s = frameSignals st n v s := by
  cases i with
  | noteOn | noteOff | ignore | msg | noteonMsg | noteoffMsg | kickMsg | snareMsg =>
    cases h; exact ⟨rfl, rfl⟩
  | feedStatus | feedNote | feedVelocity | feed | kickStep | snareStep | midTomStep | highTomStep
  | hiHatStep | noStep | allocate | release | resetAll | poll | press | blockStart | sample
  | overrun | reset | block | panic => cases h

/-- What a frame signals is what its FEEDs signal, each where the one before it ends (R61). -/
theorem frameSignals_eq (st n v : Byte) (s : State) :
    frameSignals st n v s = signals (.feed st) s ++ signals (.feed n) (feedByte st s)
      ++ signals (.feed v) (feedByte n (feedByte st s)) := rfl

/-- Settles O17: the expansion of each form is the three FEEDs, its status literal being `st`. -/
theorem messagesAreThreeFeeds : Obligations.MessagesAreThreeFeeds := by
  intro st n v s
  have message {i : Instr} (h : expand Config.cfg i = [.feed st, .feed n, .feed v]) :
      exec i s = .next (feedFrame st n v s) ∧ signals i s = signals (.feed st) s
        ++ signals (.feed n) (feedByte st s) ++ signals (.feed v) (feedByte n (feedByte st s)) :=
    frameSignals_eq st n v s ▸ message_runs_frame h s
  refine ⟨feedByte st s, feedByte n (feedByte st s), feedFrame st n v s, rfl, rfl, rfl,
    message rfl, message rfl, ?noteOn, ?noteOff, ?kick, ?snare⟩
  case noteOn => rintro rfl; exact ⟨message rfl, message rfl⟩
  case noteOff => rintro rfl; exact ⟨message rfl, message rfl⟩
  case kick => rintro rfl rfl rfl; exact message rfl
  case snare => rintro rfl rfl rfl; exact message rfl

end Sys2Proof.Messages
end

section
/-! Encodings (R81, R83, R87 to R89, R92 to R94): what the decoder reads from each format, the round
trip with the encoder, and the trace lines it rejects. -/

namespace Sys2Proof.Encodings

open Sys2Proof.Machine Sys2Proof.Laws

variable {p : Params} {ph : Phase}

/-! Frames (format M3) -/

/-- The row of the first-level opcode map for a status, a note and a velocity (R87). -/
def frameRow (st n v : Byte) : Instr :=
  if st = 0x90 then .noteOn n v else if st = 0x80 then .noteOff n v else .ignore st n v

theorem decodeFrame_eq (w : FrameWord) :
    decodeFrame w = frameRow (frameStatus w) (frameNote w) (frameVelocity w) := rfl

theorem decode_frameWord (st n v : Byte) :
    decode p ph (.m3 (frameWord st n v)) = .ok (frameRow st n v, none) := by
  simp only [decode, decodeFrame_eq, frameStatus_frameWord, frameNote_frameWord,
    frameVelocity_frameWord]

theorem frameRow_of_other {st : Byte} (hon : st ≠ 0x90) (hoff : st ≠ 0x80) (n v : Byte) :
    frameRow st n v = .ignore st n v := by
  rw [frameRow, if_neg hon, if_neg hoff]

theorem ignore_wf_iff {st n v : Byte} :
    (Instr.ignore st n v).wf p = true ↔ st ≠ 0x90 ∧ st ≠ 0x80 := by
  simp only [Instr.wf, Bool.and_eq_true, bne_iff_ne]

/-- Every row of the map is well formed and encodes to its frame (R87, R106). -/
theorem frameRow_encodes (st n v : Byte) :
    (frameRow st n v).wf p = true ∧ encode p (frameRow st n v) = some (.m3 (frameWord st n v)) := by
  by_cases hon : st = 0x90
  · subst hon; exact ⟨rfl, rfl⟩
  · by_cases hoff : st = 0x80
    · subst hoff; exact ⟨rfl, rfl⟩
    · rw [frameRow_of_other hon hoff]
      exact ⟨ignore_wf_iff.mpr ⟨hon, hoff⟩, rfl⟩

/-- The status byte is the number in bits 23:16 of its word (R81). -/
theorem frameStatus_eq_iff (w : FrameWord) (st : Byte) :
    frameStatus w = st ↔ w.toNat / 65536 = st.toNat := by
  have hw : w.toNat / 65536 < 256 := by omega
  rw [frameStatus_eq, ← BitVec.toNat_inj, BitVec.toNat_ofNat, Nat.mod_eq_of_lt hw]

/-- Settles O2: the word is the frame of its three fields, and its row is chosen by the first. -/
theorem frameWordFieldsDecoded : Obligations.FrameWordFieldsDecoded := by
  intro p ph w st n v i
  have hi : i = frameRow (frameStatus w) (frameNote w) (frameVelocity w) := by
    simp only [frameRow, frameStatus_eq_iff]
    rw [frameStatus_eq, frameNote_eq, frameVelocity_eq]
    rfl
  obtain ⟨hwf, hencode⟩ :=
    frameRow_encodes (p := p) (frameStatus w) (frameNote w) (frameVelocity w)
  rw [frameWord_fields] at hencode
  rw [hi]
  exact ⟨rfl, hwf, hencode⟩

/-! Note selectors (format N8) -/

theorem decode_drumNote {n : Byte} {d : Drum} (h : drumOf p n = some d) (k : SlotIx) :
    decode p ph (.n8 k n) = .ok (stepInstr k d, none) := by
  simp only [decode, decodeNote, h]

theorem decode_otherNote {n : Byte} (h : drumOf p n = none) (k : SlotIx) :
    decode p ph (.n8 k n) = .ok (.noStep k n, none) := by
  simp only [decode, decodeNote, h]

/-- A note that is none of the five is no drum's (R89). -/
theorem drumOf_eq_none {n : Byte} (h : ∀ d, n ≠ p.note d) : drumOf p n = none :=
  Option.eq_none_iff_forall_ne_some.mpr fun d hd => h d (drumOf_some hd)

/-- Settles O3: DRUMOF inverts the note assignment of valid parameters. -/
theorem noteSelectorDecoded : Obligations.NoteSelectorDecoded := by
  intro p ph k hp
  exact ⟨fun d => decode_drumNote (drumOf_note hp d) k,
    fun n hn => decode_otherNote (drumOf_eq_none hn) k⟩

/-! Ports (format EV) -/

/-- A clock that signals one button alone is its PRESS (R92). -/
theorem decodePorts_button (k : Button) :
    decodePorts { Ports.quiet with btnSet := BitVec.twoPow 4 k.val } = .ok (.press k, none) := by
  match k with
  | 0 | 1 | 2 | 3 => rfl

/-- A clock that signals the block start alone is its BLOCK_START (R92). -/
theorem decodePorts_blockStart (f : Num32) :
    decodePorts { Ports.quiet with blkStart := true, fshiftIn := f }
      = .ok (.blockStart f, none) := by
  have hbutton : firstButton 0#4 = none := by decide
  simp [decodePorts, hbutton, Ports.quiet]

/-! Trace lines -/

theorem decode_line {l : TraceLine} {i : Instr} (h : decodeLine l = some i) :
    decode p ph (.line l) = .ok (i, none) := by
  simp only [decode, h]

theorem decode_line_bad {l : TraceLine} (h : decodeLine l = none) :
    decode p ph (.line l) = .error (.badOperands l.name) := by
  simp only [decode, h]

theorem decodeLine_msg (st n v : Byte) :
    decodeLine ⟨.msg, [.nat st.toNat, .nat n.toNat, .nat v.toNat]⟩ = some (.msg st n v) := by
  simp [decodeLine, byteOperand_toNat]

theorem decodeLine_noteon (n v : Byte) :
    decodeLine ⟨.noteon, [.nat n.toNat, .nat v.toNat]⟩ = some (.noteonMsg n v) := by
  simp [decodeLine, byteOperand_toNat]

theorem decodeLine_noteoff (n v : Byte) :
    decodeLine ⟨.noteoff, [.nat n.toNat, .nat v.toNat]⟩ = some (.noteoffMsg n v) := by
  simp [decodeLine, byteOperand_toNat]

theorem decodeLine_press (k : Button) : decodeLine ⟨.press, [.nat k.val]⟩ = some (.press k) :=
  dif_pos k.isLt

/-- A FEED line takes a byte (R93). -/
theorem decodeLine_feed_bad {n : Nat} (h : 256 ≤ n) : decodeLine ⟨.feed, [.nat n]⟩ = none := by
  have hbyte : byteOperand n = none := if_neg (Nat.not_lt.mpr h)
  simp only [decodeLine, hbyte, Option.map_none]

/-- A PRESS line takes a button's number (R93). -/
theorem decodeLine_press_bad {n : Nat} (h : 4 ≤ n) : decodeLine ⟨.press, [.nat n]⟩ = none :=
  dif_neg (Nat.not_lt.mpr h)

/-- Settles O6. -/
theorem badTraceLineRejected : Obligations.BadTraceLineRejected := fun _ _ _ =>
  ⟨fun h => decode_line_bad (decodeLine_feed_bad h),
    fun h => decode_line_bad (decodeLine_press_bad h)⟩

/-! All formats -/

/-- Settles O1, constructor by constructor: the frames, the bytes in their phase, the note selectors,
the ports and the trace lines, each by what the decoder reads from its format. -/
theorem decodeEncodeRoundTrip : Obligations.DecodeEncodeRoundTrip := by
  intro p i ph r hp hwf hph hr
  have selector (k : SlotIx) (d : Drum) :
      decode p ph (.n8 k (p.note d)) = .ok (stepInstr k d, none) :=
    decode_drumNote (drumOf_note hp d) k
  cases i with
  | noteOn n v => cases hr; exact decode_frameWord 0x90 n v
  | noteOff n v => cases hr; exact decode_frameWord 0x80 n v
  | ignore st n v =>
    cases hr
    obtain ⟨hon, hoff⟩ := ignore_wf_iff.mp hwf
    rw [decode_frameWord, frameRow_of_other hon hoff]
  | feedStatus b | feedNote b | feedVelocity b =>
    cases hr
    have hphase := eq_of_beq hph
    subst hphase
    rfl
  | kickStep k => cases hr; exact selector k .kick
  | snareStep k => cases hr; exact selector k .snare
  | midTomStep k => cases hr; exact selector k .midTom
  | highTomStep k => cases hr; exact selector k .highTom
  | hiHatStep k => cases hr; exact selector k .hiHat
  | noStep k n => cases hr; exact decode_otherNote (Option.isNone_iff_eq_none.mp hwf) k
  | allocate | release | resetAll | poll => cases hr
  | press k => cases hr; exact decodePorts_button k
  | blockStart f => cases hr; exact decodePorts_blockStart f
  | overrun | reset | feed => cases hr; rfl
  | sample | block | panic | kickMsg | snareMsg => cases hr; exact decode_line rfl
  | msg st n v => cases hr; exact decode_line (decodeLine_msg st n v)
  | noteonMsg n v => cases hr; exact decode_line (decodeLine_noteon n v)
  | noteoffMsg n v => cases hr; exact decode_line (decodeLine_noteoff n v)

/-! Words written out -/

/-- The notes R7 fixes, whatever the parameters. -/
theorem drumOf_kick : drumOf p 60 = some .kick := rfl

theorem drumOf_snare : drumOf p 61 = some .snare := rfl

/-- Settles O4: each word is read through its format's fields. -/
theorem writtenWordsDecode : Obligations.WrittenWordsDecode := by
  intro p ph
  refine ⟨?noteOn, ?noteOff, ?ignore, decode_drumNote drumOf_kick 2, decode_drumNote drumOf_snare 4,
    ?status, ?note, ?velocity, ?feed, decodePorts_button 3, decode_line (decodeLine_msg 0xF0 10 20),
    decode_line (decodeLine_press 2)⟩
  case noteOn => exact decode_frameWord 0x90 61 100
  case noteOff => exact decode_frameWord 0x80 61 0
  case ignore => exact decode_frameWord 0xF0 10 20
  case status | note | velocity | feed => rfl

end Sys2Proof.Encodings
end

section
/-! One clock of the ports (R92, R248): the events it holds, the first of them taken off by the decoder,
and the clock drained. -/

namespace Sys2Proof.Clock

open Sys2Proof.Machine Sys2Proof.Safety

/-- The buttons that `btn_set` presses, ascending. -/
def pressed (b : BitVec 4) : List Button := [0, 1, 2, 3].filter fun k : Button => b.getLsbD k.val

/-- The events of a clock without `rst`, in the order of R248. -/
def portEvents (q : Ports) : List Instr :=
  (if q.overrunHook then [.overrun] else [])
    ++ (if q.rxValid then [.feed q.rxByte] else [])
    ++ (pressed q.btnSet).map .press
    ++ (if q.blkStart then [.blockStart q.fshiftIn] else [])

/-- The events of a clock; RESET stands alone (log 7). -/
def clockEvents (q : Ports) : List Instr := if q.rst then [.reset] else portEvents q

/-! The events in the order of the ports -/

/-- The first button of `btn_set` is the head of its buttons; its bit cleared leaves the others. -/
theorem pressed_eq (b : BitVec 4) : pressed b =
    match firstButton b with
    | some k => k :: pressed (b &&& ~~~(BitVec.twoPow 4 k.val))
    | none => [] := by
  revert b
  decide

theorem pressed_some {b : BitVec 4} {k : Button} (h : firstButton b = some k) :
    pressed b = k :: pressed (b &&& ~~~(BitVec.twoPow 4 k.val)) := by
  rw [pressed_eq, h]

theorem pressed_none {b : BitVec 4} (h : firstButton b = none) : pressed b = [] := by
  rw [pressed_eq, h]

/-- A clock in which no port signals holds no event (R92). -/
theorem clockEvents_inactive {q : Ports} (h : q.active = false) : clockEvents q = [] := by
  simp only [Ports.active, Bool.or_eq_false_iff, bne_eq_false_iff_eq] at h
  obtain ⟨⟨⟨⟨hrst, hover⟩, hrx⟩, hbtn⟩, hblk⟩ := h
  simp [clockEvents, portEvents, hrst, hover, hrx, hbtn, hblk, pressed]

/-- What is left of a clock holds the events not yet taken. -/
theorem left_events (q : Ports) : q.left.elim [] clockEvents = clockEvents q := by
  unfold Ports.left
  cases h : q.active with
  | true => rfl
  | false => exact (clockEvents_inactive h).symm

/-! Taking the first event -/

/-- What the decoder answers for a clock: its first event and a rest that holds the others, or no event
where it holds none (R248). -/
theorem decodePorts_events (q : Ports) :
    (∃ i left, decodePorts q = .ok (i, left) ∧ clockEvents q = i :: left.elim [] clockEvents)
    ∨ (decodePorts q = .error .noEvent ∧ clockEvents q = []) := by
  by_cases hrst : q.rst
  · exact .inl ⟨.reset, none, if_pos hrst, if_pos hrst⟩
  have hevents : clockEvents q = portEvents q := if_neg hrst
  by_cases hover : q.overrunHook
  · refine .inl ⟨.overrun, Ports.left { q with overrunHook := false }, ?_, ?_⟩
    · simp [decodePorts, hrst, hover]
    · rw [left_events, hevents]
      simp [clockEvents, portEvents, hrst, hover]
  by_cases hrx : q.rxValid
  · refine .inl ⟨.feed q.rxByte, Ports.left { q with rxValid := false }, ?_, ?_⟩
    · simp [decodePorts, hrst, hover, hrx]
    · rw [left_events, hevents]
      simp [clockEvents, portEvents, hrst, hover, hrx]
  cases hbtn : firstButton q.btnSet with
  | some k =>
    refine .inl ⟨.press k,
      Ports.left { q with btnSet := q.btnSet &&& ~~~(BitVec.twoPow 4 k.val) }, ?_, ?_⟩
    · simp [decodePorts, hrst, hover, hrx, hbtn]
    · rw [left_events, hevents]
      simp [clockEvents, portEvents, hrst, hover, hrx, pressed_some hbtn]
  | none =>
    by_cases hblk : q.blkStart
    · refine .inl ⟨.blockStart q.fshiftIn, none, ?_, ?_⟩
      · simp [decodePorts, hrst, hover, hrx, hbtn, hblk]
      · rw [hevents]
        simp [portEvents, hover, hrx, pressed_none hbtn, hblk]
    · refine .inr ⟨?_, ?_⟩
      · simp [decodePorts, hrst, hover, hrx, hbtn, hblk]
      · rw [hevents]
        simp [portEvents, hover, hrx, pressed_none hbtn, hblk]

/-! The clock drained -/

/-- With fuel for its events, a clock drains to them. -/
theorem drain_ports (p : Params) (ph : Phase) (n : Nat) (q : Ports)
    (h : (clockEvents q).length ≤ n) : drain p ph n (.ports q) = clockEvents q := by
  induction n generalizing q with
  | zero => exact (List.length_eq_zero_iff.mp (Nat.le_zero.mp h)).symm
  | succ n ih =>
    obtain ⟨i, left, hdecode, hevents⟩ | ⟨hdecode, hevents⟩ := decodePorts_events q
    · rw [hevents] at h ⊢
      cases left with
      | none => simp only [drain, decode, hdecode, Option.elim_none]
      | some q' =>
        simp only [drain, decode, hdecode, Option.elim_some, ih q' (Nat.le_of_succ_le_succ h)]
    · simp only [drain, decode, hdecode, hevents]

/-- A clock holds at most seven events: OVERRUN, FEED, four PRESSes, BLOCK_START (R92). -/
theorem clockEvents_length (q : Ports) : (clockEvents q).length ≤ 7 := by
  have hpressed : (pressed q.btnSet).length ≤ 4 := List.length_filter_le _ _
  unfold clockEvents
  split
  · simp
  · simp only [portEvents, List.length_append, List.length_map]
    have hone (b : Bool) (i : Instr) : (if b then [i] else []).length ≤ 1 := by cases b <;> simp
    have := hone q.overrunHook .overrun
    have := hone q.rxValid (.feed q.rxByte)
    have := hone q.blkStart (.blockStart q.fshiftIn)
    omega

/-- Settles O5: seven is fuel enough for a clock's events. -/
theorem clockDrainedInOrder : Obligations.ClockDrainedInOrder := fun p ph q =>
  drain_ports p ph 7 q (clockEvents_length q)

end Sys2Proof.Clock
end

section
/-! BLOCK (R94, R202, R210, R211): its expansion into events, and what its samples keep of the state that
BLOCK_START leaves. -/

namespace Sys2Proof.Block

open Sys2Proof.Machine Sys2Proof.Laws Sys2Proof.Effects

/-! BLOCK as its events -/

/-- `n` SAMPLE events are the samples of a block (R94). -/
theorem execAll_replicate_sample (n : Nat) (s : State) :
    execAll (List.replicate n .sample) s = samples Config.cfg n s := by
  induction n generalizing s with
  | zero => rfl
  | succ n ih =>
    have hexec : exec .sample s = sample Config.cfg s := rfl
    simp only [List.replicate_succ, execAll, hexec, samples]
    cases sample Config.cfg s with
    | next t => exact ih t
    | fault r => rfl
    | refused r => rfl

/-- BLOCK is BLOCK_START and then BLOCK_SIZE times SAMPLE (R94, R211). -/
theorem execAll_block (f : Num32) (s : State) :
    execAll (.blockStart f :: List.replicate Config.cfg.params.blockSize .sample) s
      = exec (.block f) s := by
  have hstart : exec (.blockStart f) s = blockStart Config.cfg f s := rfl
  have hblock : exec (.block f) s = runBlock Config.cfg f s := rfl
  simp only [execAll, hstart, hblock, runBlock]
  cases blockStart Config.cfg f s with
  | next t => exact execAll_replicate_sample _ t
  | fault r => rfl
  | refused r => rfl

/-- A BLOCK that completes ran BLOCK_START and its samples (R211). -/
theorem runBlock_next {c : Cfg} {f : Num32} {s t : State} (h : runBlock c f s = .next t) :
    ∃ u, blockStart c f s = .next u ∧ samples c c.params.blockSize u = .next t := by
  unfold runBlock at h
  cases hb : blockStart c f s with
  | next u => rw [hb] at h; exact ⟨u, rfl, h⟩
  | fault r => rw [hb] at h; cases h
  | refused r => rw [hb] at h; cases h

/-! What the samples of a block keep -/

/-- No mixer turn writes a frequency shift (R36, R204). -/
theorem mixSlot_fshift (c : Cfg) (s : State) (k : SlotIx) (L : Layer) :
    ((mixSlot c s k).layer L).fshift = (s.layer L).fshift := by
  unfold mixSlot
  split
  · cases drumOf c.params (s.slot k).note with
    | none => rfl
    | some d =>
      simp only [setAcc_layer]
      exact drumStep_fshift c d k s L
  · rfl

theorem mixAll_fshift (c : Cfg) (s : State) (L : Layer) :
    ((mixAll c s).layer L).fshift = (s.layer L).fshift := by
  unfold mixAll
  induction slotIndices using List.reverseRecOn with
  | nil => rfl
  | append_singleton ks k ih => rw [List.foldl_concat, mixSlot_fshift, ih]

/-- What BLOCK_START has put in place and the block keeps to its end: the latched shift, the buttons
polled, and the pool's notes as in `s` (R202, R223). -/
structure Started (f : Num32) (s t : State) : Prop where
  fshift : ∀ L, (t.layer L).fshift = f
  btn : ∀ b, t.btn.get b = false
  note : ∀ k, (t.slot k).note = (s.slot k).note

/-- POLL silences slots, and keeps the notes in them (R125, R223). -/
theorem poll_note (c : Cfg) (s : State) (k : SlotIx) :
    ((poll c s).slot k).note = (s.slot k).note := by
  have hslots : (poll c s).slots = if s.btn.get 3 then (silenceAll s).slots else s.slots := by
    rw [poll_spec]
  rw [State.slot, hslots]
  split
  · simpa only [State.slot] using congrArg Voice.note (silenceAll_slot s k)
  · rfl

/-- POLL leaves no button pressed (R223). -/
theorem poll_btn (c : Cfg) (s : State) (b : Button) : (poll c s).btn.get b = false := by
  rw [poll_spec]
  simp [Vector.get_eq_getElem]

theorem blockStart_started {c : Cfg} {f : Num32} {s t : State} (h : blockStart c f s = .next t) :
    Started f s t := by
  obtain ⟨hlayers, hbtn, hslots⟩ : t.layers = (latchShift f s).layers ∧ t.btn = (poll c s).btn
      ∧ t.slots = (poll c s).slots := by
    rw [blockStart_next h]
    exact ⟨rfl, rfl, rfl⟩
  refine ⟨fun L => ?_, fun b => ?_, fun k => ?_⟩
  · rw [State.layer, hlayers]
    exact congrArg LayerState.fshift (latchShift_layer f s L)
  · rw [hbtn, poll_btn]
  · rw [State.slot, hslots]
    exact poll_note c s k

/-- A SAMPLE takes the layer file from the mixer, and keeps the buttons and the pool (R204). -/
theorem sample_fields {c : Cfg} {s t : State} (h : sample c s = .next t) :
    t.layers = (mixAll c s).layers ∧ t.btn = s.btn ∧ t.slots = s.slots := by
  obtain ⟨-, rfl⟩ := sample_next h
  exact ⟨rfl, rfl, rfl⟩

theorem sample_started {c : Cfg} {f : Num32} {s t u : State} (hs : Started f s t)
    (h : sample c t = .next u) : Started f s u := by
  obtain ⟨hlayers, hbtn, hslots⟩ := sample_fields h
  refine ⟨fun L => ?_, fun b => ?_, fun k => ?_⟩
  · calc (u.layer L).fshift = ((mixAll c t).layer L).fshift := by simp only [State.layer, hlayers]
      _ = (t.layer L).fshift := mixAll_fshift c t L
      _ = f := hs.fshift L
  · rw [hbtn, hs.btn]
  · rw [State.slot, hslots]
    exact hs.note k

theorem runBlock_started {c : Cfg} {f : Num32} {s t : State} (h : runBlock c f s = .next t) :
    Started f s t := by
  obtain ⟨u, hstart, hsamples⟩ := runBlock_next h
  exact samples_keep c (Started f s) (fun _ _ => sample_started) _ u t (blockStart_started hstart)
    hsamples

/-- BLOCK_START's refusal is BLOCK's (R202, log 16). -/
theorem runBlock_busy {c : Cfg} {f : Num32} {s : State} (h : s.busy = true) :
    runBlock c f s = .refused .blockStartWhileBusy := by
  simp only [runBlock, blockStart, h, if_true]

/-- Settles O36: the block completes (`runBlock_complete`), its samples keep what BLOCK_START leaves,
and both leave the decoder and the sticky flag. -/
theorem blockRunsToItsEnd : Obligations.BlockRunsToItsEnd := by
  intro f s
  refine ⟨fun hbusy => runBlock_busy hbusy, fun hidle => ?_⟩
  have hsize : 1 ≤ Config.cfg.params.blockSize := valid_blockSize Config.params.valid
  obtain ⟨t, hrun, hi, hdone⟩ := runBlock_complete Config.cfg f s hsize hidle
  have hstarted := runBlock_started hrun
  obtain ⟨hdecoder, hover⟩ := runBlock_outsideKept hrun
  exact ⟨t, hrun, (execAll_block f s).trans hrun, hdone, hi, hstarted.fshift, hdecoder.phase,
    hdecoder.noteStartFlag, hdecoder.noteStopFlag, hdecoder.pendingNote, hover, hstarted.btn,
    hstarted.note⟩

end Sys2Proof.Block
end

section
/-! The placing of table words (R83, R87, R88, R140, log 2): a placed frame is the next input, a placed
note selector the one STEP of the next SAMPLE; and NOSTEP, which is no step at all (R89). -/

namespace Sys2Proof.Placing

open Sys2Proof.Machine Sys2Proof.Laws Sys2Proof.Safety Sys2Proof.Schedule

/-! Frame words -/

/-- A placed frame is the one input of the next step, and decodes to the row of its word (R87). -/
theorem placed_frame_runs (s : State) (w : Nat) :
    decodeTableWord 24 w = some (decodeFrame (BitVec.ofNat 24 w))
      ∧ step (s.withFetchWord 24 w)
        = exec (decodeFrame (BitVec.ofNat 24 w)) { s with inbox := [] } :=
  ⟨rfl, stepRunsDecodedInput (s.withFetchWord 24 w) (.m3 (BitVec.ofNat 24 w)) []
    (decodeFrame (BitVec.ofNat 24 w)) none rfl rfl⟩

/-! One sounding slot -/

/-- Silent slots leave the state as it is (R209). -/
theorem mixFold_silent {c : Cfg} {s : State} {ks : List SlotIx}
    (h : ∀ k ∈ ks, Silent c.params (s.slot k)) : ks.foldl (mixSlot c) s = s := by
  induction ks with
  | nil => rfl
  | cons k ks ih =>
    rw [List.foldl_cons, mixSlot_silent c s k (h k List.mem_cons_self)]
    exact ih fun q hq => h q (List.mem_cons_of_mem k hq)

/-- With slot 0 alone sounding, a sample's scan is its mixer turn (R204). -/
theorem mixAll_slot_zero {c : Cfg} {s : State}
    (hsilent : ∀ k, k ≠ 0 → Silent c.params (s.slot k)) :
    mixAll c s = mixSlot c (zeroAcc c s) 0 := by
  have hslots : (mixSlot c (zeroAcc c s) 0).slots = s.slots := by rw [mixSlot_frame]; rfl
  rw [mixAll, slotIndices, List.foldl_cons]
  refine mixFold_silent fun k hk => ?_
  rw [State.slot, hslots]
  exact hsilent k (by rintro rfl; simp at hk)

/-- The mixer's turn for a drum leaves the layers and the draws as the STEP leaves them on the state
before the sample; its value goes weighted into an accumulator that was zeroed (R204, R205). -/
theorem mixSlot_zeroAcc {c : Cfg} {d : Drum} {k : SlotIx} {s : State} (hp : c.params.valid = true)
    (hslot : s.slot k = ⟨c.params.note d, true⟩) :
    (mixSlot c (zeroAcc c s) k).layers = (drumStep c d k s).1.layers
      ∧ (mixSlot c (zeroAcc c s) k).noiseIx = (drumStep c d k s).1.noiseIx
      ∧ (mixSlot c (zeroAcc c s) k).accOf d = c.num.fadd (c.num.ofNat 0)
        (c.num.fmul (c.num.ofNat (mixWeight d)) (drumStep c d k s).2) := by
  have halike : SoundsAlike s (zeroAcc c s) := ⟨rfl, rfl, rfl, rfl⟩
  obtain ⟨⟨hlayers, -, -, hnoise⟩, hvalue⟩ := drumStep_congr halike c d k
  have hacc : (drumStep c d k (zeroAcc c s)).1.accOf d = c.num.ofNat 0 := by
    rw [drumStep_frame]
    exact zeroAcc_accOf c s d
  rw [mixSlot_drum c hp (zeroAcc c s) d k hslot, setAcc_layers, setAcc_noiseIx, setAcc_accOf,
    if_pos rfl, hacc, hvalue]
  exact ⟨hlayers, hnoise, rfl⟩

/-- A SAMPLE inside the block takes layers, draws and accumulators from the mixer (R204). -/
theorem sample_inside {c : Cfg} {s : State} (hbusy : s.busy = true)
    (hi : s.i < c.params.blockSize) :
    ∃ t, sample c s = .next t ∧ t.layers = (mixAll c s).layers
      ∧ t.noiseIx = (mixAll c s).noiseIx ∧ t.acc = (mixAll c s).acc := by
  obtain ⟨hidle, -⟩ | ⟨-, hend, -⟩ | ⟨-, -, hnext⟩ := sample_spec c s
  · rw [hbusy] at hidle
    cases hidle
  · omega
  · refine ⟨_, hnext, ?_⟩
    dsimp only
    exact ⟨rfl, rfl, rfl⟩

/-! Note selectors -/

/-- A STEP applied by itself is a STEP of the machine's drum (R172 to R176). -/
theorem exec_stepInstr (k : SlotIx) (d : Drum) (s : State) :
    exec (stepInstr k d) s = .next (stepAlone Config.cfg d k s) := by
  cases d <;> rfl

/-- A placed selector sounds in its slot and in no other (log 2). -/
theorem placed_slots (k : SlotIx) (n : Byte) (s : State) :
    (placeRaw (.n8 k n) s).slot k = ⟨n, true⟩
      ∧ ∀ q, q ≠ k → ((placeRaw (.n8 k n) s).slot q).active = false := by
  have hslot (q : SlotIx) : (placeRaw (.n8 k n) s).slot q
      = if k = q then ⟨n, true⟩ else ⟨(s.slot q).note, false⟩ := by
    rw [← silenceAll_slot, ← setSlot_slot]
    rfl
  exact ⟨by rw [hslot, if_pos rfl], fun q hq => by rw [hslot, if_neg (Ne.symm hq)]⟩

theorem ofNat_zero_eq_posZero : Num32.ofNat 0 = Num32.posZero := by decide

/-- A placed selector of a drum runs as the one STEP of the next SAMPLE (R140, R205). -/
theorem placed_selector_runs (s : State) (d : Drum) :
    let s' := placeRaw (.n8 0 (Config.params.params.note d)) s
    ∃ u t y, exec (stepInstr 0 d) s' = .next u ∧ u.result = .value y
      ∧ step s' = exec .sample s' ∧ exec .sample s' = .next t
      ∧ t.layers = u.layers ∧ t.noiseIx = u.noiseIx
      ∧ t.accOf d
        = Num32.fadd Num32.posZero (Num32.fmul (Num32.ofNat (mixWeight d)) y) := by
  intro s'
  have hp : Config.cfg.params.valid = true := Config.params.valid
  obtain ⟨hslot, hothers⟩ := placed_slots 0 (Config.params.params.note d) s
  have hsilent (k : SlotIx) (hk : k ≠ 0) : Silent Config.cfg.params (s'.slot k) := fun hactive =>
    absurd hactive (by rw [hothers k hk]; decide)
  obtain ⟨t, hsample, hlayers, hnoise, hacc⟩ :=
    sample_inside (c := Config.cfg) (s := s') rfl (valid_blockSize hp)
  rw [mixAll_slot_zero hsilent] at hlayers hnoise hacc
  obtain ⟨hstepLayers, hstepNoise, hstepAcc⟩ := mixSlot_zeroAcc hp hslot
  refine ⟨stepAlone Config.cfg d 0 s', t, (drumStep Config.cfg d 0 s').2, exec_stepInstr 0 d s',
    rfl, stepWithoutInstruction.1 s' rfl rfl, hsample, hlayers.trans hstepLayers,
    hnoise.trans hstepNoise, ?_⟩
  rw [State.accOf, hacc, ← ofNat_zero_eq_posZero]
  exact hstepAcc

/-- Settles O9: frames by `placed_frame_runs`; 60 and 61 are the notes of Kick and Snare (R7). -/
theorem placedWordRuns : Obligations.PlacedWordRuns := by
  refine fun s => ⟨fun w _ => ⟨_, placed_frame_runs s w⟩, ?selectors⟩
  rintro d w (⟨rfl, rfl⟩ | ⟨rfl, rfl⟩)
  · exact ⟨rfl, placed_selector_runs s .kick⟩
  · exact ⟨rfl, placed_selector_runs s .snare⟩

/-- Settles O26: the dispatch of NOSTEP is the state itself. -/
theorem noStepWritesNothing : Obligations.NoStepWritesNothing := fun _ _ _ => ⟨rfl, rfl⟩

end Sys2Proof.Placing
end

section
/-! The phase rules of the decoder (R101 to R103), and a message fed at a frame boundary (R104 to R106):
what the three rules make of the state together, and what they signal. -/

namespace Sys2Proof.Decoder

open Sys2Proof.Machine Sys2Proof.Laws Sys2Proof.Safety Sys2Proof.Inbox Sys2Proof.Framing
  Sys2Proof.Messages

variable {s t : State}

/-! One phase rule -/

theorem feedStatus_eq (b : Byte) (s : State) : feedStatus b s = { s with
    noteStartFlag := decide (b = 0x90), noteStopFlag := decide (b = 0x80)
    phase := .expectNote } := by
  simp only [feedStatus, beq_eq_decide]

/-- Settles O10: the flags are the two comparisons of the byte. -/
theorem statusByteAssignsFlags : Obligations.StatusByteAssignsFlags := fun b s =>
  ⟨congrArg Host.Outcome.next (feedStatus_eq b s), rfl⟩

/-- Settles O11: the note rule has no case on the byte. -/
theorem noteByteStored : Obligations.NoteByteStored := fun _ _ => ⟨rfl, rfl⟩

/-- FEED.VELOCITY as one equation, the start flag first (R103, R248). -/
theorem feedVelocity_eq (s : State) : feedVelocity s =
    if s.noteStartFlag then { s with
      phase := .expectStatus, noteStartFlag := false
      slots := (allocate s.pendingNote s).1.slots }
    else if s.noteStopFlag then { s with
      phase := .expectStatus, noteStopFlag := false
      slots := (release s.pendingNote s).1.slots }
    else { s with phase := .expectStatus } := by
  split
  · next hstart => exact feedVelocity_start hstart
  · next hstart =>
    rw [Bool.not_eq_true] at hstart
    split
    · next hstop => exact feedVelocity_stop hstart hstop
    · next hstop => exact feedVelocity_none hstart (Bool.eq_false_of_not_eq_true hstop)

/-- Settles O12: `velocitySignals` cases on the flags as the rule does. -/
theorem velocityByteActs : Obligations.VelocityByteActs := fun _ s =>
  ⟨congrArg Host.Outcome.next (feedVelocity_eq s), rfl⟩

/-! The pool operations read the pool alone -/

theorem firstFree_congr (h : t.slots = s.slots) (ks : List SlotIx) :
    firstFree t ks = firstFree s ks := by
  have hslot : t.slot = s.slot := congrArg Vector.get h
  induction ks with
  | nil => rfl
  | cons k ks ih => rw [firstFree, hslot, ih, firstFree]

theorem firstHolding_congr (h : t.slots = s.slots) (n : Byte) (ks : List SlotIx) :
    firstHolding t n ks = firstHolding s n ks := by
  have hslot : t.slot = s.slot := congrArg Vector.get h
  induction ks with
  | nil => rfl
  | cons k ks ih => rw [firstHolding, hslot, ih, firstHolding]

theorem allocate_congr (h : t.slots = s.slots) (n : Byte) :
    (allocate n t).1.slots = (allocate n s).1.slots ∧ (allocate n t).2 = (allocate n s).2 := by
  simp only [allocate, firstFree_congr h]
  cases firstFree s slotIndices with
  | none => exact ⟨h, rfl⟩
  | some k => exact ⟨by simp only [State.setSlot, h], rfl⟩

theorem release_congr (h : t.slots = s.slots) (n : Byte) :
    (release n t).1.slots = (release n s).1.slots ∧ (release n t).2 = (release n s).2 := by
  simp only [release, firstHolding_congr h]
  cases firstHolding s n slotIndices with
  | none => exact ⟨h, rfl⟩
  | some k => exact ⟨by simp only [State.setSlot, h], rfl⟩

/-! The decoder within a frame -/

/-- `s` with a status byte and the note byte `n` received: the flags as the status byte assigned them
(R101, R102). -/
def awaitingVelocity (start stop : Bool) (n : Byte) (s : State) : State :=
  { s with
    phase := .expectVelocity, noteStartFlag := start, noteStopFlag := stop, pendingNote := n }

/-- `s` after a frame with note `n` that left the pool as `v`. -/
def frameDone (n : Byte) (v : Vector Voice 5) (s : State) : State :=
  { s with
    phase := .expectStatus, noteStartFlag := false, noteStopFlag := false, pendingNote := n
    slots := v }

theorem note_after_status (st n : Byte) (s : State) : feedNote n (feedStatus st s)
    = awaitingVelocity (decide (st = 0x90)) (decide (st = 0x80)) n s := by
  rw [feedStatus_eq]
  rfl

/-- At a frame boundary the decoder rests (R27), so a frame leaves it as it began. -/
theorem frameDone_at_boundary (hp : s.phase = .expectStatus) (hf : FlagsOk s) (n : Byte)
    (v : Vector Voice 5) : frameDone n v s = { s with pendingNote := n, slots := v } := by
  obtain ⟨hstart, hstop⟩ := hf.1 hp
  calc frameDone n v s = { s with
        phase := s.phase, noteStartFlag := s.noteStartFlag, noteStopFlag := s.noteStopFlag
        pendingNote := n, slots := v } := by rw [hp, hstart, hstop, frameDone]
    _ = { s with pendingNote := n, slots := v } := rfl

/-- A frame fed at a boundary comes to its velocity byte with status and note received (R61). -/
theorem feedFrame_at_boundary (hp : s.phase = .expectStatus) (st n v : Byte) :
    feedFrame st n v s
      = feedVelocity (awaitingVelocity (decide (st = 0x90)) (decide (st = 0x80)) n s) := by
  have hnote : (feedStatus st s).phase = .expectNote := rfl
  have hvelocity : (feedNote n (feedStatus st s)).phase = .expectVelocity := rfl
  rw [feedFrame, feedByte_expectStatus hp, feedByte_expectNote hnote,
    feedByte_expectVelocity hvelocity, note_after_status]

theorem frameSignals_at_boundary (hp : s.phase = .expectStatus) (st n v : Byte) :
    frameSignals st n v s = statusSignals st
      ++ velocitySignals (awaitingVelocity (decide (st = 0x90)) (decide (st = 0x80)) n s) := by
  have hstatus : feedSignals st s = statusSignals st := by simp only [feedSignals, hp]
  have hnote : feedSignals n (feedStatus st s) = [] := rfl
  rw [frameSignals, hstatus, feedByte_expectStatus hp, hnote, feedByte_expectNote rfl,
    List.append_nil, note_after_status]
  rfl

/-! The velocity byte of each kind of frame -/

theorem velocity_noteOn (n : Byte) (s : State) :
    feedVelocity (awaitingVelocity true false n s) = frameDone n (allocate n s).1.slots s
      ∧ velocitySignals (awaitingVelocity true false n s) = allocateSignals n s := by
  have hpool : (awaitingVelocity true false n s).slots = s.slots := rfl
  obtain ⟨hslots, hfound⟩ := allocate_congr hpool n
  rw [feedVelocity_start rfl, allocateSignals, ← hslots, ← hfound]
  exact ⟨rfl, rfl⟩

theorem velocity_noteOff (n : Byte) (s : State) :
    feedVelocity (awaitingVelocity false true n s) = frameDone n (release n s).1.slots s
      ∧ velocitySignals (awaitingVelocity false true n s) = releaseSignals n s := by
  have hpool : (awaitingVelocity false true n s).slots = s.slots := rfl
  obtain ⟨hslots, hfound⟩ := release_congr hpool n
  rw [feedVelocity_stop rfl rfl, releaseSignals, ← hslots, ← hfound]
  exact ⟨rfl, rfl⟩

theorem velocity_ignore (n : Byte) (s : State) :
    feedVelocity (awaitingVelocity false false n s) = frameDone n s.slots s
      ∧ velocitySignals (awaitingVelocity false false n s) = [] :=
  ⟨feedVelocity_none rfl rfl, rfl⟩

/-! Messages at a frame boundary -/

/-- A message fed at a boundary does and signals what its status and velocity bytes do: `start` and
`stop` are the flags its status assigns, `w` the pool and `cs` the conditions of its velocity byte. -/
theorem message_at_boundary {c : Cfg} {i : Instr} {st n v : Byte} {start stop : Bool}
    {w : Vector Voice 5} {cs : List Condition} (hp : s.phase = .expectStatus) (hf : FlagsOk s)
    (hi : expand c i = [.feed st, .feed n, .feed v])
    (hstart : decide (st = 0x90) = start) (hstop : decide (st = 0x80) = stop)
    (hv : feedVelocity (awaitingVelocity start stop n s) = frameDone n w s
      ∧ velocitySignals (awaitingVelocity start stop n s) = cs) :
    exec i s = .next { s with pendingNote := n, slots := w }
      ∧ signals i s = statusSignals st ++ cs := by
  obtain ⟨hexec, hsignals⟩ := message_runs_frame hi s
  obtain ⟨hdone, hcs⟩ := hv
  rw [hexec, hsignals, feedFrame_at_boundary hp, frameSignals_at_boundary hp, hstart, hstop, hdone,
    hcs, frameDone_at_boundary hp hf]
  exact ⟨rfl, rfl⟩

/-- Settles O14: status 0x90 sets the start flag alone, and the velocity byte allocates. -/
theorem noteOnMessage : Obligations.NoteOnMessage := fun n v s hp hf =>
  message_at_boundary (c := Config.cfg) (i := .noteOn n v) hp hf rfl rfl rfl (velocity_noteOn n s)

/-- Settles O15: status 0x80 sets the stop flag alone, and the velocity byte releases. -/
theorem noteOffMessage : Obligations.NoteOffMessage := fun n v s hp hf =>
  message_at_boundary (c := Config.cfg) (i := .noteOff n v) hp hf rfl rfl rfl (velocity_noteOff n s)

/-- Settles O16: any other status sets no flag, so the velocity byte invokes no pool operation. -/
theorem ignoredMessage : Obligations.IgnoredMessage := by
  intro st n v s hon hoff hp hf
  have hstatus : statusSignals st = [.unsupportedStatus st] := if_neg (not_or_intro hon hoff)
  rw [← hstatus, ← List.append_nil (statusSignals st)]
  exact message_at_boundary (c := Config.cfg) (i := .ignore st n v) hp hf rfl
    (decide_eq_false hon) (decide_eq_false hoff) (velocity_ignore n s)

end Sys2Proof.Decoder
end

section
/-! Where an instruction stops (R202, R204, R254): a block's events alone can be refused, and within its
block the sequencer never faults. -/

namespace Sys2Proof.Completion

open Sys2Proof.Machine Sys2Proof.Laws Sys2Proof.Safety Sys2Proof.Schedule Sys2Proof.Block

variable {s : State}

/-- BLOCK_START and BLOCK complete unless a block is in progress (R202, R211). -/
theorem blockStart_completes_or_refused (f : Num32) (s : State) :
    (∃ t, exec (.blockStart f) s = .next t)
      ∨ (s.busy = true ∧ exec (.blockStart f) s = .refused .blockStartWhileBusy) := by
  obtain ⟨hbusy, hrefused⟩ | ⟨-, hnext⟩ := blockStart_spec Config.cfg f s
  · exact .inr ⟨hbusy, hrefused⟩
  · exact .inl ⟨_, hnext⟩

theorem block_completes_or_refused (f : Num32) (s : State) :
    (∃ t, exec (.block f) s = .next t)
      ∨ (s.busy = true ∧ exec (.block f) s = .refused .blockStartWhileBusy) := by
  cases hbusy : s.busy with
  | true => exact .inr ⟨rfl, runBlock_busy hbusy⟩
  | false =>
    obtain ⟨t, hnext, -, -⟩ :=
      runBlock_complete Config.cfg f s (valid_blockSize Config.params.valid) hbusy
    exact .inl ⟨t, hnext⟩

/-- SAMPLE completes within its block, and is refused while there is none (R204). -/
theorem sample_completes_or_refused (hs : SequencerOk Config.cfg s) :
    (∃ t, exec .sample s = .next t)
      ∨ (s.busy = false ∧ exec .sample s = .refused .sampleWhileIdle) := by
  obtain ⟨hidle, hrefused⟩ | ⟨hbusy, hend, -⟩ | ⟨-, -, hnext⟩ := sample_spec Config.cfg s
  · exact .inr ⟨hidle, hrefused⟩
  · exact absurd (hs.2 hbusy) (Nat.not_lt.mpr hend)
  · exact .inl ⟨_, hnext⟩

/-- Every instruction completes, or is one of the block's events where the spec refuses it. -/
theorem exec_completes_or_refused (hs : SequencerOk Config.cfg s) (i : Instr) :
    (∃ t, exec i s = .next t)
      ∨ (s.busy = true ∧ ((∃ f, i = .blockStart f) ∨ ∃ f, i = .block f)
          ∧ exec i s = .refused .blockStartWhileBusy)
      ∨ (s.busy = false ∧ i = .sample ∧ exec i s = .refused .sampleWhileIdle) := by
  cases i with
  | blockStart f =>
    obtain hnext | ⟨hbusy, hrefused⟩ := blockStart_completes_or_refused f s
    · exact .inl hnext
    · exact .inr (.inl ⟨hbusy, .inl ⟨f, rfl⟩, hrefused⟩)
  | block f =>
    obtain hnext | ⟨hbusy, hrefused⟩ := block_completes_or_refused f s
    · exact .inl hnext
    · exact .inr (.inl ⟨hbusy, .inr ⟨f, rfl⟩, hrefused⟩)
  | sample =>
    obtain hnext | ⟨hidle, hrefused⟩ := sample_completes_or_refused hs
    · exact .inl hnext
    · exact .inr (.inr ⟨hidle, rfl, hrefused⟩)
  | noteOn | noteOff | ignore | feedStatus | feedNote | feedVelocity | kickStep | snareStep
  | midTomStep | highTomStep | hiHatStep | noStep | allocate | release | resetAll | poll | press
  | overrun | reset | feed | msg | noteonMsg | noteoffMsg | panic | kickMsg | snareMsg =>
    exact .inl ⟨_, rfl⟩

theorem exec_ne_fault (hs : SequencerOk Config.cfg s) (i : Instr) (r : Fault) :
    exec i s ≠ .fault r := by
  obtain ⟨t, h⟩ | ⟨-, -, h⟩ | ⟨-, -, h⟩ := exec_completes_or_refused hs i <;> rw [h] <;> nofun

/-- A step runs an instruction, holds or rejects its input, and none of the three faults. -/
theorem step_ne_fault (hs : SequencerOk Config.cfg s) (r : Fault) : step s ≠ .fault r := by
  cases hfetch : fetch Config.params.params s with
  | run i rest =>
    have hrest : SequencerOk Config.cfg { s with inbox := rest } := hs
    rw [step_of_run hfetch]
    exact exec_ne_fault hrest i r
  | hold rest => rw [step_of_hold hfetch]; nofun
  | reject e => rw [step_of_reject hfetch]; nofun

/-- Settles O45: the sequencer within its block is what keeps SAMPLE from the fault (log 13). -/
theorem onlyBlockEventsStop : Obligations.OnlyBlockEventsStop := fun _ hs =>
  ⟨exec_completes_or_refused hs, step_ne_fault hs⟩

end Sys2Proof.Completion
end

section
/-! The voice pool (R121 to R127): ALLOCATE and RELEASE by what their scans meet, the two in sequence,
the full pool, and RESET_ALL. -/

namespace Sys2Proof.VoicePool

open Sys2Proof.Machine Sys2Proof.Laws Sys2Proof.Safety

/-- A scan for `P` stops at one slot only. -/
theorem first_unique {P : SlotIx → Prop} {j k : SlotIx} (hj : P j) (hbelow : ∀ q < j, ¬ P q)
    (hk : P k) (hbelow' : ∀ q < k, ¬ P q) : j = k :=
  le_antisymm (not_lt.mp fun h => hbelow k h hk) (not_lt.mp fun h => hbelow' j h hj)

section Scans

variable {n : Byte} {s : State} {k : SlotIx}

/-! ALLOCATE -/

theorem first_inactive_unique {j : SlotIx} (hj : (s.slot j).active = false)
    (hbelow : ∀ q < j, (s.slot q).active = true) (hk : (s.slot k).active = false)
    (hbelow' : ∀ q < k, (s.slot q).active = true) : j = k :=
  first_unique (P := fun q => (s.slot q).active = false) hj (fun q hq => by simp [hbelow q hq]) hk
    (fun q hq => by simp [hbelow' q hq])

theorem allocate_of_first_inactive (hfree : (s.slot k).active = false)
    (hbelow : ∀ q < k, (s.slot q).active = true) :
    allocate n s = (s.setSlot k n true, true) := by
  obtain ⟨j, hj, hbelow', hclaim⟩ | ⟨hfull, -⟩ := allocate_spec n s
  · rw [hclaim, first_inactive_unique hj hbelow' hfree hbelow]
  · exact absurd (hfull k) (by simp [hfree])

theorem allocate_of_full (hfull : ∀ q, (s.slot q).active = true) : allocate n s = (s, false) := by
  obtain ⟨k, hfree, -, -⟩ | ⟨-, hkeep⟩ := allocate_spec n s
  · exact absurd (hfull k) (by simp [hfree])
  · exact hkeep

theorem exec_allocate (n : Byte) (s : State) :
    exec (.allocate n) s = .next { (allocate n s).1 with result := .flag (allocate n s).2 } := rfl

theorem signals_allocate (n : Byte) (s : State) :
    signals (.allocate n) s = if (allocate n s).2 then [] else [.poolExhausted n] := rfl

/-! RELEASE -/

theorem release_of_first_holding (hheld : s.slot k = ⟨n, true⟩)
    (hbelow : ∀ q < k, s.slot q ≠ ⟨n, true⟩) : release n s = (s.setSlot k n false, true) := by
  obtain ⟨j, hj, hbelow', hfrees⟩ | ⟨hnone, -⟩ := release_spec n s
  · rw [hfrees, first_unique (P := fun q => s.slot q = ⟨n, true⟩) hj hbelow' hheld hbelow]
  · exact absurd hheld (hnone k)

theorem release_of_unheld (hnone : ∀ q, s.slot q ≠ ⟨n, true⟩) : release n s = (s, false) := by
  obtain ⟨k, hheld, -, -⟩ | ⟨-, hkeep⟩ := release_spec n s
  · exact absurd hheld (hnone k)
  · exact hkeep

theorem exec_release (n : Byte) (s : State) :
    exec (.release n) s = .next { (release n s).1 with result := .flag (release n s).2 } := rfl

theorem signals_release (n : Byte) (s : State) :
    signals (.release n) s = if (release n s).2 then [] else [.unmatchedNoteOff n] := rfl

end Scans

/-- Settles O19: the scan ends at the slot the hypotheses name, or finds none. -/
theorem allocateClaimsFirstFree : Obligations.AllocateClaimsFirstFree := by
  refine fun n s => ⟨fun k hfree hbelow => ?claimed, fun hfull => ?full⟩
  case claimed =>
    rw [exec_allocate, signals_allocate, allocate_of_first_inactive hfree hbelow]
    exact ⟨rfl, rfl⟩
  case full =>
    rw [exec_allocate, signals_allocate, allocate_of_full hfull]
    exact ⟨rfl, rfl⟩

/-- Settles O20: the scan ends at the slot the hypotheses name, or finds none. -/
theorem releaseFreesFirstHolding : Obligations.ReleaseFreesFirstHolding := by
  refine fun n s => ⟨fun k hheld hbelow => ?freed, fun hnone => ?unmatched⟩
  case freed =>
    rw [exec_release, signals_release, release_of_first_holding hheld hbelow]
    exact ⟨rfl, rfl⟩
  case unmatched =>
    rw [exec_release, signals_release, release_of_unheld hnone]
    exact ⟨rfl, rfl⟩

/-! ALLOCATE, then RELEASE of the same note (R126) -/

section Pair

variable {n : Byte} {s : State} {k : SlotIx}

theorem setSlot_setSlot (s : State) (k : SlotIx) (m n : Byte) (a b : Bool) :
    (s.setSlot k m a).setSlot k n b = s.setSlot k n b := by
  simp only [State.setSlot, Vector.set_set]

theorem execAll_allocate_release (n : Byte) (s : State) :
    execAll [.allocate n, .release n] s
      = exec (.release n) { (allocate n s).1 with result := .flag (allocate n s).2 } := by
  simp only [execAll, exec_allocate, exec_release]

/-- As no slot below held the note before, RELEASE finds it where ALLOCATE put it. -/
theorem allocate_release_of_first_inactive (hnone : ∀ q, s.slot q ≠ ⟨n, true⟩)
    (hfree : (s.slot k).active = false) (hbelow : ∀ q < k, (s.slot q).active = true) :
    execAll [.allocate n, .release n] s
      = .next { s.setSlot k n false with result := .flag true } := by
  have hheld : (s.setSlot k n true).slot k = ⟨n, true⟩ := by rw [setSlot_slot, if_pos rfl]
  have hothers : ∀ q < k, (s.setSlot k n true).slot q ≠ ⟨n, true⟩ := by
    intro q hq
    rw [setSlot_slot, if_neg hq.ne']
    exact hnone q
  have hrelease : release n { s.setSlot k n true with result := .flag true }
      = ({ s.setSlot k n true with result := .flag true }.setSlot k n false, true) :=
    release_of_first_holding hheld hothers
  rw [execAll_allocate_release, allocate_of_first_inactive hfree hbelow, exec_release, hrelease,
    ← setSlot_setSlot s k n n true false]
  rfl

theorem allocate_release_of_full (hnone : ∀ q, s.slot q ≠ ⟨n, true⟩)
    (hfull : ∀ q, (s.slot q).active = true) :
    execAll [.allocate n, .release n] s = .next { s with result := .flag false } := by
  have hrelease : release n { s with result := .flag false }
      = ({ s with result := .flag false }, false) := release_of_unheld hnone
  rw [execAll_allocate_release, allocate_of_full hfull, exec_release, hrelease]

end Pair

/-- Settles O21: the pair leaves its note in the slot ALLOCATE claimed, or claimed none. -/
theorem allocateReleasePair : Obligations.AllocateReleasePair := by
  intro n s hnone
  obtain ⟨k, hfree, hbelow, -⟩ | ⟨hfull, -⟩ := allocate_spec n s
  · have hslot : ∀ q, (s.setSlot k n false).slot q = if k = q then ⟨n, false⟩ else s.slot q :=
      setSlot_slot k n false s
    refine ⟨_, allocate_release_of_first_inactive hnone hfree hbelow, fun q => ?bits,
      fun j hj hbelow' => ?slots, fun hfull => absurd (hfull k) (by simp [hfree])⟩
    case bits =>
      refine (congrArg Voice.active (hslot q)).trans ?_
      split
      · next h => rw [← h, hfree]
      · rfl
    case slots =>
      obtain rfl := first_inactive_unique hfree hbelow hj hbelow'
      exact ⟨(hslot k).trans (if_pos rfl), fun q hq => (hslot q).trans (if_neg hq.symm)⟩
  · exact ⟨_, allocate_release_of_full hnone hfull, fun _ => rfl,
      fun j hj _ => absurd (hfull j) (by simp [hj]), fun _ => rfl⟩

/-! The full pool (R127) -/

theorem activeCount_le (s : State) : activeCount s ≤ 5 :=
  List.length_filter_le (fun k => (s.slot k).active) slotIndices

theorem activeCount_eq_five_iff (s : State) :
    activeCount s = 5 ↔ ∀ q, (s.slot q).active = true := by
  have hscan : activeCount s = 5 ↔ ∀ q ∈ slotIndices, (s.slot q).active = true :=
    List.length_filter_eq_length_iff
  exact hscan.trans ⟨fun h q => h q (mem_slotIndices q), fun h q _ => h q⟩

/-- Settles O22: NOTE_ON allocates, and ALLOCATE on a full pool keeps it. -/
theorem poolCapacity : Obligations.PoolCapacity := by
  refine fun n v s => ⟨activeCount_le s, fun hcount hp hf => ?_⟩
  have hkeep : allocate n s = (s, false) := allocate_of_full ((activeCount_eq_five_iff s).mp hcount)
  simpa [hkeep] using Decoder.noteOnMessage n v s hp hf

/-! RESET_ALL (R125) -/

theorem resetAll_slot (c : Cfg) (s : State) (k : SlotIx) :
    (resetAll c s).slot k = ⟨(s.slot k).note, false⟩ := by
  rw [resetAll, zeroAcc_slot, silenceAll_slot]

theorem resetAll_accOf (c : Cfg) (s : State) (d : Drum) :
    (resetAll c s).accOf d = c.num.ofNat 0 := by
  rw [resetAll, zeroAcc_accOf]

theorem resetAll_frame (c : Cfg) (s : State) :
    resetAll c s = { s with slots := (resetAll c s).slots, acc := (resetAll c s).acc } := rfl

/-- Settles O23: RESET_ALL is `silenceAll` and `zeroAcc`, and neither writes anything else. -/
theorem resetAllSilences : Obligations.ResetAllSilences := fun s =>
  ⟨resetAll Config.cfg s, rfl, resetAll_slot Config.cfg s,
    fun d => (resetAll_accOf Config.cfg s d).trans Placing.ofNat_zero_eq_posZero,
    resetAll_frame Config.cfg s⟩

end Sys2Proof.VoicePool
end

section
/-! The synthesis steps (R160 to R176) applied by themselves and inside a SAMPLE: the whole result of each
drum's STEP, the SubTom layer the two toms share, and a SAMPLE in which one or two slots sound. -/

namespace Sys2Proof.Synthesis

open Sys2Proof.Machine Sys2Proof.Laws Sys2Proof.Safety
open Sys2Proof.Placing (exec_stepInstr ofNat_zero_eq_posZero sample_inside)

/-! One STEP applied by itself -/

theorem cfg_ofNat_zero : Config.cfg.num.ofNat 0 = Num32.posZero := ofNat_zero_eq_posZero

/-- The state of a STEP with the value it returns left in `result` (log 4). -/
def valueInResult (r : State × Num32) : State := { r.1 with result := .value r.2 }

theorem stepAlone_eq (c : Cfg) (d : Drum) (k : SlotIx) (s : State) :
    stepAlone c d k s = valueInResult (drumStep c d k s) := rfl

/-- Settles O24: each of the three drums is one with a transient layer, and `drumStep_transient` has the
three branches. -/
theorem transientDrumStep : Obligations.TransientDrumStep := by
  intro d T win k s hdrum
  have htables : transLayer d = some T ∧ noiseGain Config.cfg.params d = none
      ∧ subWin Config.cfg.params d = win := by
    obtain ⟨rfl, rfl, rfl⟩ | ⟨rfl, rfl, rfl⟩ | ⟨rfl, rfl, rfl⟩ := hdrum <;> exact ⟨rfl, rfl, rfl⟩
  obtain ⟨hT, hnoise, rfl⟩ := htables
  rw [exec_stepInstr, stepAlone_eq, drumStep_transient _ d k s T hT hnoise]
  simp only [apply_ite valueInResult, cfg_ofNat_zero]
  rfl

/-- Settles O25: both drums have a noise layer and no transient one, and `drumStep_noise` has the three
branches; the draw's type bounds it (R168). -/
theorem noiseDrumStep : Obligations.NoiseDrumStep := by
  intro d gain k s hdrum
  have htables : transLayer d = none ∧ noiseGain Config.cfg.params d = some gain := by
    obtain ⟨rfl, rfl⟩ | ⟨rfl, rfl⟩ := hdrum <;> exact ⟨rfl, rfl⟩
  obtain ⟨hT, hnoise⟩ := htables
  refine ⟨(Config.noise s.noiseIx).inSet, ?_⟩
  rw [exec_stepInstr, stepAlone_eq, drumStep_noise _ d k s gain hT hnoise]
  simp only [apply_ite valueInResult, cfg_ofNat_zero]
  rfl

/-! The shared SubTom layer -/

/-- Off its boundary, a STEP of a drum with a transient layer takes both layers one count on (R161,
R166). -/
theorem transient_step_below {d : Drum} {T : Layer} {k : SlotIx} {s : State}
    (hT : transLayer d = some T) (hnoise : noiseGain Config.cfg.params d = none)
    (hbelow : ((s.layer d.layer).cnt + 1).toNat ≤ Config.cfg.params.nthr d) :
    ∃ u, exec (stepInstr k d) s = .next u ∧ u.var = s.var ∧ ∀ L, u.layer L =
      if T = L ∨ d.layer = L then
        stepped (waveOf Config.cfg L s) (s.layer L) ((s.layer L).cnt + 1)
      else s.layer L := by
  refine ⟨_, exec_stepInstr k d s, ?var, fun L => ?layers⟩
  case var =>
    rw [stepAlone, drumStep_frame]
  case layers =>
    refine (congrArg (fun r : State × Num32 => r.1.layer L)
      (drumStep_transient Config.cfg d k s T hT hnoise)).trans ?_
    simp only [if_pos hbelow, setLayer_layer]
    by_cases hL : T = L
    · subst hL
      simp
    · by_cases hd : d.layer = L
      · subst hd
        simp [hL]
      · simp [hL, hd]

/-- Settles O27: the MidTom step leaves SubTom one count on, and the HighTom step starts from there. -/
theorem sharedSubTom : Obligations.SharedSubTom := by
  intro j k s hmid hhigh
  obtain ⟨u, hexec, hvar, hlayer⟩ := transient_step_below (d := .midTom) (k := j) rfl rfl hmid
  have huHigh : u.layer .highTom = s.layer .highTom := hlayer .highTom
  obtain ⟨t, hexec', -, hlayer'⟩ := transient_step_below (d := .highTom) (k := k) (s := u) rfl rfl
    (by rw [← huHigh] at hhigh; exact hhigh)
  have huSub : u.layer .subTom = stepped (waveOf Config.cfg .subTom s) (s.layer .subTom)
      ((s.layer .subTom).cnt + 1) := hlayer .subTom
  have htSub : t.layer .subTom = stepped (waveOf Config.cfg .subTom u) (u.layer .subTom)
      ((u.layer .subTom).cnt + 1) := hlayer' .subTom
  have htMid : t.layer .midTom = u.layer .midTom := hlayer' .midTom
  have htHigh : t.layer .highTom = stepped (waveOf Config.cfg .highTom u) (u.layer .highTom)
      ((u.layer .highTom).cnt + 1) := hlayer' .highTom
  refine ⟨u, t, hexec, hexec', ?count, ?burst, ?mid, ?high⟩
  case count =>
    rw [htSub, huSub]
    exact BitVec.add_assoc _ 1 1
  case burst =>
    rw [htSub, stepped, waveOf, huSub, hvar]
    rfl
  case mid =>
    rw [htMid, hlayer]
    rfl
  case high =>
    rw [htHigh, huHigh]
    rfl

/-! One or two sounding slots -/

/-- A scan is the scan of the slots that are not silent (R209). -/
theorem mixFold_filter {c : Cfg} (sounding : SlotIx → Bool) {ks : List SlotIx} {s : State}
    (h : ∀ q, sounding q = false → Silent c.params (s.slot q)) :
    ks.foldl (mixSlot c) s = (ks.filter sounding).foldl (mixSlot c) s := by
  induction ks generalizing s with
  | nil => rfl
  | cons k ks ih =>
    cases hk : sounding k with
    | true =>
      rw [List.filter_cons_of_pos hk, List.foldl_cons, List.foldl_cons]
      refine ih fun q hq => ?_
      rw [mixSlot_frame]
      exact h q hq
    | false =>
      rw [List.filter_cons_of_neg (by simp [hk]), List.foldl_cons,
        mixSlot_silent c s k (h k hk)]
      exact ih h

theorem mixAll_one {c : Cfg} {s : State} {k : SlotIx}
    (h : ∀ q, q ≠ k → Silent c.params (s.slot q)) :
    mixAll c s = mixSlot c (zeroAcc c s) k := by
  have hscan : slotIndices.filter (· == k) = [k] := by
    clear h
    revert k
    decide
  have hsilent (q : SlotIx) (hq : (q == k) = false) :
      Silent c.params ((zeroAcc c s).slot q) := h q (beq_eq_false_iff_ne.mp hq)
  rw [mixAll, mixFold_filter _ hsilent, hscan]
  rfl

/-- The lower slot's turn comes first (R204). -/
theorem mixAll_two {c : Cfg} {s : State} {j k : SlotIx} (hjk : j < k)
    (h : ∀ q, q ≠ j → q ≠ k → Silent c.params (s.slot q)) :
    mixAll c s = mixSlot c (mixSlot c (zeroAcc c s) j) k := by
  have hscan : slotIndices.filter (fun q => q == j || q == k) = [j, k] := by
    clear h
    revert j k
    decide
  have hsilent (q : SlotIx) (hq : (q == j || q == k) = false) :
      Silent c.params ((zeroAcc c s).slot q) := by
    rw [Bool.or_eq_false_iff, beq_eq_false_iff_ne, beq_eq_false_iff_ne] at hq
    exact h q hq.1 hq.2
  rw [mixAll, mixFold_filter _ hsilent, hscan]
  rfl

/-- A STEP's value `y` weighted into the accumulator of drum `d` that holds `a` (R205). -/
def addWeighted (c : Cfg) (d : Drum) (a y : Num32) : Num32 :=
  c.num.fadd a (c.num.fmul (c.num.ofNat (mixWeight d)) y)

/-- The mixer's turn in `z` for a slot that holds a drum's note: the drum's STEP, as applied by itself in
a state `s` that sounds alike, and its weighted value in the drum's accumulator (R204, R205). -/
theorem mixSlot_as_stepAlone {c : Cfg} {d : Drum} {k : SlotIx} {s z : State}
    (hp : c.params.valid = true) (halike : SoundsAlike s z)
    (hslot : s.slot k = ⟨c.params.note d, true⟩) :
    SoundsAlike (stepAlone c d k s) (mixSlot c z k)
      ∧ ∀ e, (mixSlot c z k).accOf e =
        if e = d then addWeighted c d (z.accOf d) (drumStep c d k s).2 else z.accOf e := by
  obtain ⟨hstep, hvalue⟩ := drumStep_congr halike c d k
  obtain ⟨-, -, hslots, -⟩ := halike
  have hz : z.slot k = ⟨c.params.note d, true⟩ := by rw [State.slot, hslots]; exact hslot
  have hacc (e : Drum) : (drumStep c d k z).1.accOf e = z.accOf e := by
    rw [drumStep_frame]
    rfl
  rw [mixSlot_drum c hp z d k hz]
  refine ⟨hstep, fun e => ?_⟩
  rw [setAcc_accOf, hacc, hacc, hvalue]
  exact if_congr eq_comm rfl rfl

/-- The weights of R205: 2 for Kick and Snare, 1 for the others (R7). -/
theorem addWeighted_eq (d : Drum) (a y : Num32) : addWeighted Config.cfg d a y =
    Num32.fadd a (Num32.fmul (Num32.ofNat (if d = .kick ∨ d = .snare then 2 else 1)) y) := by
  cases d <;> rfl

/-- A STEP applied by itself changes no slot (R165). -/
theorem stepAlone_slot (c : Cfg) (d : Drum) (k q : SlotIx) (s : State) :
    (stepAlone c d k s).slot q = s.slot q := by
  rw [stepAlone, drumStep_frame]
  rfl

/-- The scan with one sounding slot. -/
theorem mixAll_one_sounding {c : Cfg} {d : Drum} {k : SlotIx} {s : State}
    (hp : c.params.valid = true) (hk : s.slot k = ⟨c.params.note d, true⟩)
    (hsilent : ∀ q, q ≠ k → Silent c.params (s.slot q)) :
    SoundsAlike (stepAlone c d k s) (mixAll c s)
      ∧ ∀ g, (mixAll c s).accOf g =
        if g = d then addWeighted c d (c.num.ofNat 0) (drumStep c d k s).2 else c.num.ofNat 0 := by
  have halike : SoundsAlike s (zeroAcc c s) := ⟨rfl, rfl, rfl, rfl⟩
  have hturn := mixSlot_as_stepAlone hp halike hk
  simp only [zeroAcc_accOf] at hturn
  rw [mixAll_one hsilent]
  exact hturn

/-- The scan with two sounding slots: the higher slot's STEP runs in the state the lower slot's STEP
leaves. -/
theorem mixAll_two_sounding {c : Cfg} {d e : Drum} {j k : SlotIx} {s : State}
    (hp : c.params.valid = true) (hjk : j < k) (hj : s.slot j = ⟨c.params.note d, true⟩)
    (hk : s.slot k = ⟨c.params.note e, true⟩)
    (hsilent : ∀ q, q ≠ j → q ≠ k → Silent c.params (s.slot q)) :
    let u := stepAlone c d j s
    let first (g : Drum) : Num32 :=
      if g = d then addWeighted c d (c.num.ofNat 0) (drumStep c d j s).2 else c.num.ofNat 0
    SoundsAlike (stepAlone c e k u) (mixAll c s)
      ∧ ∀ g, (mixAll c s).accOf g =
        if g = e then addWeighted c e (first e) (drumStep c e k u).2 else first g := by
  have halike : SoundsAlike s (zeroAcc c s) := ⟨rfl, rfl, rfl, rfl⟩
  obtain ⟨halike', hfirst⟩ := mixSlot_as_stepAlone hp halike hj
  have hturn := mixSlot_as_stepAlone hp halike' ((stepAlone_slot c d j k s).trans hk)
  simp only [hfirst, zeroAcc_accOf] at hturn
  rw [mixAll_two hjk hsilent]
  exact hturn

/-- A SAMPLE inside the block ends with the layers, the draws and the accumulators of its scan
(R204). -/
theorem sample_of_scan {s v : State} {sum : Drum → Num32} (hbusy : s.busy = true)
    (hi : s.i < Config.cfg.params.blockSize)
    (hscan : SoundsAlike v (mixAll Config.cfg s) ∧ ∀ g, (mixAll Config.cfg s).accOf g = sum g) :
    ∃ t, exec .sample s = .next t ∧ t.layers = v.layers ∧ t.noiseIx = v.noiseIx
      ∧ ∀ g, t.accOf g = sum g := by
  obtain ⟨⟨hlayers, -, -, hnoise⟩, hsum⟩ := hscan
  obtain ⟨t, hsample, htLayers, htNoise, htAcc⟩ := sample_inside (c := Config.cfg) hbusy hi
  refine ⟨t, hsample, htLayers.trans hlayers, htNoise.trans hnoise, fun g => ?_⟩
  rw [State.accOf, htAcc]
  exact hsum g

/-- Settles O35: layers and accumulators are the scan's, with one turn or with two. -/
theorem oneOrTwoSlotsSound : Obligations.OneOrTwoSlotsSound := by
  have hp : Config.cfg.params.valid = true := Config.params.valid
  refine ⟨fun d k s hbusy hi hk hsilent => ?one, fun d e j k s hjk hbusy hi hj hk hsilent => ?two⟩
  case one =>
    obtain ⟨t, hsample, hlayers, hnoise, hacc⟩ :=
      sample_of_scan hbusy hi (mixAll_one_sounding hp hk hsilent)
    simp only [cfg_ofNat_zero, addWeighted_eq] at hacc
    exact ⟨stepAlone Config.cfg d k s, t, (drumStep Config.cfg d k s).2, exec_stepInstr k d s, rfl,
      hsample, hlayers, hnoise, (hacc d).trans (if_pos rfl), fun g hg => (hacc g).trans (if_neg hg)⟩
  case two =>
    obtain ⟨t, hsample, hlayers, hnoise, hacc⟩ :=
      sample_of_scan hbusy hi (mixAll_two_sounding hp hjk hj hk hsilent)
    simp only [cfg_ofNat_zero, addWeighted_eq] at hacc
    let u := stepAlone Config.cfg d j s
    refine ⟨u, stepAlone Config.cfg e k u, t, (drumStep Config.cfg d j s).2,
      (drumStep Config.cfg e k u).2, exec_stepInstr j d s, rfl, exec_stepInstr k e u, rfl, hsample,
      hlayers, hnoise, ?_, fun g hd he => ?_⟩
    · by_cases hde : d = e
      · subst hde
        simpa using hacc d
      · simpa [hde, Ne.symm hde] using And.intro (hacc d) (hacc e)
    · simpa [hd, he] using hacc g

end Sys2Proof.Synthesis
end

section
/-! A layer at count zero (R154, log 14): its elapsed time is `+0`, so its amplitude is `+0` and the value
it returns a zero. -/

namespace Sys2Proof.CountZero

open Sys2Proof.Machine Sys2Proof.Laws Sys2Proof.Num32

/-! Rationals rounded to binary32 (R184) -/

theorem sign_ofRat (q : ℚ) : sign (ofRat q) = decide (q < 0) := sign_pack _ (roundMag_lt _ _)

theorem sign_ofRat_of_nonneg {q : ℚ} (h : 0 ≤ q) : sign (ofRat q) = false := by
  rw [sign_ofRat, decide_eq_false (not_lt.mpr h)]

theorem isZero_pack (s : Bool) {b : Nat} (h : b < 2 ^ 31) : isZero (pack s b) = true ↔ b = 0 := by
  simp only [isZero, expField_pack s h, fracField_pack s h, Bool.and_eq_true, beq_iff_eq]
  omega

/-- A ratio of at least 1 does not round to zero. -/
theorem roundMag_pos {n d : Nat} (hd : 0 < d) (h : d ≤ n) : 0 < roundMag n d := by
  have hscaled : 2 ^ 149 ≤ n * 2 ^ 149 / d :=
    (Nat.le_div_iff_mul_le hd).mpr (by rw [Nat.mul_comm]; exact Nat.mul_le_mul_right _ h)
  have hlog : 149 ≤ (n * 2 ^ 149 / d).log2 := (Nat.le_log2 (by omega)).mpr hscaled
  exact lt_min (by decide) (by omega)

theorem isZero_ofRat_of_one_le {q : ℚ} (h : 1 ≤ q) : isZero (ofRat q) = false := by
  have hnum : q.den ≤ q.num.natAbs := by
    have : (q.den : ℤ) ≤ q.num := by
      rw [← Rat.num_div_den q, one_le_div (by positivity)] at h
      exact_mod_cast h
    omega
  have hpos := roundMag_pos q.den_pos hnum
  rw [Bool.eq_false_iff, ne_eq, ofRat, isZero_pack _ (roundMag_lt _ _)]
  omega

/-- `+0` is below every value without a sign (R183). -/
theorem posZero_fle {x : Num32} (hx : isFinite x = true) (hs : sign x = false) :
    fle posZero x = true := by
  have hnan : isNaN x = false := by
    have := class_cases x
    simp_all
  have hnan0 : isNaN posZero = false := by decide
  have hle : scaled posZero ≤ scaled x := by
    rw [(scaled_eq_zero posZero).mpr (by decide), scaled, hs]
    exact Int.natCast_nonneg _
  simp [fle, hnan, hnan0, hle]

theorem isZero_posZero_fmul {x : Num32} (hx : isFinite x = true) :
    isZero (fmul posZero x) = true := by
  rw [fmul_zero (by decide) hx (.inl (by decide)), isZero_pack _ (by decide)]

/-! The layer waveform at count zero -/

variable {sin exp : Num32 → Num32} {p : Params}

theorem binary32_elapsed (sin exp : Num32 → Num32) (p : Params) (n : Nat) :
    elapsed (binary32 sin exp) p n = fdiv (ofNat n) (ofRat p.sampleRate) := by
  have hfdiv : (binary32 sin exp).fdiv = fdiv := rfl
  rw [elapsed, hfdiv]
  rfl

theorem elapsed_zero (hp : p.valid = true) : elapsed (binary32 sin exp) p 0 = posZero := by
  have hrate := valid_sampleRate hp
  rw [binary32_elapsed, Placing.ofNat_zero_eq_posZero,
    fdiv_zero (valid_sampleRate_finite hp) (by decide) (isZero_ofRat_of_one_le hrate),
    sign_ofRat_of_nonneg (zero_le_one.trans hrate)]
  decide

theorem ampEnv_posZero {k : LayerConsts} (hk : k.valid = true) :
    ampEnv (binary32 sin exp) k posZero = posZero := by
  obtain ⟨hpeak, -, -, hamp, hfinite⟩ := valid_layerConsts hk
  have hattack : fle posZero (ofRat k.peak) = true :=
    posZero_fle (hfinite _ (by simp [LayerConsts.constants])) (sign_ofRat_of_nonneg hpeak.le)
  have hslope : isFinite (ofRat (k.amp / k.peak)) = true :=
    hfinite _ (by simp [LayerConsts.constants])
  refine (if_pos hattack).trans ((fmul_zero hslope (by decide) (.inr (by decide))).trans ?_)
  rw [sign_ofRat_of_nonneg (div_nonneg hamp hpeak.le)]
  decide

/-- Settles O29: the product of a `+0` amplitude with a finite sine is a zero. -/
theorem layerSilentAtCountZero : Obligations.LayerSilentAtCountZero := by
  intro p sin exp L var fshift hp N o k t
  have hamp : o.amp = posZero :=
    (congrArg (ampEnv N (p.layer L)) (elapsed_zero hp)).trans (ampEnv_posZero (valid_layer hp L))
  refine ⟨hamp, fun harg => ?_⟩
  obtain ⟨hsin, -⟩ := sin.bound _ harg
  change isZero (fmul o.amp _) = true
  rw [hamp]
  exact isZero_posZero_fmul hsin

end Sys2Proof.CountZero
end

section
/-! Over the real numbers (R190): the machine's layer waveform is the source's formula,
and the shape of the amplitude envelope (R143, R145). -/

namespace Sys2Proof.Reference

open Sys2Proof.Machine Sys2Proof.Laws

/-! The waveform's parts over the reals -/

theorem elapsed_real (p : Params) (n : Nat) :
    elapsed realNum p n = (n : ℝ) / (p.sampleRate : ℝ) := rfl

theorem ampEnv_real (k : LayerConsts) (t : ℝ) : ampEnv realNum k t = refAmp k t := by
  simp [ampEnv, refAmp, realNum]

theorem idxEnv_real (shape : IdxShape) (t : ℝ) : idxEnv realNum shape t = refIdx shape t := by
  cases shape with
  | linear ti => simp [idxEnv, refIdx, realNum]
  | expo taui => rfl
  | thump k eps tauf => simp [idxEnv, refIdx, realNum, sq]

theorem oscPhase_real (freq : ℚ) (k t : ℝ) :
    oscPhase realNum freq k t = 2 * Real.pi * (k * (freq : ℝ)) * t := by
  simp [oscPhase, realNum, mul_comm k]

theorem freqScale_real (L : Layer) (fshift : ℝ) :
    freqScale realNum L fshift = if L = .hiHat then 1 else fshift := by
  cases L <;> simp [freqScale, shifted, realNum]

theorem idxEff_real (p : Params) (L : Layer) (var : Vector (BitVec 2) 3) (t : ℝ) :
    idxEff realNum p L var t
      = (((p.layer L).i0 : ℝ) + layerOffset realNum p L var) * refIdx (p.layer L).idxEnv t := by
  rw [← idxEnv_real]
  rfl

/-- The whole waveform, the variant offset being `layerOffset` (R153, R154). -/
theorem layerOut_real (p : Params) (L : Layer) (var : Vector (BitVec 2) 3) (fshift : ℝ) (n : Nat) :
    (layerOut realNum p L var fshift n).out
      = refWave (p.layer L) (layerOffset realNum p L var) (if L = .hiHat then 1 else fshift)
        ((n : ℝ) / (p.sampleRate : ℝ)) := by
  rw [refWave, ← elapsed_real, ← ampEnv_real, ← freqScale_real, ← idxEff_real, ← oscPhase_real,
    ← oscPhase_real]
  rfl

/-- Settles O59: part by part; the offsets of R152 layer by layer. -/
theorem waveformIsReference : Obligations.WaveformIsReference := by
  intro p L var fshift n t ofs kf o
  have hofs : ofs = layerOffset realNum p L var := by
    cases L with
    | hiHat => exact Nat.cast_zero.symm
    | kick | snare | midTom | highTom | subKick | subTom => rfl
  rw [hofs]
  exact ⟨layerOut_real p L var fshift n, ampEnv_real (p.layer L) t, idxEff_real p L var t⟩

/-! The amplitude envelope -/

section Envelope

variable {k : LayerConsts} {t : ℝ}

/-- The attack is a straight line from 0 to the peak (R143). -/
theorem refAmp_attack (h : t ≤ (k.peak : ℝ)) :
    refAmp k t = (k.amp : ℝ) / (k.peak : ℝ) * t := if_pos h

theorem refAmp_peak (hpeak : 0 < k.peak) : refAmp k (k.peak : ℝ) = (k.amp : ℝ) := by
  have : (k.peak : ℝ) ≠ 0 := by exact_mod_cast hpeak.ne'
  rw [refAmp_attack le_rfl, div_mul_cancel₀ _ this]

/-- The decay is exponential from the peak on, the peak included, where the two branches meet (R143). -/
theorem refAmp_decay (hpeak : 0 < k.peak) (h : (k.peak : ℝ) ≤ t) (h' : t ≤ (k.rend : ℝ)) :
    refAmp k t = (k.amp : ℝ) * Real.exp (-((t - (k.peak : ℝ)) / (k.tau : ℝ))) := by
  obtain rfl | hlt := h.eq_or_lt
  · simp [refAmp_peak hpeak]
  · rw [refAmp, if_neg hlt.not_ge, if_pos h']

theorem refAmp_beyond (hle : k.peak ≤ k.rend) (h : (k.rend : ℝ) < t) : refAmp k t = 0 := by
  have hle' : (k.peak : ℝ) ≤ (k.rend : ℝ) := by exact_mod_cast hle
  rw [refAmp, if_neg (hle'.trans_lt h).not_ge, if_neg h.not_ge]

theorem refAmp_nonneg (hk : k.valid = true) (ht : 0 ≤ t) : 0 ≤ refAmp k t := by
  obtain ⟨hpeak, hle, -, hamp, -⟩ := valid_layerConsts hk
  have hpeak' : (0 : ℝ) ≤ (k.peak : ℝ) := by exact_mod_cast hpeak.le
  have hamp' : (0 : ℝ) ≤ (k.amp : ℝ) := by exact_mod_cast hamp
  obtain hattack | hlater := le_total t (k.peak : ℝ)
  · rw [refAmp_attack hattack]
    positivity
  · obtain hdecay | hbeyond := le_or_gt t (k.rend : ℝ)
    · rw [refAmp_decay hpeak hlater hdecay]
      positivity
    · exact (refAmp_beyond hle hbeyond).ge

/-- The two branches are continuous on closed intervals that meet at the peak. -/
theorem refAmp_continuousOn (hk : k.valid = true) :
    ContinuousOn (refAmp k) (Set.Icc 0 (k.rend : ℝ)) := by
  obtain ⟨hpeak, -⟩ := valid_layerConsts hk
  have hattack : ContinuousOn (refAmp k) (Set.Iic (k.peak : ℝ)) :=
    (continuous_const.mul continuous_id).continuousOn.congr fun _ h => refAmp_attack h
  have hdecay : ContinuousOn (refAmp k) (Set.Icc (k.peak : ℝ) (k.rend : ℝ)) :=
    ContinuousOn.congr (by fun_prop) fun _ h => refAmp_decay hpeak h.1 h.2
  refine (hattack.union_of_isClosed hdecay isClosed_Iic isClosed_Icc).mono fun t ht => ?_
  exact (le_total t (k.peak : ℝ)).imp id fun h => ⟨h, ht.2⟩

end Envelope

/-- Settles O60: the three branches, which agree where they meet but for the end. -/
theorem envelopeShape : Obligations.EnvelopeShape := by
  intro k hk
  obtain ⟨hpeak, hle, -, -, -⟩ := valid_layerConsts hk
  have hpeak' : (0 : ℝ) ≤ (k.peak : ℝ) := by exact_mod_cast hpeak.le
  have hle' : (k.peak : ℝ) ≤ (k.rend : ℝ) := by exact_mod_cast hle
  exact ⟨refAmp_continuousOn hk, fun t => refAmp_nonneg hk,
    (refAmp_attack hpeak').trans (mul_zero _), refAmp_peak hpeak, refAmp_decay hpeak hle' le_rfl,
    fun t => refAmp_beyond hle⟩

end Sys2Proof.Reference
end

section
/-! Rounding to nearest even (R182, R184): `roundMag` gives a significand of at most 24 bits in units
of a quantum, no finite value is nearer, and the bits reach the infinity exactly from the overflow
bound on. -/

namespace Sys2Proof.Rounding

open Sys2Proof.Machine Sys2Proof.Laws Sys2Proof.Safety Sys2Proof.Num32

/-! The exact value of a value by its sign and magnitude -/

/-- `-1` for a negative sign bit, `1` otherwise. -/
def signFactor (s : Bool) : ℚ := if s then -1 else 1

@[simp] theorem abs_signFactor (s : Bool) : |signFactor s| = 1 := by cases s <;> simp [signFactor]

theorem signFactor_bne (s t : Bool) : signFactor (s != t) = signFactor s * signFactor t := by
  cases s <;> cases t <;> simp [signFactor]

theorem signFactor_mul_self (s : Bool) : signFactor s * signFactor s = 1 := by
  cases s <;> simp [signFactor]

theorem int_eq_signFactor_mul (z : ℤ) : (z : ℚ) = signFactor (decide (z < 0)) * z.natAbs := by
  obtain hneg | hnonneg := lt_or_ge z 0
  · simp [signFactor, hneg, abs_of_neg]
  · simp [signFactor, hnonneg.not_gt, abs_of_nonneg hnonneg]

theorem scaled_eq (x : Num32) : (scaled x : ℚ) = signFactor (sign x) * mag x := by
  unfold scaled signFactor
  split <;> simp

theorem toRat_eq (x : Num32) : toRat x = signFactor (sign x) * (mag x / 2 ^ 149) := by
  rw [toRat, scaled_eq, mul_div_assoc]

theorem abs_toRat (x : Num32) : |toRat x| = mag x / 2 ^ 149 := by
  rw [toRat_eq, abs_mul, abs_signFactor, one_mul, abs_of_nonneg (by positivity)]

theorem toRat_eq_zero (x : Num32) : toRat x = 0 ↔ isZero x = true := by
  rw [← mag_eq_zero, ← abs_eq_zero, abs_toRat]
  simp

theorem toRat_fneg (x : Num32) : toRat (fneg x) = -toRat x := by
  rw [toRat_eq, toRat_eq, fneg_sign, fneg_mag]
  cases sign x <;> simp [signFactor]

theorem isFinite_fneg (x : Num32) : isFinite (fneg x) = isFinite x := by simp [isFinite]

/-! Rounding a ratio to an integer -/

/-- The rounded quotient is off by at most a half, and by a half only if it is even. -/
theorem roundEven_error (n : Nat) {d : Nat} (hd : 0 < d) :
    |(roundEven n d : ℚ) - n / d| ≤ 1 / 2
      ∧ (|(roundEven n d : ℚ) - n / d| = 1 / 2 → roundEven n d % 2 = 0) := by
  have hd' : (0 : ℚ) < d := by exact_mod_cast hd
  have hquot : (n : ℚ) / d = (n / d : Nat) + (n % d : Nat) / d := by
    rw [eq_comm, ← eq_sub_iff_add_eq', div_eq_iff hd'.ne', sub_mul, div_mul_cancel₀ _ hd'.ne',
      eq_sub_iff_add_eq]
    exact_mod_cast Nat.mod_add_div' n d
  have hlt : ((n % d : Nat) : ℚ) / d < 1 := by
    rw [div_lt_one hd']
    exact_mod_cast Nat.mod_lt n hd
  have hnonneg : (0 : ℚ) ≤ ((n % d : Nat) : ℚ) / d := by positivity
  rw [hquot]
  unfold roundEven
  split
  case isTrue hbelow =>
    have : ((n % d : Nat) : ℚ) / d < 1 / 2 := by
      rw [div_lt_div_iff₀ hd' two_pos]
      exact_mod_cast (by omega : n % d * 2 < 1 * d)
    rw [sub_add_cancel_left, abs_neg, abs_of_nonneg hnonneg]
    exact ⟨this.le, fun h => absurd h this.ne⟩
  case isFalse hnot =>
    split
    case isTrue habove =>
      have : 1 / 2 < ((n % d : Nat) : ℚ) / d := by
        rw [div_lt_div_iff₀ two_pos hd']
        exact_mod_cast (by omega : 1 * d < n % d * 2)
      rw [Nat.cast_succ, add_sub_add_left_eq_sub, abs_of_pos (sub_pos.mpr hlt)]
      exact ⟨by linarith, fun h => by linarith⟩
    case isFalse hnot' =>
      have : ((n % d : Nat) : ℚ) / d = 1 / 2 := by
        rw [div_eq_div_iff hd'.ne' two_ne_zero]
        exact_mod_cast (by omega : n % d * 2 = 1 * d)
      refine ⟨?_, fun _ => by omega⟩
      rw [this, Nat.cast_add, add_sub_add_left_eq_sub, abs_le]
      have hbit : ((n / d % 2 : Nat) : ℚ) ≤ 1 := by exact_mod_cast (by omega : n / d % 2 ≤ 1)
      have hbit0 : (0 : ℚ) ≤ ((n / d % 2 : Nat) : ℚ) := by positivity
      constructor <;> linarith

theorem roundEven_bounds (n d : Nat) : n / d ≤ roundEven n d ∧ roundEven n d ≤ n / d + 1 := by
  unfold roundEven
  split
  · omega
  · split <;> omega

/-! Quantum and significand -/

/-- The exact magnitude `x`, in units of 2^-149, rounds to `m` quanta of `2 ^ q`: the nearest number
of them, even when between two; `m` has at most 24 bits, and all 24 but where the quantum is the least
there is. -/
structure Quantized (x : ℚ) (q m : Nat) : Prop where
  error : |(m : ℚ) - x / 2 ^ q| ≤ 1 / 2
  even : |(m : ℚ) - x / 2 ^ q| = 1 / 2 → m % 2 = 0
  lt : x < 2 ^ 24 * 2 ^ q
  le : q ≠ 0 → 2 ^ 23 * 2 ^ q ≤ x
  significand_le : m ≤ 2 ^ 24
  le_significand : q ≠ 0 → 2 ^ 23 ≤ m

/-- The quantum that `roundMag` rounds `n / d` to is 2 to this power, in units of 2^-149. -/
def quantum (n d : Nat) : Nat := (n * 2 ^ 149 / d).log2 - 23

/-- The number of quanta that `roundMag` takes. -/
def significand (n d : Nat) : Nat := roundEven (n * 2 ^ 149) (d * 2 ^ quantum n d)

theorem roundMag_eq (n d : Nat) :
    roundMag n d = min infBits (quantum n d * 2 ^ 23 + significand n d) := rfl

theorem div_quantum_lt (n d : Nat) : n * 2 ^ 149 / (d * 2 ^ quantum n d) < 2 ^ 24 := by
  have h := Nat.lt_log2_self (n := n * 2 ^ 149 / d)
  rw [← Nat.div_div_eq_div_mul, Nat.div_lt_iff_lt_mul (by positivity), ← pow_add]
  exact h.trans_le (Nat.pow_le_pow_right two_pos (by unfold quantum; omega))

theorem le_div_quantum {n d : Nat} (hq : quantum n d ≠ 0) :
    2 ^ 23 ≤ n * 2 ^ 149 / (d * 2 ^ quantum n d) := by
  unfold quantum at hq ⊢
  have hne : n * 2 ^ 149 / d ≠ 0 := by
    intro h
    rw [h] at hq
    exact hq rfl
  rw [← Nat.div_div_eq_div_mul, Nat.le_div_iff_mul_le (by positivity), ← pow_add,
    Nat.add_sub_of_le (by omega)]
  exact Nat.log2_self_le hne

/-- The quantum and the significand of `roundMag` round the ratio. -/
theorem quantized (n : Nat) {d : Nat} (hd : 0 < d) :
    Quantized ((n : ℚ) / d * 2 ^ 149) (quantum n d) (significand n d) := by
  have hlt := div_quantum_lt n d
  obtain ⟨hfloor, hceil⟩ := roundEven_bounds (n * 2 ^ 149) (d * 2 ^ quantum n d)
  have hround := roundEven_error (n * 2 ^ 149) (d := d * 2 ^ quantum n d) (by positivity)
  have hratio : ((n * 2 ^ 149 : Nat) : ℚ) / (d * 2 ^ quantum n d : Nat)
      = (n : ℚ) / d * 2 ^ 149 / 2 ^ quantum n d := by
    rw [div_mul_eq_mul_div, div_div]
    simp only [Nat.cast_mul, Nat.cast_pow, Nat.cast_ofNat]
  rw [hratio] at hround
  refine ⟨hround.1, hround.2, ?_, fun hq => ?_, by unfold significand; omega,
    fun hq => (le_div_quantum hq).trans hfloor⟩
  · rw [Nat.div_lt_iff_lt_mul (by positivity)] at hlt
    rw [div_mul_eq_mul_div, div_lt_iff₀ (by positivity)]
    exact_mod_cast (by linarith : n * 2 ^ 149 < 2 ^ 24 * 2 ^ quantum n d * d)
  · have hle := le_div_quantum hq
    rw [Nat.le_div_iff_mul_le (by positivity)] at hle
    rw [div_mul_eq_mul_div, le_div_iff₀ (by positivity)]
    exact_mod_cast (by linarith : 2 ^ 23 * 2 ^ quantum n d * d ≤ n * 2 ^ 149)

/-! The magnitude of rounded bits -/

/-- Bits put together from a quantum and a significand have that many quanta as their magnitude; a
significand of 2^24 carries into the next exponent. -/
theorem mag_pack_quantum (s : Bool) {q m : Nat} (hm : m ≤ 2 ^ 24) (hq : q ≠ 0 → 2 ^ 23 ≤ m)
    (hb : q * 2 ^ 23 + m < 2 ^ 31) : mag (pack s (q * 2 ^ 23 + m)) = m * 2 ^ q := by
  rw [mag, expField_pack s hb, fracField_pack s hb]
  obtain hsub | hnormal | hcarry : m < 2 ^ 23 ∨ (2 ^ 23 ≤ m ∧ m < 2 ^ 24) ∨ m = 2 ^ 24 := by omega
  · obtain rfl : q = 0 := by omega
    rw [if_pos (by omega)]
    omega
  · rw [if_neg (by omega), show (q * 2 ^ 23 + m) / 2 ^ 23 - 1 = q by omega,
      show 2 ^ 23 + (q * 2 ^ 23 + m) % 2 ^ 23 = m by omega]
  · subst hcarry
    rw [if_neg (by omega), show (q * 2 ^ 23 + 2 ^ 24) / 2 ^ 23 - 1 = q + 1 by omega,
      show 2 ^ 23 + (q * 2 ^ 23 + 2 ^ 24) % 2 ^ 23 = 2 ^ 23 by omega, pow_succ]
    ring

/-- A magnitude is a whole number of any quantum, or less than 2^23 of them. -/
theorem mag_quanta (x : Num32) (q : Nat) :
    (∃ j, mag x = j * 2 ^ q) ∨ mag x < 2 ^ 23 * 2 ^ q := by
  have hfrac := fracField_lt x
  unfold mag
  split
  · exact .inr (hfrac.trans_le (Nat.le_mul_of_pos_right _ (by positivity)))
  · obtain hle | hlt := le_or_gt q (expField x - 1)
    · refine .inl ⟨(2 ^ 23 + fracField x) * 2 ^ (expField x - 1 - q), ?_⟩
      rw [mul_assoc, ← pow_add, Nat.sub_add_cancel hle]
    · refine .inr ?_
      calc (2 ^ 23 + fracField x) * 2 ^ (expField x - 1)
          < 2 ^ 24 * 2 ^ (expField x - 1) := by gcongr; omega
        _ = 2 ^ 23 * 2 ^ (expField x - 1 + 1) := by rw [pow_succ]; ring
        _ ≤ 2 ^ 23 * 2 ^ q := by gcongr <;> omega

/-- The magnitude of a finite value is below 2^277 (written so that no power is above 2^256). -/
theorem mag_lt {x : Num32} (hx : isFinite x = true) : mag x < 2 ^ 24 * 2 ^ 253 := by
  have hfrac := fracField_lt x
  have hexp := expField_lt x
  have hfin : expField x ≠ 255 := by simpa [isFinite] using hx
  unfold mag
  split
  · exact hfrac.trans (by norm_num)
  · calc (2 ^ 23 + fracField x) * 2 ^ (expField x - 1)
        < 2 ^ 24 * 2 ^ (expField x - 1) := by gcongr; omega
      _ ≤ 2 ^ 24 * 2 ^ 253 := by gcongr <;> omega

/-! No magnitude is nearer -/

section Nearest

variable {x : ℚ} {q m : Nat} (h : Quantized x q m)

include h

/-- Another number of quanta is no nearer, and as near only if the significand is even. -/
theorem Quantized.nearest_quanta (j : Nat) :
    |(m : ℚ) - x / 2 ^ q| ≤ |(j : ℚ) - x / 2 ^ q|
      ∧ (|(m : ℚ) - x / 2 ^ q| = |(j : ℚ) - x / 2 ^ q| → j = m ∨ m % 2 = 0) := by
  have herr := h.error
  by_cases hj : j = m
  · exact ⟨by rw [hj], fun _ => .inl hj⟩
  · have hapart : (1 : ℚ) ≤ |(m : ℚ) - j| := by
      have hz : (1 : ℤ) ≤ |(m : ℤ) - j| := Int.one_le_abs (by omega)
      exact_mod_cast hz
    have htri := abs_sub_le (m : ℚ) (x / 2 ^ q) j
    rw [abs_sub_comm (x / 2 ^ q)] at htri
    exact ⟨by linarith, fun heq => .inr (h.even (by linarith))⟩

theorem Quantized.nearest_multiple (j : Nat) :
    |(m : ℚ) * 2 ^ q - x| ≤ |(j : ℚ) * 2 ^ q - x|
      ∧ (|(m : ℚ) * 2 ^ q - x| = |(j : ℚ) * 2 ^ q - x| → j = m ∨ m % 2 = 0) := by
  have hpow : (0 : ℚ) < 2 ^ q := by positivity
  have hscale (k : ℚ) : |k * 2 ^ q - x| = |k - x / 2 ^ q| * 2 ^ q := by
    rw [← abs_of_pos hpow, ← abs_mul, abs_of_pos hpow, sub_mul, div_mul_cancel₀ _ hpow.ne']
  obtain ⟨hle, htie⟩ := h.nearest_quanta j
  rw [hscale, hscale]
  exact ⟨mul_le_mul_of_nonneg_right hle hpow.le, fun heq => htie (mul_right_cancel₀ hpow.ne' heq)⟩

/-- No magnitude is nearer, and as near only if it is the rounded one or the significand is even: one
that is no whole number of quanta is less than 2^23 of them, and further from `x` than 2^23 quanta. -/
theorem Quantized.nearest (y : Num32) :
    |(m : ℚ) * 2 ^ q - x| ≤ |(mag y : ℚ) - x|
      ∧ (|(m : ℚ) * 2 ^ q - x| = |(mag y : ℚ) - x| → mag y = m * 2 ^ q ∨ m % 2 = 0) := by
  have hmultiple (j : Nat) (hj : mag y = j * 2 ^ q) :
      |(m : ℚ) * 2 ^ q - x| ≤ |(mag y : ℚ) - x|
        ∧ (|(m : ℚ) * 2 ^ q - x| = |(mag y : ℚ) - x| → mag y = m * 2 ^ q ∨ m % 2 = 0) := by
    obtain ⟨hle, htie⟩ := h.nearest_multiple j
    rw [hj, Nat.cast_mul, Nat.cast_pow, Nat.cast_ofNat]
    exact ⟨hle, fun heq => (htie heq).imp (fun hjm => by rw [hjm]) id⟩
  obtain ⟨j, hj⟩ | hlow := mag_quanta y q
  · exact hmultiple j hj
  · by_cases hq : q = 0
    · exact hmultiple (mag y) (by rw [hq, pow_zero, mul_one])
    · have hx := h.le hq
      have hlow' : (mag y : ℚ) < 2 ^ 23 * 2 ^ q := by exact_mod_cast hlow
      have hstrict : |(m : ℚ) * 2 ^ q - x| < |(mag y : ℚ) - x| := by
        refine (h.nearest_multiple (2 ^ 23)).1.trans_lt ?_
        rw [Nat.cast_pow, Nat.cast_ofNat, abs_of_nonpos (by linarith), abs_of_neg (by linarith)]
        linarith
      exact ⟨hstrict.le, fun heq => absurd heq hstrict.ne⟩

/-- The bits reach those of the infinity exactly from the overflow bound on, which is half a quantum
below 2^277 units. At the bound itself the odd significand 2^24 - 1 gives way to the even 2^24. -/
theorem Quantized.overflow_iff : infBits ≤ q * 2 ^ 23 + m ↔ (2 ^ 24 - 1 / 2) * 2 ^ 253 ≤ x := by
  have hm := h.significand_le
  have herr := abs_le.mp h.error
  have hinf : infBits = 255 * 2 ^ 23 := rfl
  rw [hinf]
  constructor
  · intro hbits
    obtain rfl | hq : q = 253 ∨ 254 ≤ q := by omega
    · obtain rfl : m = 2 ^ 24 := by omega
      rw [← le_div_iff₀ (by positivity)]
      have := herr.2
      push_cast at this
      linarith
    · have hpow : (2 : ℚ) ^ 254 ≤ 2 ^ q := pow_le_pow_right₀ one_le_two hq
      have := h.le (by omega)
      linarith [pow_succ (2 : ℚ) 253]
  · intro hx
    by_contra hbits
    have hle := h.le_significand
    obtain rfl | hq : q = 253 ∨ q ≤ 252 := by omega
    · have hodd : (m : ℚ) + 1 ≤ 2 ^ 24 := by exact_mod_cast (by omega : m + 1 ≤ 2 ^ 24)
      rw [← le_div_iff₀ (by positivity)] at hx
      have hhalf : (m : ℚ) - x / 2 ^ 253 = -(1 / 2) := by linarith [herr.1]
      have heven := h.even (by rw [hhalf]; norm_num)
      have hm' : (m : ℚ) = 2 ^ 24 - 1 := by linarith
      have hm'' : m + 1 = 2 ^ 24 := by exact_mod_cast (by linarith : (m : ℚ) + 1 = 2 ^ 24)
      omega
    · have hpow : (2 : ℚ) ^ q ≤ 2 ^ 252 := pow_le_pow_right₀ one_le_two hq
      have := h.lt
      linarith [pow_succ (2 : ℚ) 252, pow_pos (two_pos : (0 : ℚ) < 2) 252]

end Nearest

/-! Packed results -/

/-- `r` is `q` rounded to nearest even, or the infinity of its sign where `q` overflows (R182). -/
def Rounds (q : ℚ) (r : Num32) : Prop :=
  (|q| < overflowBound → NearestEven q r)
    ∧ (overflowBound ≤ |q| → r.isInf = true ∧ r.sign = decide (q < 0))

/-- Distance of absolute values, in units of 2^-149. -/
theorem abs_mag_sub (y : Num32) (q : ℚ) :
    |(mag y : ℚ) - |q| * 2 ^ 149| = |(|toRat y| - |q|)| * 2 ^ 149 := by
  have hunit : (0 : ℚ) < 2 ^ 149 := by positivity
  conv_rhs => rw [abs_toRat, ← abs_of_pos hunit, ← abs_mul, abs_of_pos hunit, sub_mul,
    div_mul_cancel₀ _ hunit.ne']

theorem toRat_eq_or_neg {x y : Num32} (h : mag y = mag x) :
    toRat y = toRat x ∨ toRat y = -toRat x :=
  abs_eq_abs.mp (by rw [abs_toRat, abs_toRat, h])

/-- A finite value with the sign of `q` is the nearest even one if its magnitude is: a value of the
other sign is no nearer than its negation. -/
theorem nearestEven_of_mag {q : ℚ} {r : Num32} (hr : isFinite r = true)
    (hsign : q = signFactor (sign r) * |q|)
    (hmag : ∀ y : Num32, |(mag r : ℚ) - |q| * 2 ^ 149| ≤ |(mag y : ℚ) - |q| * 2 ^ 149|
      ∧ (|(mag r : ℚ) - |q| * 2 ^ 149| = |(mag y : ℚ) - |q| * 2 ^ 149| →
        mag y = mag r ∨ fracField r % 2 = 0)) :
    NearestEven q r := by
  have hunit : (0 : ℚ) < 2 ^ 149 := by positivity
  simp only [abs_mag_sub, mul_le_mul_iff_left₀ hunit, mul_left_inj' hunit.ne'] at hmag
  have hdist : |toRat r - q| = |(|toRat r| - |q|)| := by
    conv_lhs => rw [hsign, toRat_eq, ← mul_sub, abs_mul, abs_signFactor, one_mul]
    rw [abs_toRat]
  have hnearest (y : Num32) : |toRat r - q| ≤ |toRat y - q| :=
    hdist.trans_le ((hmag y).1.trans (abs_abs_sub_abs_le _ _))
  refine ⟨hr, fun y _ => ⟨hnearest y, fun heq => ?_⟩⟩
  have hsame : |(|toRat r| - |q|)| = |(|toRat y| - |q|)| :=
    le_antisymm (hmag y).1 (hdist ▸ heq ▸ abs_abs_sub_abs_le _ _)
  refine ((hmag y).2 hsame).imp (fun hm => ?_) id
  obtain hy | hy := toRat_eq_or_neg hm
  · exact hy
  · obtain hr | hr := abs_eq_abs.mp heq
    · exact (sub_left_inj.mp hr).symm
    · have hq : q = 0 := by linarith
      have hle := hnearest posZero
      rw [hq, sub_zero, sub_zero, (toRat_eq_zero posZero).mpr (by decide), abs_zero] at hle
      rw [hy, abs_nonpos_iff.mp hle, neg_zero]

/-- The overflow bound is where the bits of the infinity begin. -/
theorem overflowBound_le_iff (n : Nat) {d : Nat} (hd : 0 < d) :
    overflowBound ≤ (n : ℚ) / d ↔ infBits ≤ quantum n d * 2 ^ 23 + significand n d := by
  have hunit : (0 : ℚ) < 2 ^ 149 := by positivity
  rw [(quantized n hd).overflow_iff, overflowBound, ← mul_le_mul_iff_left₀ hunit,
    show ((2 : ℚ) ^ 128 - 2 ^ 103) * 2 ^ 149 = (2 ^ 24 - 1 / 2) * 2 ^ 253 by norm_num]

/-- A sign and the rounded magnitude of a ratio put together round the signed ratio. -/
theorem rounds_pack {q : ℚ} {s : Bool} {n d : Nat} (hd : 0 < d) (hq : q = signFactor s * (n / d)) :
    Rounds q (pack s (roundMag n d)) := by
  have hquant := quantized n hd
  have habs : |q| = n / d := by
    rw [hq, abs_mul, abs_signFactor, one_mul, abs_of_nonneg (by positivity)]
  have hinf : infBits = 255 * 2 ^ 23 := rfl
  unfold Rounds
  rw [habs, overflowBound_le_iff n hd, ← not_le, overflowBound_le_iff n hd, roundMag_eq]
  refine ⟨fun hfin => ?_, fun hover => ?_⟩
  · have hbits : quantum n d * 2 ^ 23 + significand n d < 2 ^ 31 := by omega
    rw [min_eq_right (by omega)]
    refine nearestEven_of_mag ?_ ?_ fun y => ?_
    · rw [isFinite, expField_pack s hbits, bne_iff_ne]
      omega
    · rw [sign_pack s hbits, habs, hq]
    · rw [habs, fracField_pack s hbits,
        mag_pack_quantum s hquant.significand_le hquant.le_significand hbits, Nat.cast_mul,
        Nat.cast_pow, Nat.cast_ofNat]
      obtain ⟨hle, htie⟩ := hquant.nearest y
      exact ⟨hle, fun heq => (htie heq).imp id fun heven => by omega⟩
  · rw [min_eq_left hover, sign_pack s (by decide)]
    have hratio := (overflowBound_le_iff n hd).mpr hover
    have hpos : (0 : ℚ) < n / d := lt_of_lt_of_le (by norm_num [overflowBound]) hratio
    refine ⟨by cases s <;> decide, ?_⟩
    cases s with
    | false => simp [hq, signFactor, hpos.le]
    | true => simpa [hq, signFactor] using hpos

end Sys2Proof.Rounding
end

section
/-! The conversions and the operations on finite operands round their exact results (R182, R184). -/

namespace Sys2Proof.Arithmetic

open Sys2Proof.Laws Sys2Proof.Num32 Sys2Proof.Rounding

/-! The conversions -/

theorem rounds_ofRat (q : ℚ) : Rounds q (ofRat q) := by
  refine rounds_pack q.den_pos ?_
  rw [decide_eq_decide.mpr (Rat.num_neg (a := q)).symm, ← mul_div_assoc, ← int_eq_signFactor_mul,
    Rat.num_div_den]

theorem rounds_ofNat (n : Nat) : Rounds n (ofNat n) :=
  rounds_pack one_pos (by simp [signFactor])

/-- Settles O52: the numerator over the denominator is the exact ratio. -/
theorem rationalRoundedToNearestEven : Obligations.RationalRoundedToNearestEven := rounds_ofRat

/-! The operations on finite operands -/

section Operations

variable {a b : Num32} (ha : isFinite a = true) (hb : isFinite b = true)

theorem isNaN_of_isFinite (h : isFinite a = true) : isNaN a = false := by
  have := class_cases a
  simp_all

theorem isInf_of_isFinite (h : isFinite a = true) : isInf a = false := by
  have := class_cases a
  simp_all

theorem pack_zero (s : Bool) : pack s 0 = if s then negZero else posZero := by cases s <;> decide

theorem rounds_zero {r : Num32} (h : isZero r = true) : Rounds 0 r := by
  have hpack := rounds_pack (q := 0) (s := sign r) (n := 0) one_pos (by simp)
  rwa [roundMag_zero, pack_zero, ← isZero_eq h] at hpack

include ha hb

theorem rounds_addCore (n : Num32) : Rounds (toRat a + toRat b) (addCore n a b) := by
  simp only [addCore, isNaN_of_isFinite ha, isNaN_of_isFinite hb, isInf_of_isFinite ha,
    isInf_of_isFinite hb, Bool.or_self, Bool.false_eq_true, if_false]
  have hsum : toRat a + toRat b = ((scaled a + scaled b : ℤ) : ℚ) / 2 ^ 149 := by
    rw [toRat, toRat, Int.cast_add, add_div]
  split
  case isTrue hzero =>
    rw [hsum, hzero, Int.cast_zero, zero_div]
    split <;> exact rounds_zero (by decide)
  case isFalse =>
    refine rounds_pack (by positivity) ?_
    rw [hsum, Nat.cast_pow, Nat.cast_ofNat, ← mul_div_assoc, ← int_eq_signFactor_mul]

theorem rounds_fmul : Rounds (toRat a * toRat b) (fmul a b) := by
  simp only [fmul, isNaN_of_isFinite ha, isNaN_of_isFinite hb, isInf_of_isFinite ha,
    isInf_of_isFinite hb, Bool.or_self, Bool.false_eq_true, if_false]
  refine rounds_pack (by positivity) ?_
  rw [toRat_eq, toRat_eq, signFactor_bne, mul_mul_mul_comm, div_mul_div_comm, ← pow_add,
    Nat.cast_mul, Nat.cast_pow, Nat.cast_ofNat]

theorem fdiv_finite (hz : isZero b = false) :
    fdiv a b = pack (sign a != sign b) (roundMag (mag a) (mag b)) := by
  simp only [fdiv, isNaN_of_isFinite ha, isNaN_of_isFinite hb, isInf_of_isFinite ha,
    isInf_of_isFinite hb, hz, Bool.or_self, Bool.false_eq_true, if_false]

theorem rounds_fdiv (hz : toRat b ≠ 0) : Rounds (toRat a / toRat b) (fdiv a b) := by
  have hzero : isZero b = false := by
    rw [Bool.eq_false_iff, ne_eq, ← toRat_eq_zero]
    exact hz
  have hmag : 0 < mag b := by
    rw [Nat.pos_iff_ne_zero, ne_eq, mag_eq_zero, hzero]
    decide
  rw [fdiv_finite ha hb hzero]
  refine rounds_pack hmag ?_
  have hsign : (signFactor (sign b))⁻¹ = signFactor (sign b) :=
    inv_eq_of_mul_eq_one_right (signFactor_mul_self _)
  rw [toRat_eq, toRat_eq, signFactor_bne, mul_div_mul_comm, div_eq_mul_inv (signFactor _), hsign,
    div_div_div_cancel_right₀ (by positivity)]

end Operations

/-- Settles O53: each operation rounds its exact result; a difference is a sum with the second
operand negated. -/
theorem arithmeticRoundedToNearestEven : Obligations.ArithmeticRoundedToNearestEven := by
  intro a b ha hb rounds
  refine ⟨rounds_addCore ha hb _, ?_, rounds_fmul ha hb, rounds_fdiv ha hb⟩
  have hb' : isFinite (fneg b) = true := (isFinite_fneg b).trans hb
  have hsub := rounds_addCore ha hb' (nan .sub a b)
  rwa [toRat_fneg, ← sub_eq_add_neg] at hsub

end Sys2Proof.Arithmetic
end

section
/-! Counts and elapsed times (R184, R193): `ofNat` is exact below 2^24, and the quotient of a count by
a sample rate of at least 1 neither overflows nor rounds to zero. -/

namespace Sys2Proof.ElapsedTime

open Sys2Proof.Machine Sys2Proof.Laws Sys2Proof.Safety Sys2Proof.Num32 Sys2Proof.Rounding
  Sys2Proof.Arithmetic

/-! Exact values -/

/-- A finite value is rounded to itself. -/
theorem exact_of_rounds {q : ℚ} {r y : Num32} (h : Rounds q r) (hq : |q| < overflowBound)
    (hy : isFinite y = true) (hyq : toRat y = q) : isFinite r = true ∧ toRat r = q := by
  obtain ⟨hfin, hnearest⟩ := h.1 hq
  have hle := (hnearest y hy).1
  rw [hyq, sub_self, abs_zero, abs_nonpos_iff, sub_eq_zero] at hle
  exact ⟨hfin, hle⟩

/-- The bits of a count below 2^24 as a value: its leading bit goes to bit 23, and the exponent makes up
for the shift. -/
def countBits (n : Nat) : Nat := (n.log2 + 126) * 2 ^ 23 + n * 2 ^ (23 - n.log2)

theorem exists_count {n : Nat} (hn : n < 2 ^ 24) :
    ∃ y : Num32, isFinite y = true ∧ toRat y = n := by
  by_cases h0 : n = 0
  · exact ⟨posZero, by decide, by rw [h0, (toRat_eq_zero posZero).mpr (by decide), Nat.cast_zero]⟩
  · have hlog : n.log2 < 24 := (Nat.log2_lt h0).mpr hn
    have hpow : 2 ^ n.log2 * 2 ^ (23 - n.log2) = 2 ^ 23 := by
      rw [← pow_add, Nat.add_sub_of_le (by omega)]
    have hlow : 2 ^ 23 ≤ n * 2 ^ (23 - n.log2) := by
      rw [← hpow]
      exact Nat.mul_le_mul_right _ (Nat.log2_self_le h0)
    have hhigh : n * 2 ^ (23 - n.log2) < 2 ^ 24 := by
      have := Nat.mul_lt_mul_of_pos_right (Nat.lt_log2_self (n := n))
        (Nat.two_pow_pos (23 - n.log2))
      rwa [pow_succ, mul_right_comm, hpow, ← pow_succ] at this
    have hbits : countBits n < 2 ^ 31 := by unfold countBits; omega
    refine ⟨pack false (countBits n), ?_, ?_⟩
    · rw [isFinite, expField_pack _ hbits, bne_iff_ne]
      unfold countBits
      omega
    · have hmag : mag (pack false (countBits n)) = n * 2 ^ 149 := by
        rw [countBits, mag_pack_quantum false hhigh.le (fun _ => hlow) hbits, mul_assoc, ← pow_add]
        congr 2
        omega
      rw [toRat_eq, hmag, sign_pack _ hbits, signFactor, if_neg (by decide), one_mul, Nat.cast_mul,
        Nat.cast_pow, Nat.cast_ofNat, mul_div_cancel_right₀ _ (by positivity)]

theorem lt_overflowBound {q : ℚ} (h : q < 2 ^ 127) : q < overflowBound :=
  h.trans (by norm_num [overflowBound])

/-- Settles O55: a count below 2^24 is a finite value, and rounding finds it. -/
theorem counterConversionExact : Obligations.CounterConversionExact := by
  intro n hn
  obtain ⟨y, hy, hyn⟩ := exists_count hn
  refine exact_of_rounds (rounds_ofNat n) (lt_overflowBound ?_) hy hyn
  rw [Nat.abs_cast]
  exact_mod_cast hn.trans (by norm_num)

/-! Bounds on rounded values -/

theorem exists_one : ∃ y : Num32, isFinite y = true ∧ toRat y = 1 := by
  simpa using exists_count (n := 1) (by decide)

section Bounds

variable {q : ℚ} {r : Num32} (hr : NearestEven q r)

include hr

theorem one_le_of_nearestEven (hq : 1 ≤ q) : 1 ≤ toRat r := by
  obtain ⟨y, hy, hyq⟩ := exists_one
  have hle := (hr.2 y hy).1
  rw [hyq, abs_sub_comm 1, abs_of_nonneg (sub_nonneg.mpr hq)] at hle
  linarith [(abs_le.mp hle).1]

theorem le_two_mul_of_nearestEven (hq : 0 ≤ q) : toRat r ≤ 2 * q := by
  have hle := (hr.2 posZero (by decide)).1
  rw [(toRat_eq_zero posZero).mpr (by decide), zero_sub, abs_neg, abs_of_nonneg hq] at hle
  linarith [(abs_le.mp hle).2]

end Bounds

/-- A finite conversion does not overflow, so it is the nearest value. -/
theorem nearestEven_ofRat {q : ℚ} (h : isFinite (ofRat q) = true) : NearestEven q (ofRat q) := by
  refine (rounds_ofRat q).1 (not_le.mp fun hover => ?_)
  have hinf := ((rounds_ofRat q).2 hover).1
  rw [isInf_of_isFinite h] at hinf
  cases hinf

/-- A ratio of at least 2^-149 does not round to zero. -/
theorem roundMag_pos_of_le {n d : Nat} (hd : 0 < d) (h : d ≤ n * 2 ^ 149) : 0 < roundMag n d := by
  refine lt_min (by decide) ?_
  by_cases hq : quantum n d = 0
  · have hquot : 0 < n * 2 ^ 149 / (d * 2 ^ quantum n d) := by
      rw [hq, pow_zero, mul_one]
      exact Nat.div_pos h hd
    exact Nat.add_pos_right _ (hquot.trans_le (roundEven_bounds _ _).1)
  · exact Nat.add_pos_left (by positivity) _

theorem le_mag_of_one_le {x : Num32} (h : 1 ≤ toRat x) : 2 ^ 149 ≤ mag x := by
  have habs := h.trans (le_abs_self _)
  rw [abs_toRat, le_div_iff₀ (by positivity), one_mul] at habs
  exact_mod_cast habs

theorem isZero_of_one_le {x : Num32} (h : 1 ≤ toRat x) : isZero x = false := by
  rw [Bool.eq_false_iff, ne_eq, ← toRat_eq_zero]
  linarith

/-! The quotient -/

section Quotient

variable {a b : Num32} (ha : isFinite a = true) (hb : isFinite b = true) (ha1 : 1 ≤ toRat a)
  (hb1 : 1 ≤ toRat b)

include ha hb ha1 hb1

/-- A value of at least 1 over a value of at least 1 is finite, unless the dividend is near the
overflow bound. -/
theorem isFinite_fdiv (hsmall : toRat a < overflowBound) : isFinite (fdiv a b) = true := by
  have hquot : toRat a / toRat b ≤ toRat a := div_le_self (by linarith) hb1
  have hnonneg : 0 ≤ toRat a / toRat b := div_nonneg (by linarith) (by linarith)
  refine ((rounds_fdiv ha hb (by linarith)).1 ?_).1
  rw [abs_of_nonneg hnonneg]
  exact hquot.trans_lt hsmall

/-- The greatest finite divisor is below 2^128, so the quotient is well above the least value. -/
theorem isZero_fdiv : isZero (fdiv a b) = false := by
  have hmaga := le_mag_of_one_le ha1
  have hmagb := le_mag_of_one_le hb1
  have hratio : mag b ≤ mag a * 2 ^ 149 :=
    calc mag b ≤ 2 ^ 24 * 2 ^ 253 := (mag_lt hb).le
      _ ≤ 2 ^ 149 * 2 ^ 149 := by norm_num
      _ ≤ mag a * 2 ^ 149 := Nat.mul_le_mul_right _ hmaga
  have hpos := roundMag_pos_of_le (by omega) hratio
  rw [fdiv_finite ha hb (isZero_of_one_le hb1), Bool.eq_false_iff, ne_eq,
    CountZero.isZero_pack _ (roundMag_lt _ _)]
  exact hpos.ne'

end Quotient

/-- Settles O56: count and rate are rounded to values of at least 1, the count to one far below the
overflow bound. -/
theorem elapsedTimeOrdinary : Obligations.ElapsedTimeOrdinary := by
  intro p sin exp n hp hn t
  obtain rfl | hpos := Nat.eq_zero_or_pos n
  · have ht : t = posZero := CountZero.elapsed_zero hp
    rw [ht]
    decide
  · have hcount : (n : ℚ) < 2 ^ 32 := by exact_mod_cast hn
    have hcount1 : (1 : ℚ) ≤ n := by exact_mod_cast hpos
    have hrate := valid_sampleRate hp
    have hrateFinite := valid_sampleRate_finite hp
    have hround : NearestEven n (ofNat n) := by
      refine (rounds_ofNat n).1 (lt_overflowBound ?_)
      rw [Nat.abs_cast]
      linarith
    have hle := le_two_mul_of_nearestEven hround (by linarith)
    have ha1 := one_le_of_nearestEven hround hcount1
    have hb1 := one_le_of_nearestEven (nearestEven_ofRat hrateFinite) hrate
    have ht : t = fdiv (ofNat n) (ofRat p.sampleRate) := CountZero.binary32_elapsed sin exp p n
    have hzero : isZero t = false := ht ▸ isZero_fdiv hround.1 hrateFinite ha1 hb1
    refine ⟨?_, ?_, fun h => ?_, fun h => absurd h hpos.ne'⟩
    · rw [ht]
      exact isFinite_fdiv hround.1 hrateFinite ha1 hb1 (lt_overflowBound (by linarith))
    · rw [ht, fdiv_finite hround.1 hrateFinite (isZero_of_one_le hb1),
        sign_pack _ (roundMag_lt _ _), ofNat, sign_pack _ (roundMag_lt _ _), CountZero.sign_ofRat_of_nonneg (by linarith)]
      rfl
    · rw [h] at hzero
      exact absurd hzero (by decide)

end Sys2Proof.ElapsedTime
end

section
/-! Special values: comparisons against each other, NaNs and infinities (R183), signed zeros and the
sign flip (R182, R195), and the operations whose result is a quiet NaN (R182, log 9). -/

namespace Sys2Proof.SpecialValues

open Sys2Proof.Laws Sys2Proof.Safety Sys2Proof.Num32 Sys2Proof.Rounding Sys2Proof.Arithmetic

/-! Comparisons -/

theorem fle_nan {a b : Num32} (h : isNaN a = true ∨ isNaN b = true) : fle a b = false := by
  obtain h | h := h <;> simp [fle, h]

theorem flt_nan {a b : Num32} (h : isNaN a = true ∨ isNaN b = true) : flt a b = false := by
  obtain h | h := h <;> simp [flt, h]

theorem fle_iff {a b : Num32} (ha : isNaN a = false) (hb : isNaN b = false) :
    fle a b = true ↔ scaled a ≤ scaled b := by
  simp [fle, ha, hb]

theorem flt_iff {a b : Num32} (ha : isNaN a = false) (hb : isNaN b = false) :
    flt a b = true ↔ scaled a < scaled b := by
  simp [flt, ha, hb]

theorem toRat_le_toRat (a b : Num32) : toRat a ≤ toRat b ↔ scaled a ≤ scaled b := by
  rw [toRat, toRat, div_le_div_iff_of_pos_right (by positivity), Int.cast_le]

theorem toRat_lt_toRat (a b : Num32) : toRat a < toRat b ↔ scaled a < scaled b := by
  rw [toRat, toRat, div_lt_div_iff_of_pos_right (by positivity), Int.cast_lt]

/-- A finite value is less than 2^277 units away from zero, the infinities exactly that far. -/
theorem scaled_between_infinities {a : Num32} (ha : isFinite a = true) :
    scaled 0xFF800000#32 < scaled a ∧ scaled a < scaled 0x7F800000#32 := by
  have hpos : scaled 0x7F800000#32 = 2 ^ 24 * 2 ^ 253 := by decide
  have hneg : scaled 0xFF800000#32 = -(2 ^ 24 * 2 ^ 253) := by decide
  have hmag : (mag a : ℤ) < 2 ^ 24 * 2 ^ 253 := by exact_mod_cast mag_lt ha
  rw [hpos, hneg, scaled]
  split
  · exact ⟨by linarith, by linarith [Int.natCast_nonneg (mag a)]⟩
  · exact ⟨by linarith [Int.natCast_nonneg (mag a)], hmag⟩

/-- Settles O57: off the NaNs a comparison is one of numbers of units. -/
theorem comparisonsFollowValues : Obligations.ComparisonsFollowValues := by
  intro a b
  refine ⟨fun h => ⟨fle_nan h, flt_nan h⟩, fun ha hb => ?_, fun ha => ?_⟩
  · rw [toRat_le_toRat, toRat_lt_toRat]
    exact ⟨fle_iff (isNaN_of_isFinite ha) (isNaN_of_isFinite hb),
      flt_iff (isNaN_of_isFinite ha) (isNaN_of_isFinite hb)⟩
  · obtain ⟨habove, hbelow⟩ := scaled_between_infinities ha
    exact ⟨(flt_iff (isNaN_of_isFinite ha) (by decide)).mpr hbelow,
      (flt_iff (by decide) (isNaN_of_isFinite ha)).mpr habove⟩

/-! Signed zeros -/

theorem posZero_fmul {x : Num32} (hx : isFinite x = true) :
    fmul posZero x = if sign x then negZero else posZero := by
  rw [fmul_zero (by decide) hx (.inl (by decide)), show sign posZero = false by decide,
    Bool.false_bne, pack_zero]

theorem fadd_zero_zero {a b : Num32} (ha : isZero a = true) (hb : isZero b = true) :
    fadd a b = if sign a && sign b then negZero else posZero := by
  have hfa := isZero_isFinite ha
  have hfb := isZero_isFinite hb
  have hsum : scaled a + scaled b = 0 := by
    rw [(scaled_eq_zero a).mpr ha, (scaled_eq_zero b).mpr hb, add_zero]
  simp [fadd, addCore, isNaN_of_isFinite hfa, isNaN_of_isFinite hfb, isInf_of_isFinite hfa,
    isInf_of_isFinite hfb, hsum]

theorem fneg_fneg (x : Num32) : fneg (fneg x) = x := by
  rw [fneg, fneg, BitVec.xor_assoc, BitVec.xor_self, BitVec.xor_zero]

/-- Settles O58: a product or sum of zeros has its sign from the signs of the operands. -/
theorem signedZeroAndNegation : Obligations.SignedZeroAndNegation := by
  have hp : isZero posZero = true := by decide
  have hn : isZero negZero = true := by decide
  exact ⟨fun x hx => posZero_fmul hx, fadd_zero_zero hp hp, fadd_zero_zero hp hn,
    fadd_zero_zero hn hp, fadd_zero_zero hn hn,
    fun x => ⟨fneg_fneg x, fneg_sign x, fneg_mag x⟩⟩

/-! Quiet NaNs -/

theorem quietNaN_nan (op : NumOp) (a b : Num32) : QuietNaN (nan op a b) := quiet_bits _

theorem isNaN_fneg (x : Num32) : isNaN (fneg x) = isNaN x := by simp [isNaN]

theorem isInf_fneg (x : Num32) : isInf (fneg x) = isInf x := by simp [isInf]

theorem isNaN_of_isInf {x : Num32} (h : isInf x = true) : isNaN x = false := by
  have := class_cases x
  simp_all

section Invalid

variable {a b : Num32}

/-- The sum of opposite infinities is the NaN the addition was given. -/
theorem addCore_opposite_inf (n : Num32) (ha : isInf a = true) (hb : isInf b = true)
    (hs : sign a ≠ sign b) : addCore n a b = n := by
  simp [addCore, isNaN_of_isInf ha, isNaN_of_isInf hb, ha, hb, hs]

theorem fmul_nan_eq (h : isNaN a = true ∨ isNaN b = true) : fmul a b = nan .mul a b := by
  have : (isNaN a || isNaN b) = true := by simpa using h
  rw [fmul, if_pos this]

theorem fdiv_nan_eq (h : isNaN a = true ∨ isNaN b = true) : fdiv a b = nan .div a b := by
  have : (isNaN a || isNaN b) = true := by simpa using h
  rw [fdiv, if_pos this]

theorem fmul_zero_inf (ha : isZero a = true) (hb : isInf b = true) : fmul a b = nan .mul a b := by
  simp [fmul, isNaN_of_isFinite (isZero_isFinite ha), isNaN_of_isInf hb, ha, hb]

theorem fmul_inf_zero (ha : isInf a = true) (hb : isZero b = true) : fmul a b = nan .mul a b := by
  simp [fmul, isNaN_of_isFinite (isZero_isFinite hb), isNaN_of_isInf ha, ha, hb]

theorem fdiv_zero_zero (ha : isZero a = true) (hb : isZero b = true) :
    fdiv a b = nan .div a b := by
  have hfa := isZero_isFinite ha
  have hfb := isZero_isFinite hb
  simp [fdiv, isNaN_of_isFinite hfa, isNaN_of_isFinite hfb, isInf_of_isFinite hfa,
    isInf_of_isFinite hfb, ha, hb]

theorem fdiv_inf_inf (ha : isInf a = true) (hb : isInf b = true) : fdiv a b = nan .div a b := by
  simp [fdiv, isNaN_of_isInf ha, isNaN_of_isInf hb, ha, hb]

end Invalid

/-- Settles O54: in each case the operation gives its NaN, whose quiet bit is set whatever the open
bits. -/
theorem invalidOperationsGiveQuietNaN : Obligations.InvalidOperationsGiveQuietNaN := by
  intro a b
  refine ⟨fun h => ?operand, fun ha hb hs => ?sum, fun ha hb hs => ?difference,
    fun ha hb => ⟨fmul_zero_inf ha hb ▸ quietNaN_nan _ _ _,
      fmul_inf_zero hb ha ▸ quietNaN_nan _ _ _⟩,
    fun ha hb => fdiv_zero_zero ha hb ▸ quietNaN_nan _ _ _,
    fun ha hb => fdiv_inf_inf ha hb ▸ quietNaN_nan _ _ _⟩
  case operand =>
    have h' : isNaN a = true ∨ isNaN (fneg b) = true := by rwa [isNaN_fneg]
    rw [fadd, addCore_nan h, fsub, addCore_nan h', fmul_nan_eq h, fdiv_nan_eq h]
    exact ⟨quietNaN_nan _ _ _, quietNaN_nan _ _ _, quietNaN_nan _ _ _, quietNaN_nan _ _ _⟩
  case sum =>
    rw [fadd, addCore_opposite_inf _ ha hb hs]
    exact quietNaN_nan _ _ _
  case difference =>
    have hs' : sign a ≠ sign (fneg b) := by simp [hs]
    rw [fsub, addCore_opposite_inf _ ha ((isInf_fneg b).trans hb) hs']
    exact quietNaN_nan _ _ _

end Sys2Proof.SpecialValues
end

section
/-! A frequency shift that is not finite (R189, R288): products and sums keep an operand from being
finite again, so the carrier's phase is not finite and its sine is a NaN. -/

namespace Sys2Proof.NonFiniteShift

open Sys2Proof.Machine Sys2Proof.Laws Sys2Proof.Num32

theorem isFinite_eq_false_iff (x : Num32) :
    isFinite x = false ↔ isNaN x = true ∨ isInf x = true := by
  obtain ⟨hfin, hinf, hnan⟩ | ⟨hfin, hinf, hnan⟩ | ⟨hfin, hinf, hnan⟩ := class_cases x <;>
    simp [hfin, hinf, hnan]

theorem isFinite_of_isInf {x : Num32} (h : isInf x = true) : isFinite x = false :=
  (isFinite_eq_false_iff x).mpr (.inr h)

theorem isFinite_nan (op : NumOp) (a b : Num32) : isFinite (nan op a b) = false :=
  (isFinite_eq_false_iff _).mpr (.inl (isNaN_nan op a b))

section Operands

variable {a b : Num32} (h : isFinite a = false ∨ isFinite b = false)

include h

/-- A product with an operand that is not finite is a NaN or an infinity. -/
theorem isFinite_fmul : isFinite (fmul a b) = false := by
  rw [isFinite_eq_false_iff, isFinite_eq_false_iff] at h
  unfold fmul
  split
  case isTrue => exact isFinite_nan _ _ _
  case isFalse hnan =>
    have hinf : (isInf a || isInf b) = true := by simp_all
    rw [if_pos hinf]
    split
    · exact isFinite_nan _ _ _
    · cases sign a != sign b <;> decide

/-- A sum with an operand that is not finite is a NaN or that infinity. -/
theorem isFinite_fadd : isFinite (fadd a b) = false := by
  rw [isFinite_eq_false_iff, isFinite_eq_false_iff] at h
  unfold fadd addCore
  split
  case isTrue => exact isFinite_nan _ _ _
  case isFalse hnan =>
    split
    case isTrue ha =>
      split
      · exact isFinite_nan _ _ _
      · exact isFinite_of_isInf ha
    case isFalse ha =>
      have hb : isInf b = true := by simp_all
      rw [if_pos hb]
      exact isFinite_of_isInf hb

end Operands

/-- Whatever the other factors, zeros and infinities among them, the phase is not finite (R154). -/
theorem isFinite_oscPhase (sin exp : Num32 → Num32) (freq : ℚ) {k : Num32} (t : Num32)
    (hk : isFinite k = false) : isFinite (oscPhase (binary32 sin exp) freq k t) = false := by
  have hfmul : (binary32 sin exp).fmul = fmul := rfl
  rw [oscPhase, hfmul]
  exact isFinite_fmul (.inl (isFinite_fmul (.inr (isFinite_fmul (.inr hk)))))

theorem freqScale_of_ne_hiHat {α : Type} (N : Numerics α) {L : Layer} (hL : L ≠ .hiHat)
    (fshift : α) : freqScale N L fshift = fshift := by
  cases L with
  | hiHat => exact absurd rfl hL
  | kick | snare | midTom | highTom | subKick | subTom => rfl

theorem layerOut_out {α : Type} (N : Numerics α) (p : Params) (L : Layer)
    (var : Vector (BitVec 2) 3) (fshift : α) (n : Nat) :
    (layerOut N p L var fshift n).out
      = N.fmul (ampEnv N (p.layer L) (elapsed N p n))
        (N.SIN (N.fadd (oscPhase N (p.layer L).fc (freqScale N L fshift) (elapsed N p n))
          (N.fmul (idxEff N p L var (elapsed N p n))
            (N.SIN (oscPhase N (p.layer L).fm (freqScale N L fshift) (elapsed N p n)))))) := rfl

/-- Settles O30: the argument of the carrier's sine has the phase as an operand, and the sine's NaN
passes through the amplitude. -/
theorem nonFiniteShiftGivesNaN : Obligations.NonFiniteShiftGivesNaN := by
  intro p sin exp L var fshift n hL hshift
  have hfmul : (binary32 sin.fn exp.fn).fmul = fmul := rfl
  have hfadd : (binary32 sin.fn exp.fn).fadd = fadd := rfl
  have hsin : (binary32 sin.fn exp.fn).SIN = sin.fn := rfl
  rw [layerOut_out, freqScale_of_ne_hiHat _ hL, hfmul, hfadd, hsin]
  exact fmul_nan (.inr (sin.nan _ (isFinite_fadd (.inl (isFinite_oscPhase _ _ _ _ hshift)))))

end Sys2Proof.NonFiniteShift
end

section
/-! The block processor's events (R202 to R210): BLOCK_START as the latch followed by POLL, the scan of a
SAMPLE turn by turn, and the one element a SAMPLE writes. -/

namespace Sys2Proof.Mixing

open Sys2Proof.Machine Sys2Proof.Laws Sys2Proof.Safety
open Sys2Proof.Effects (sample_next)
open Sys2Proof.Block (mixAll_fshift)
open Sys2Proof.Placing (mixFold_silent sample_inside exec_stepInstr)
open Sys2Proof.Synthesis (mixSlot_as_stepAlone addWeighted addWeighted_eq cfg_ofNat_zero)
open Sys2Proof.SpecialValues (fadd_zero_zero)

variable {c : Cfg} {s : State}

/-! BLOCK_START -/

theorem blockStart_busy (f : Num32) (h : s.busy = true) :
    blockStart c f s = .refused .blockStartWhileBusy := by
  rw [blockStart, if_pos h]

theorem blockStart_idle (f : Num32) (h : s.busy = false) :
    blockStart c f s = .next { poll c (latchShift f s) with busy := true, i := 0 } := by
  rw [blockStart, if_neg (by simp [h])]

/-- Settles O31: the state between the latch and POLL is `latchShift f s`. -/
theorem blockStartLatchesAndPolls : Obligations.BlockStartLatchesAndPolls := fun f s =>
  ⟨fun hbusy => blockStart_busy f hbusy, fun hidle =>
    ⟨latchShift f s, poll Config.cfg (latchShift f s), latchShift_layer f s, rfl, rfl,
      blockStart_idle f hidle⟩⟩

/-! The scan turn by turn -/

/-- What the turns of the first `n` slots make of the zeroed accumulators (R204). -/
def scanned (c : Cfg) (s : State) (n : Nat) : State :=
  (slotIndices.take n).foldl (mixSlot c) (zeroAcc c s)

theorem scanned_zero (c : Cfg) (s : State) : scanned c s 0 = zeroAcc c s := rfl

/-- The fifth turn ends the scan. -/
theorem scanned_five (c : Cfg) (s : State) : scanned c s 5 = mixAll c s := rfl

/-- Slot `k` has its turn after the slots below it. -/
theorem scanned_succ (c : Cfg) (s : State) (k : SlotIx) :
    scanned c s (k.val + 1) = mixSlot c (scanned c s k.val) k := by
  have htake : slotIndices.take (k.val + 1) = slotIndices.take k.val ++ [k] := by
    revert k
    decide
  rw [scanned, htake, List.foldl_concat, scanned]

/-- No turn changes the pool (R204). -/
theorem scanned_slot (c : Cfg) (s : State) (n : Nat) (k : SlotIx) :
    (scanned c s n).slot k = s.slot k := by
  rw [scanned, mixFold_frame]
  rfl

/-- A silent slot's turn leaves all as it is (R209). -/
theorem scanned_succ_silent {k : SlotIx} (h : Silent c.params (s.slot k)) :
    scanned c s (k.val + 1) = scanned c s k.val := by
  rw [scanned_succ]
  exact mixSlot_silent c _ k (by rwa [scanned_slot])

/-- The turn of a slot that holds a drum's note takes layers and draws from the drum's STEP in the state
before it, and its value weighted into the drum's accumulator (R204, R205). -/
theorem mixSlot_sounding {d : Drum} {k : SlotIx} (hp : c.params.valid = true)
    (hslot : s.slot k = ⟨c.params.note d, true⟩) :
    mixSlot c s k = { s with
        layers := (stepAlone c d k s).layers, noiseIx := (stepAlone c d k s).noiseIx
        acc := (mixSlot c s k).acc }
      ∧ ∀ e, (mixSlot c s k).accOf e =
        if e = d then addWeighted c d (s.accOf d) (drumStep c d k s).2 else s.accOf e := by
  obtain ⟨⟨hlayers, -, -, hnoise⟩, hacc⟩ := mixSlot_as_stepAlone hp ⟨rfl, rfl, rfl, rfl⟩ hslot
  rw [← hlayers, ← hnoise]
  exact ⟨mixSlot_frame c s k, hacc⟩

/-- Settles O34: the states of the scan are `scanned`, whose every turn is silent or a drum's. -/
theorem sampleScansSlots : Obligations.SampleScansSlots := by
  intro s hbusy hi
  have hp : Config.cfg.params.valid = true := Config.params.valid
  obtain ⟨t, hsample, hlayers, hnoise, hacc⟩ := sample_inside (c := Config.cfg) hbusy hi
  refine ⟨scanned Config.cfg s, t, hsample, rfl, fun d => ?zeroed,
    fun k hsilent => scanned_succ_silent hsilent, fun k d hslot => ?turn, hlayers, hacc, hnoise⟩
  case zeroed =>
    rw [scanned_zero, zeroAcc_accOf, cfg_ofNat_zero]
  case turn =>
    obtain ⟨hframe, hadd⟩ :=
      mixSlot_sounding hp ((scanned_slot Config.cfg s k.val k).trans hslot)
    simp only [addWeighted_eq] at hadd
    rw [scanned_succ]
    exact ⟨stepAlone Config.cfg d k _, (drumStep Config.cfg d k _).2, exec_stepInstr k d _, rfl,
      hframe, hadd⟩

/-! The element written -/

theorem memory_wf_iff (s : State) :
    Memory.wf s = true ↔ Buffer.wf s.outL = true ∧ Buffer.wf s.outR = true := by
  rw [Memory.wf, Bool.and_eq_true]

theorem sample_idle (h : s.busy = false) : sample c s = .refused .sampleWhileIdle := by
  simp [sample, h]

theorem mixSum_congr {t : State} (h : t.acc = s.acc) : mixSum c t = mixSum c s := by
  simp only [mixSum, State.accOf, h]

/-- A SAMPLE inside the block: both channels as before but for element `i`, which reads as the mix of the
accumulators it ends with (R206, R207), and the index one further (R210). -/
theorem sample_writes (hbusy : s.busy = true) (hi : s.i < c.params.blockSize)
    (hwf : Memory.wf s = true) :
    ∃ t, sample c s = .next t
      ∧ (Buffer.read t.outL s.i = mixSum c t ∧ Buffer.read t.outR s.i = mixSum c t)
      ∧ (∀ j, j ≠ s.i → Buffer.read t.outL j = Buffer.read s.outL j
        ∧ Buffer.read t.outR j = Buffer.read s.outR j)
      ∧ t.i = s.i + 1 ∧ t.busy = decide (s.i + 1 ≠ c.params.blockSize)
      ∧ t.layers = (mixAll c s).layers ∧ t.noiseIx = (mixAll c s).noiseIx
      ∧ t.acc = (mixAll c s).acc
      ∧ t = { s with
          layers := t.layers, acc := t.acc, noiseIx := t.noiseIx, outL := t.outL, outR := t.outR
          i := t.i, busy := t.busy } := by
  obtain ⟨hwfL, hwfR⟩ := (memory_wf_iff s).mp hwf
  obtain ⟨t, hsample, hlayers, hnoise, hacc⟩ := sample_inside hbusy hi
  obtain ⟨-, ht⟩ := sample_next hsample
  have houtL : t.outL = Buffer.write s.outL s.i (mixSum c t) := by
    rw [mixSum_congr hacc, ht]
  have houtR : t.outR = Buffer.write s.outR s.i (mixSum c t) := by
    rw [mixSum_congr hacc, ht]
  refine ⟨t, hsample, ?element, fun j hj => ?others, by rw [ht], by rw [ht], hlayers, hnoise, hacc,
    by rw [ht]⟩
  case element =>
    rw [houtL, houtR]
    exact ⟨Buffer_read_write_same s.i _ hwfL, Buffer_read_write_same s.i _ hwfR⟩
  case others =>
    rw [houtL, houtR]
    exact ⟨Buffer_read_write_ne s.outL _ hj, Buffer_read_write_ne s.outR _ hj⟩

/-- Settles O32: `sample_writes`, and no turn of the scan writes a shift. -/
theorem sampleWritesOneElement : Obligations.SampleWritesOneElement := by
  refine ⟨fun s hidle => sample_idle hidle, fun s hbusy hi hwf => ?_⟩
  obtain ⟨t, hsample, helement, hothers, hindex, hend, hlayers, -, -, hframe⟩ :=
    sample_writes (c := Config.cfg) hbusy hi hwf
  refine ⟨t, hsample, helement, hothers, hindex, hend, fun L => ?shift, hframe⟩
  rw [State.layer, hlayers]
  exact mixAll_fshift Config.cfg s L

/-! A SAMPLE with no sounding slot -/

/-- With every slot silent the scan only zeroes the accumulators (R209). -/
theorem mixAll_silent (h : ∀ k, Silent c.params (s.slot k)) : mixAll c s = zeroAcc c s :=
  mixFold_silent fun k _ => h k

/-- The mix of five `+0` is `+0` (R195, R206). -/
theorem mixSum_eq_posZero (h : ∀ d, s.accOf d = Num32.posZero) :
    mixSum Config.cfg s = Num32.posZero := by
  have hzero : Num32.isZero Num32.posZero = true := by decide
  have hadd : Config.cfg.num.fadd Num32.posZero Num32.posZero = Num32.posZero :=
    fadd_zero_zero hzero hzero
  simp only [mixSum, h, hadd]

/-- Settles O33: the scan is `zeroAcc`, so the element written is the mix of five `+0`. -/
theorem silentSampleWritesZero : Obligations.SilentSampleWritesZero := by
  intro s hbusy hi hwf hsilent
  obtain ⟨t, hsample, ⟨hmixL, hmixR⟩, -, -, -, hlayers, hnoise, hacc, -⟩ :=
    sample_writes (c := Config.cfg) hbusy hi hwf
  rw [mixAll_silent hsilent] at hlayers hnoise hacc
  have hzeroed (d : Drum) : t.accOf d = Num32.posZero := by
    rw [State.accOf, hacc]
    exact (zeroAcc_accOf Config.cfg s d).trans cfg_ofNat_zero
  have hmix := mixSum_eq_posZero hzeroed
  exact ⟨t, hsample, hzeroed, hmixL.trans hmix, hmixR.trans hmix, hlayers, hnoise⟩

end Sys2Proof.Mixing
end

section
/-! The control surface (R220 to R227): what PRESS and POLL leave in each register file, and the first block
after a panic. -/

namespace Sys2Proof.ControlSurface

open Sys2Proof.Machine Sys2Proof.Laws Sys2Proof.Safety

/-! PRESS (R221, R222) -/

theorem setBtn_frame (k : Button) (v : Bool) (s : State) :
    s.setBtn k v = { s with btn := (s.setBtn k v).btn } := rfl

/-- A flag cannot count (R222). -/
theorem setBtn_setBtn_same (k : Button) (v w : Bool) (s : State) :
    (s.setBtn k v).setBtn k w = s.setBtn k w := by
  simp only [State.setBtn, Vector.set_set]

/-- Settles O37: PRESS is `setBtn k true`, which absorbs a second one. -/
theorem pressSetsFlag : Obligations.PressSetsFlag := by
  refine fun k s => ⟨s.setBtn k true, rfl, fun q => ?flag, setBtn_frame k true s, ?again, ?panic⟩
  case flag => simp only [setBtn_btn, eq_comm]
  case again => exact congrArg Host.Outcome.next (setBtn_setBtn_same k true true s)
  case panic =>
    rintro rfl
    rfl

/-! POLL, one register file at a time (R223) -/

section Poll

variable (c : Cfg) (s : State)

theorem poll_var (v : VarIx) : (poll c s).var.get v =
    if s.btn.get (v.castLE (by decide)) then s.var.get v + 1 else s.var.get v := by
  rw [poll_spec]
  exact Vector.get_ofFn _ v

/-- The two-bit counter wraps (R31). -/
theorem poll_var_toNat (v : VarIx) : ((poll c s).var.get v).toNat =
    if s.btn.get (v.castLE (by decide)) then ((s.var.get v).toNat + 1) % 4
    else (s.var.get v).toNat := by
  rw [poll_var]
  split
  · exact BitVec.toNat_add _ _
  · rfl

theorem poll_slots :
    (poll c s).slots = if s.btn.get 3 then (silenceAll s).slots else s.slots := by
  rw [poll_spec]

theorem poll_acc : (poll c s).acc = if s.btn.get 3 then (zeroAcc c s).acc else s.acc := by
  rw [poll_spec]
  rfl

/-- A slot stays active unless panic was pressed; its note stays in any case. -/
theorem poll_slot (k : SlotIx) :
    (poll c s).slot k = ⟨(s.slot k).note, (s.slot k).active && !s.btn.get 3⟩ := by
  rw [State.slot, poll_slots]
  cases s.btn.get 3 with
  | false => simp [State.slot]
  | true => simpa [State.slot] using silenceAll_slot s k

theorem poll_accOf (d : Drum) :
    (poll c s).accOf d = if s.btn.get 3 then c.num.ofNat 0 else s.accOf d := by
  rw [State.accOf, poll_acc]
  split
  · exact zeroAcc_accOf c s d
  · rfl

end Poll

/-- Settles O38: each register file by its own lemma, and `poll_frame` for all else. -/
theorem pollConsumesFlags : Obligations.PollConsumesFlags := fun s =>
  ⟨poll Config.cfg s, rfl, poll_var_toNat Config.cfg s, Block.poll_btn Config.cfg s,
    poll_slot Config.cfg s,
    fun d => Synthesis.cfg_ofNat_zero ▸ poll_accOf Config.cfg s d,
    poll_frame Config.cfg s⟩

/-! The block after a panic (R224) -/

/-- What BLOCK_START makes of the state `s` in which panic was pressed (R202). -/
def panicStarted (f : Num32) (s : State) : State :=
  { poll Config.cfg (latchShift f (s.setBtn 3 true)) with busy := true, i := 0 }

section Panic

variable (f : Num32) (s : State)

theorem panicStarted_eq (h : s.busy = false) :
    exec (.blockStart f) (s.setBtn 3 true) = .next (panicStarted f s) :=
  Mixing.blockStart_idle f h

/-- The pressed flag is the one POLL reads, so no slot stays active. -/
theorem panicStarted_inactive (k : SlotIx) : ((panicStarted f s).slot k).active = false := by
  have hpanic : (latchShift f (s.setBtn 3 true)).btn.get 3 = true := by simp
  calc ((panicStarted f s).slot k).active
      = ((poll Config.cfg (latchShift f (s.setBtn 3 true))).slot k).active := rfl
    _ = false := by rw [poll_slot, hpanic, Bool.not_true, Bool.and_false]

/-- POLL and the latch leave the buffers alone (R226). -/
theorem panicStarted_outputs :
    (panicStarted f s).outL = s.outL ∧ (panicStarted f s).outR = s.outR := by
  rw [panicStarted, poll_frame]
  exact ⟨rfl, rfl⟩

theorem panicStarted_memory_wf : Memory.wf (panicStarted f s) = Memory.wf s := by
  obtain ⟨hL, hR⟩ := panicStarted_outputs f s
  rw [Memory.wf, Memory.wf, hL, hR]

theorem panicStarted_layers : (panicStarted f s).layers = (latchShift f s).layers := by
  rw [panicStarted, poll_frame]
  rfl

end Panic

/-- Settles O39: BLOCK_START leaves `panicStarted`, whose slots are all silent, and a SAMPLE of silent
slots is O33's. -/
theorem panicSilencesNextBlock : Obligations.PanicSilencesNextBlock := by
  intro f s hidle hwf
  have hinactive := panicStarted_inactive f s
  have hsilent (k : SlotIx) : Silent Config.cfg.params ((panicStarted f s).slot k) :=
    fun hactive => absurd hactive (by simp [hinactive k])
  obtain ⟨t, hsample, hzeroed, hL, hR, hlayers, -⟩ :=
    Mixing.silentSampleWritesZero (panicStarted f s) rfl (valid_blockSize Config.params.valid)
      ((panicStarted_memory_wf f s).trans hwf) hsilent
  refine ⟨s.setBtn 3 true, panicStarted f s, t, rfl, panicStarted_eq f s hidle, hinactive, hsample,
    hzeroed, hL, hR, fun L => ?_⟩
  calc (t.layer L).cnt = ((latchShift f s).layer L).cnt := by
        rw [State.layer, hlayers, panicStarted_layers, State.layer]
    _ = (s.layer L).cnt := by rw [latchShift_layer]

end Sys2Proof.ControlSurface
end

section
/-! Conditions (R240 to R248): the hook, the instructions that signal nothing, and the bound of one
condition for an event. -/

namespace Sys2Proof.Conditions

open Sys2Proof.Machine

/-! The hook (R244, R252) -/

theorem exec_overrun (s : State) : exec .overrun s = .next { s with overrun := true } := rfl

theorem signals_overrun (s : State) : signals .overrun s = [.blockOverrun] := rfl

/-- Settles O40: the hook writes the one field that `faulted` reads. -/
theorem overrunSetsFlag : Obligations.OverrunSetsFlag := fun s =>
  ⟨{ s with overrun := true }, exec_overrun s, rfl, rfl, signals_overrun s⟩

/-! What each kind of instruction signals (R245) -/

/-- ALLOCATE has the one condition of R241. -/
theorem signals_allocate_cases (n : Byte) (s : State) :
    signals (.allocate n) s = [] ∨ signals (.allocate n) s = [.poolExhausted n] := by
  rw [VoicePool.signals_allocate]
  exact ite_eq_or_eq _ _ _

/-- RELEASE has the one condition of R242. -/
theorem signals_release_cases (n : Byte) (s : State) :
    signals (.release n) s = [] ∨ signals (.release n) s = [.unmatchedNoteOff n] := by
  rw [VoicePool.signals_release]
  exact ite_eq_or_eq _ _ _

/-- The synthesis steps, NOSTEP among them, signal nothing. -/
theorem signals_of_format_n8 {i : Instr} (h : i.format = .n8) (s : State) : signals i s = [] :=
  match i, h with
  | .kickStep _, _ | .snareStep _, _ | .midTomStep _, _ | .highTomStep _, _ | .hiHatStep _, _
  | .noStep _ _, _ => rfl

/-- Of the events of R12 only FEED and OVERRUN have a condition, and FEED has that of its phase's rule. -/
theorem signals_length_of_isEvent {i : Instr} (h : isEvent i = true) (s : State) :
    (signals i s).length ≤ 1 :=
  match i, h with
  | .feed b, _ => Framing.feedSignals_length b s
  | .overrun, _ => (congrArg List.length (signals_overrun s)).le
  | .reset, _ | .blockStart _, _ | .sample, _ | .press _, _ => Nat.zero_le 1

/-- Settles O46: the synthesis steps by their format, every other silent instruction by its own equation
of `signals`, and the rest by the lemmas above. -/
theorem otherInstructionsSignalNothing : Obligations.OtherInstructionsSignalNothing := by
  refine fun i s => ⟨?silent, ?allocate, ?release, ?overrun, fun h => signals_length_of_isEvent h s⟩
  case silent =>
    rintro (h | rfl | rfl | ⟨k, rfl⟩ | ⟨f, rfl⟩ | rfl | rfl | ⟨f, rfl⟩ | rfl)
    · exact signals_of_format_n8 h s
    all_goals rfl
  case allocate =>
    rintro n rfl
    exact signals_allocate_cases n s
  case release =>
    rintro n rfl
    exact signals_release_cases n s
  case overrun =>
    rintro rfl
    exact signals_overrun s

end Sys2Proof.Conditions
end

section
/-! RESET and the table of R42, one lemma for each element that is a family (R270). -/

namespace Sys2Proof.Reset

open Sys2Proof.Machine
open Sys2Proof.Placing (ofNat_zero_eq_posZero)

theorem exec_reset (s : State) : exec .reset s = .next (resetCore s) := rfl

theorem resetCore_slot (s : State) (k : SlotIx) : (resetCore s).slot k = ⟨0, false⟩ :=
  Vector.get_replicate 5 _ k

theorem resetCore_var (s : State) (v : VarIx) : (resetCore s).var.get v = 0 :=
  Vector.get_replicate 3 _ v

theorem resetCore_btn (s : State) (b : Button) : (resetCore s).btn.get b = false :=
  Vector.get_replicate 4 _ b

theorem resetCore_layer (s : State) (L : Layer) :
    (resetCore s).layer L = ⟨0, Num32.ofNat 0, Num32.ofNat 0, Num32.ofNat 1⟩ := by
  have hreset : (resetCore s).layer L = .reset := Invariants.layer_reset L
  rw [hreset, ofNat_zero_eq_posZero, LayerState.reset]

theorem resetCore_accOf (s : State) (d : Drum) : (resetCore s).accOf d = Num32.ofNat 0 :=
  (Vector.get_replicate 5 _ d.idx).trans ofNat_zero_eq_posZero.symm

/-- A buffer with nothing listed is `+0` at every index (R38, log 15). -/
theorem read_nil (j : Nat) : Buffer.read [] j = Num32.ofNat 0 := ofNat_zero_eq_posZero.symm

/-- Settles O42: the families by the lemmas above, the single elements by the definition of RESET. -/
theorem resetWritesTable : Obligations.ResetWritesTable := fun s =>
  have hbuffers (j : Nat) : Buffer.read (resetCore s).outL j = Num32.ofNat 0
      ∧ Buffer.read (resetCore s).outR j = Num32.ofNat 0 := ⟨read_nil j, read_nil j⟩
  ⟨resetCore s, exec_reset s, resetCore_slot s, rfl, rfl, rfl, rfl, resetCore_var s,
    resetCore_btn s, resetCore_layer s, resetCore_accOf s, rfl, rfl, hbuffers, rfl⟩

end Sys2Proof.Reset
end
